-- ==== Sys2Proof/Word.lean ====
section
/-! DEFINITION. The words ACE computes with (00_scope.md R12, R20; 30_encoding.md R110). -/

namespace Sys2Proof

/-- A `u32` of 00_scope.md R20: a command word, a host register, a coder register. -/
abbrev Word := BitVec 32

/-- A `u16` of 00_scope.md R20: one channel value (R12). -/
abbrev Half := BitVec 16

/-- A `u8` of 00_scope.md R20: one stream byte, one half of a channel value, one symbol. -/
abbrev Byte := BitVec 8

/-- A 4-bit index field of a command word: CTX, ENG or SLOT (30_encoding.md R110). -/
abbrev Idx := BitVec 4

end Sys2Proof
end

