-- ==== Sys2Proof/Syntax.lean ====
section
/-! DEFINITION. The thirteen ACE commands, one constructor per row of spec/opcode_table.json
(30_encoding.md R114). The operands are the fields the row uses, in the assembler's order (R118). -/

namespace Sys2Proof

/-- A command with its operands. `c` is a context slot index, `e` an engine index, `s` a model slot
index, `k` a symbol (30_encoding.md R112). -/
inductive Instr where
  /-- `NOP` (44_system.md R270). -/
  | nop
  /-- `ENC_INIT e` (41_coder.md R172). -/
  | encInit (e : Idx)
  /-- `ENC_DONE e` (41_coder.md R183). -/
  | encDone (e : Idx)
  /-- `DEC_INIT e` (41_coder.md R186). -/
  | decInit (e : Idx)
  /-- `DEC_DONE e` (41_coder.md R194). -/
  | decDone (e : Idx)
  /-- `INIT_POINT c` (42_color_context.md R212). -/
  | initPoint (c : Idx)
  /-- `WRITE_RGB c, e` (42_color_context.md R220). -/
  | writeRgb (c e : Idx)
  /-- `READ_RGB c, e` (42_color_context.md R226). -/
  | readRgb (c e : Idx)
  /-- `WRITE_NIR c, e` (43_nir_context.md R252). -/
  | writeNir (c e : Idx)
  /-- `READ_NIR c, e` (43_nir_context.md R256). -/
  | readNir (c e : Idx)
  /-- `MODEL_INIT c, s` (40_model.md R150). -/
  | modelInit (c s : Idx)
  /-- `ENC_SYMBOL c, s, e, k` (41_coder.md R180). -/
  | encSymbol (c s e : Idx) (k : Byte)
  /-- `DEC_SYMBOL c, s, e` (41_coder.md R188). -/
  | decSymbol (c s e : Idx)
deriving DecidableEq, Repr

end Sys2Proof
end

