-- ==== Sys2Proof/Decode.lean ====
section
/-! DEFINITION. The command word: its fields, its decoder (total, rejecting by name) and its encoder
(30_encoding.md R110 to R116). -/

namespace Sys2Proof

/-- Why a word is no command: the first two errors of 30_encoding.md R116. -/
inductive DecodeError where
  /-- `w[7:0]` is no assigned opcode. -/
  | illegalOp
  /-- A reserved bit or a field the opcode does not use is nonzero. -/
  | reservedField
deriving DecidableEq, Repr

/-- `OP`, bits [7:0] (30_encoding.md R110). -/
def fieldOp (w : Word) : BitVec 8 := w.extractLsb' 0 8

/-- `CTX`, bits [11:8] (30_encoding.md R110). -/
def fieldCtx (w : Word) : Idx := w.extractLsb' 8 4

/-- `ENG`, bits [15:12] (30_encoding.md R110). -/
def fieldEng (w : Word) : Idx := w.extractLsb' 12 4

/-- `SLOT`, bits [19:16] (30_encoding.md R110). -/
def fieldSlot (w : Word) : Idx := w.extractLsb' 16 4

/-- `SYM`, bits [27:20] (30_encoding.md R110). -/
def fieldSym (w : Word) : Byte := w.extractLsb' 20 8

/-- Step 2 of 30_encoding.md R116: the word must equal the opcode's match under the opcode's mask. -/
def decodeChecked (w mask pattern : Word) (i : Instr) : Except DecodeError Instr :=
  if w &&& mask = pattern then .ok i else .error .reservedField

/-- The decoder, steps 1 and 2 of 30_encoding.md R116 with the masks of R115. The index checks of step 3
depend on the build and are the machine's. -/
def decode (w : Word) : Except DecodeError Instr :=
  match (fieldOp w).toNat with
  | 0x00 => decodeChecked w 0xFFFFFFFF 0x00000000 .nop
  | 0x01 => decodeChecked w 0xFFFF0FFF 0x00000001 (.encInit (fieldEng w))
  | 0x02 => decodeChecked w 0xFFFF0FFF 0x00000002 (.encDone (fieldEng w))
  | 0x03 => decodeChecked w 0xFFFF0FFF 0x00000003 (.decInit (fieldEng w))
  | 0x04 => decodeChecked w 0xFFFF0FFF 0x00000004 (.decDone (fieldEng w))
  | 0x10 => decodeChecked w 0xFFFFF0FF 0x00000010 (.initPoint (fieldCtx w))
  | 0x11 => decodeChecked w 0xFFFF00FF 0x00000011 (.writeRgb (fieldCtx w) (fieldEng w))
  | 0x12 => decodeChecked w 0xFFFF00FF 0x00000012 (.readRgb (fieldCtx w) (fieldEng w))
  | 0x13 => decodeChecked w 0xFFFF00FF 0x00000013 (.writeNir (fieldCtx w) (fieldEng w))
  | 0x14 => decodeChecked w 0xFFFF00FF 0x00000014 (.readNir (fieldCtx w) (fieldEng w))
  | 0x20 => decodeChecked w 0xFFF0F0FF 0x00000020 (.modelInit (fieldCtx w) (fieldSlot w))
  | 0x21 => decodeChecked w 0xF00000FF 0x00000021
      (.encSymbol (fieldCtx w) (fieldSlot w) (fieldEng w) (fieldSym w))
  | 0x22 => decodeChecked w 0xFFF000FF 0x00000022
      (.decSymbol (fieldCtx w) (fieldSlot w) (fieldEng w))
  | _ => .error .illegalOp

/-- The command word with these fields and RSV = 0 (30_encoding.md R110). -/
def pack (op : BitVec 8) (c e s : Idx) (k : Byte) : Word :=
  0#4 ++ k ++ s ++ e ++ c ++ op

/-- The encoder: every field the opcode does not use is zero (30_encoding.md R112, R114). -/
def encode : Instr → Word
  | .nop => pack 0x00 0 0 0 0
  | .encInit e => pack 0x01 0 e 0 0
  | .encDone e => pack 0x02 0 e 0 0
  | .decInit e => pack 0x03 0 e 0 0
  | .decDone e => pack 0x04 0 e 0 0
  | .initPoint c => pack 0x10 c 0 0 0
  | .writeRgb c e => pack 0x11 c e 0 0
  | .readRgb c e => pack 0x12 c e 0 0
  | .writeNir c e => pack 0x13 c e 0 0
  | .readNir c e => pack 0x14 c e 0 0
  | .modelInit c s => pack 0x20 c 0 s 0
  | .encSymbol c s e k => pack 0x21 c e s k
  | .decSymbol c s e => pack 0x22 c e s 0

/-- The match and mask of an instruction's opcode (30_encoding.md R115). -/
def rowOf : Instr → Word × Word
  | .nop => (0x00000000, 0xFFFFFFFF)
  | .encInit _ => (0x00000001, 0xFFFF0FFF)
  | .encDone _ => (0x00000002, 0xFFFF0FFF)
  | .decInit _ => (0x00000003, 0xFFFF0FFF)
  | .decDone _ => (0x00000004, 0xFFFF0FFF)
  | .initPoint _ => (0x00000010, 0xFFFFF0FF)
  | .writeRgb _ _ => (0x00000011, 0xFFFF00FF)
  | .readRgb _ _ => (0x00000012, 0xFFFF00FF)
  | .writeNir _ _ => (0x00000013, 0xFFFF00FF)
  | .readNir _ _ => (0x00000014, 0xFFFF00FF)
  | .modelInit _ _ => (0x00000020, 0xFFF0F0FF)
  | .encSymbol _ _ _ _ => (0x00000021, 0xF00000FF)
  | .decSymbol _ _ _ => (0x00000022, 0xFFF000FF)

/-- The low `nbits` bits of `w` as a command word, every bit above them zero. A command is exactly one
32-bit word (30_encoding.md R111). -/
def tableWord (nbits w : Nat) : Word := BitVec.ofNat 32 (w % 2 ^ nbits)

/-- The instruction the decoder reads from a word numbered as spec/opcode_table.json numbers it. -/
def decodeTableWord (nbits w : Nat) : Option Instr :=
  match decode (tableWord nbits w) with
  | .ok i => some i
  | .error _ => none

end Sys2Proof
end

