-- ==== Sys2Proof/Config.lean ====
section
/-! DEFINITION. What a build of the block fixes (00_scope.md section 4) and the one value the spec leaves
open (`EOS_DRAW`, R17). A build is plain data: `State` holds one, so every statement about every state
is a statement about every build. -/

namespace Sys2Proof

/-- `CTX_KIND[c]` (00_scope.md R13): a colour context or a colour+NIR context. -/
inductive Kind where
  | color
  | colorNir
deriving DecidableEq, Repr

/-- `PROFILE` (00_scope.md R16): `DOC` is normative; `LASZIP` selects the differences of
42_color_context.md R232 and 43_nir_context.md R262. -/
inductive Profile where
  | doc
  | laszip
deriving DecidableEq, Repr

/-- The build parameters (00_scope.md R13 to R16; 20_memory.md R94). The counts are held as CONFIG holds them
(10_state.md R42), one less than their value, so that 1..16 are the only counts there are. A capacity
`none` is "unbounded" (R15). -/
structure Build where
  /-- `NUM_CTX - 1` -/
  nctxM1 : BitVec 4
  /-- `NUM_ENG - 1` -/
  nengM1 : BitVec 4
  profile : Profile
  /-- `CTX_KIND[c]` -/
  kinds : Vector Kind 16
  /-- `OUT_CAP[e]` -/
  outCap : Vector (Option Nat) 16
  /-- `IN_CAP[e]` -/
  inCap : Vector (Option Nat) 16
  /-- `ACE_BASE`, OPEN (20_memory.md R94): the host-bus address of byte offset 0. Log entry 11. -/
  aceBase : Nat
deriving DecidableEq, Repr

/-- `NUM_CTX` (00_scope.md R13). -/
def Build.numCtx (b : Build) : Nat := b.nctxM1.toNat + 1

/-- `NUM_ENG` (00_scope.md R14). -/
def Build.numEng (b : Build) : Nat := b.nengM1.toNat + 1

/-- `CTX_KIND[c]` (00_scope.md R13). -/
def Build.kind (b : Build) (c : Idx) : Kind := b.kinds[c.toNat]'c.isLt

/-- `OUT_CAP[e]` (00_scope.md R15). -/
def Build.outCapOf (b : Build) (e : Idx) : Option Nat := b.outCap[e.toNat]'e.isLt

/-- `IN_CAP[e]` (00_scope.md R15). -/
def Build.inCapOf (b : Build) (e : Idx) : Option Nat := b.inCap[e.toNat]'e.isLt

/-- The default build (00_scope.md R13 to R16): one COLOR_NIR context, two engines, `DOC`, unbounded
buffers. The spec gives `ACE_BASE` no default: 0 is a DESIGN CHOICE (log entry 11). -/
def Build.standard : Build where
  nctxM1 := 0
  nengM1 := 1
  profile := .doc
  kinds := Vector.replicate 16 .colorNir
  outCap := Vector.replicate 16 none
  inCap := Vector.replicate 16 none
  aceBase := 0

/-- FREE VALUE `EOS_DRAW` (00_scope.md R17, left OPEN): the byte engine `e` obtains the `i`-th time it
reads past the end of an input whose end-of-stream mark is set. No body: any value in 0..255 for each
byte (20_memory.md R86). Log entry 5. -/
opaque Config.eosDraw (e : Idx) (i : Nat) : Byte

end Sys2Proof
end

