-- ==== Sys2Proof/Machine/State.lean ====
section
/-! DEFINITION. The state of ACE as plain data (10_state.md; 70_reset_and_hazards.md R330), and the reasons
a step can stop. -/

namespace Sys2Proof.Machine

/-- The error codes a command or a host access can record (60_exceptions.md R300), in code order 1 to
12. -/
inductive ErrCode where
  | illegalOp
  | reservedField
  | indexRange
  | kindMismatch
  | ctxUninit
  | engMode
  | symbolRange
  | outOverflow
  | internalCarry
  | cmdWhileBusy
  | hostAccess
  | inOverflow
deriving DecidableEq, Repr

/-- `eng[e].mode` (10_state.md R60). -/
inductive Mode where
  | idle
  | enc
  | dec
deriving DecidableEq, Repr

/-- `ctx[c].phase` (10_state.md R53, R54). -/
inductive Phase where
  | uninit
  | seeded
  | streaming
deriving DecidableEq, Repr

/-- One of the ten model slots of 10_state.md R52. -/
abbrev Slot := Fin 10

/-- One adaptive frequency model (10_state.md R57). The number of symbols `n` is a constant of the slot
and the profile and is not stored. -/
structure Model where
  count : List Word
  dist : List Word
  total : Word
  cycle : Word
  /-- `until` of 10_state.md R57: symbols left before the next update. -/
  untilUpdate : Word
deriving DecidableEq, Repr

/-- One context slot (10_state.md R53). Its `kind` is the build parameter `CTX_KIND[c]`. -/
structure Context where
  phase : Phase
  unused : Bool
  lastR : Half
  lastG : Half
  lastB : Half
  lastN : Half
  models : Vector Model 10
deriving DecidableEq, Repr

/-- One coder engine (10_state.md R60). `input` is the field the spec calls `in`. -/
structure Engine where
  mode : Mode
  base : Word
  length : Word
  value : Word
  out : List Byte
  outIdx : Word
  input : List Byte
  inPtr : Word
  eos : Bool
  underrun : Bool
  /-- The MODEL's own field (log entry 5): how many `EOS_DRAW` bytes this engine has obtained. -/
  draws : Nat
deriving DecidableEq, Repr

/-- The latch of a held command: its word and the `ARG_*` values as they stood when it was issued
(60_exceptions.md R304). -/
structure Held where
  word : Word
  argR : Half
  argG : Half
  argB : Half
  argN : Half
deriving DecidableEq, Repr

/-- The size of a host access; only 32-bit accesses are proper (20_memory.md R83, R90). -/
inductive Width where
  | w8
  | w16
  | w32
  | w64
deriving DecidableEq, Repr

/-- What the host does: an access at a host-bus address (20_memory.md R90, R94), or the reset input
(70_reset_and_hazards.md R331). The spec gives the bus no width: an address is a number. -/
inductive Access where
  | read (addr : Nat) (width : Width)
  | write (addr : Nat) (width : Width) (v : Word)
  | reset
deriving DecidableEq, Repr

/-- The whole machine. -/
structure State where
  /-- The build parameters; constant. -/
  build : Build
  /-- `CMD` (10_state.md R43). -/
  cmd : Word
  /-- The held command, if any; `STATUS.BUSY` is 1 iff there is one (20_memory.md R87). -/
  held : Option Held
  /-- `STATUS.ERR` (10_state.md R44). -/
  err : Bool
  /-- `STATUS.ERRBITS`, bit `k - 1` for code `k` (10_state.md R44). -/
  errBits : BitVec 12
  /-- `ERRINFO.FIRST` (10_state.md R45). -/
  errFirst : BitVec 8
  /-- `ERRINFO.LAST` (10_state.md R45). -/
  errLast : BitVec 8
  /-- `ERRINFO.COUNT` (10_state.md R45). -/
  errCount : BitVec 16
  /-- `ERRDATA` (10_state.md R46). -/
  errData : Word
  /-- `RES0` (10_state.md R47). -/
  res0 : Word
  argR : Half
  argG : Half
  argB : Half
  argN : Half
  resR : Half
  resG : Half
  resB : Half
  resN : Half
  /-- `DBG_SEL[15:0]` (10_state.md R50). -/
  dbgSel : BitVec 16
  engs : Vector Engine 16
  ctxs : Vector Context 16
  /-- The MODEL's own field (log entry 1): the accesses the host has yet to make, first one first. -/
  pending : List Access
  /-- The MODEL's own field (log entry 2): what the last host read returned. -/
  readData : Word
deriving DecidableEq, Repr

/-- Why the machine stops. -/
inductive Fault where
  /-- Raised by a renormalisation (41_coder.md R182, R191) that starts with `length = 0`: its loop
  never ends. SAFE: the hardware would not complete the command either; no run from reset reaches it
  (10_state.md R67). Log entry 6. -/
  | renormDiverges
deriving DecidableEq, Repr

/-- Why the machine gives no meaning. -/
inductive Refusal where
  /-- An instruction without a meaning yet, by its mnemonic. SAFE. No arm of `exec` raises it. -/
  | notModelled (mnemonic : String)
deriving DecidableEq, Repr

/-- A model slot before its first initialisation: unspecified and unobservable (10_state.md R58).
Log entry 4. -/
def Model.unallocated : Model where
  count := []
  dist := []
  total := 0
  cycle := 0
  untilUpdate := 0

/-- A context slot after reset (70_reset_and_hazards.md R330). -/
def Context.reset : Context where
  phase := .uninit
  unused := true
  lastR := 0
  lastG := 0
  lastB := 0
  lastN := 0
  models := Vector.replicate 10 Model.unallocated

/-- An engine after reset (70_reset_and_hazards.md R330). -/
def Engine.reset : Engine where
  mode := .idle
  base := 0
  length := 0
  value := 0
  out := []
  outIdx := 0
  input := []
  inPtr := 0
  eos := false
  underrun := false
  draws := 0

/-- The machine of build `b` right after power-on (70_reset_and_hazards.md R330). -/
def State.resetOf (b : Build) : State where
  build := b
  cmd := 0
  held := none
  err := false
  errBits := 0
  errFirst := 0
  errLast := 0
  errCount := 0
  errData := 0
  res0 := 0
  argR := 0
  argG := 0
  argB := 0
  argN := 0
  resR := 0
  resG := 0
  resB := 0
  resN := 0
  dbgSel := 0
  engs := Vector.replicate 16 Engine.reset
  ctxs := Vector.replicate 16 Context.reset
  pending := []
  readData := 0

/-- The machine right after reset, with the default build of 00_scope.md R13 to R16. -/
def State.reset : State := State.resetOf Build.standard

end Sys2Proof.Machine
end

