-- ==== Sys2Proof/Machine/Operands.lean ====
section
/-! DEFINITION. How a command obtains its operands: index checks (30_encoding.md R113), the point operands
with their latch (60_exceptions.md R304), and the half, fold and clamp arithmetic of 00_scope.md R21 to
R23. -/

namespace Sys2Proof.Machine

/-! ### Halves, fold, clamp -/

/-- `lo8(v) = v & 0xFF` (00_scope.md R21). -/
def lo8 (v : Half) : Byte := v.extractLsb' 0 8

/-- `hi8(v) = v >> 8` (00_scope.md R21). -/
def hi8 (v : Half) : Byte := v.extractLsb' 8 8

/-- `join(h, l) = (h << 8) | l` (00_scope.md R21). -/
def join (h l : Byte) : Half := (h.setWidth 16 <<< 8) ||| l.setWidth 16

/-- `fold(x) = x & 0xFF` in two's complement (00_scope.md R22). -/
def fold (x : Int) : Byte := BitVec.ofInt 8 x

/-- `clamp(x)` saturates into `[0, 255]` (00_scope.md R23). -/
def clamp (x : Int) : Byte := if x < 0 then 0 else if x > 255 then 255 else BitVec.ofInt 8 x

/-- A difference of two halves, computed in `int` (00_scope.md R20). -/
def delta (new old : Byte) : Int := (new.toNat : Int) - (old.toNat : Int)

/-! ### Index checks -/

/-- `c < NUM_CTX` (30_encoding.md R113). -/
def ctxValid (b : Build) (c : Idx) : Bool := decide (c.toNat < b.numCtx)

/-- `e < NUM_ENG` (30_encoding.md R113). -/
def engValid (b : Build) (e : Idx) : Bool := decide (e.toNat < b.numEng)

/-- How many model slots a context of a kind has (10_state.md R52). -/
def slotCount : Kind → Nat
  | .color => 7
  | .colorNir => 10

/-- The model slot that index `s` names in context `c`, if it exists there (10_state.md R52,
30_encoding.md R113). -/
def slotOf (b : Build) (c s : Idx) : Option Slot :=
  if h : s.toNat < 10 then
    if s.toNat < slotCount (b.kind c) then some ⟨s.toNat, h⟩ else none
  else none

/-- The number of symbols `n` of a model slot (10_state.md R52, 43_nir_context.md R262). -/
def slotSyms (p : Profile) (σ : Slot) : Nat :=
  if σ = 0 then 128
  else if σ = 7 then
    match p with
    | .doc => 128
    | .laszip => 4
  else 256

/-! ### Point operands -/

/-- Red, Green and Blue of a point. -/
structure Rgb where
  r : Half
  g : Half
  b : Half
deriving DecidableEq, Repr

/-- The Red, Green, Blue operand: the `ARG_*` registers, or for a held command their latched values
(10_state.md R48, 60_exceptions.md R304). -/
def argRgb (s : State) : Rgb :=
  match s.held with
  | none => ⟨s.argR, s.argG, s.argB⟩
  | some h => ⟨h.argR, h.argG, h.argB⟩

/-- The near-infrared operand, latched likewise. -/
def argNir (s : State) : Half :=
  match s.held with
  | none => s.argN
  | some h => h.argN

/-- The word of the command being executed: `CMD`, or the latched word (60_exceptions.md R304). -/
def commandWord (s : State) : Word :=
  match s.held with
  | none => s.cmd
  | some h => h.word

end Sys2Proof.Machine
end

