-- ==== Sys2Proof/Machine/Flags.lean ====
section
/-! DEFINITION. The Boolean outputs of ACE: the change masks (42_color_context.md R210, 43_nir_context.md
R251), `RES0` (10_state.md R47) and the status words (10_state.md R42, R44, R45, R61, R62). ACE has no
condition codes (10_state.md R64). -/

namespace Sys2Proof.Machine

/-- `(c) << k` on a byte (00_scope.md R20). -/
def byteBit (c : Bool) (k : Nat) : Byte := if c then 1#8 <<< k else 0#8

/-- `(c) << k` on a word (00_scope.md R20). -/
def wordBit (c : Bool) (k : Nat) : Word := if c then 1#32 <<< k else 0#32

/-- `ColorMask(lR, lG, lB, R, G, B)` (42_color_context.md R210) of the last point `l` and the new
point `p`. -/
def colorMask (l p : Rgb) : Byte :=
  byteBit (lo8 l.r != lo8 p.r) 0
    ||| byteBit (hi8 l.r != hi8 p.r) 1
    ||| byteBit (lo8 l.g != lo8 p.g) 2
    ||| byteBit (hi8 l.g != hi8 p.g) 3
    ||| byteBit (lo8 l.b != lo8 p.b) 4
    ||| byteBit (hi8 l.b != hi8 p.b) 5
    ||| byteBit (lo8 p.r != lo8 p.g || lo8 p.r != lo8 p.b || hi8 p.r != hi8 p.g
          || hi8 p.r != hi8 p.b) 6

/-- `NirMask(lN, N)` (43_nir_context.md R251). -/
def nirMask (l n : Half) : Byte :=
  byteBit (lo8 l != lo8 n) 0 ||| byteBit (hi8 l != hi8 n) 1

/-- 1 if the mask bit is set, else 0: one symbol coded for it or none. -/
def maskOne (m : Byte) (i : Nat) : Nat := if m.getLsbD i then 1 else 0

/-- `ns` of `READ_RGB` (42_color_context.md R226): the mask, each set Red bit, and with bit 6 each set
Green and Blue bit. -/
def rgbCount (m : Byte) : Nat :=
  1 + maskOne m 0 + maskOne m 1
    + (if m.getLsbD 6 then maskOne m 2 + maskOne m 3 + maskOne m 4 + maskOne m 5 else 0)

/-- `ns` of `READ_NIR` (43_nir_context.md R256). -/
def nirCount (m : Byte) : Nat := 1 + maskOne m 0 + maskOne m 1

/-- The `RES0` word of a context command: `(ns << 12) | ((m != 0) << 8) | m` (10_state.md R47). -/
def res0Point (ns : Nat) (m : Byte) : Word :=
  (BitVec.ofNat 32 ns <<< 12) ||| wordBit (m != 0) 8 ||| m.setWidth 32

/-- The `RES0` word of `DEC_SYMBOL`: `(1 << 12) | k` (41_coder.md R188). -/
def res0Symbol (k : Byte) : Word := (1#32 <<< 12) ||| k.setWidth 32

/-! ### Codes -/

/-- The number of an error (60_exceptions.md R300). -/
def ErrCode.code : ErrCode → Nat
  | .illegalOp => 1
  | .reservedField => 2
  | .indexRange => 3
  | .kindMismatch => 4
  | .ctxUninit => 5
  | .engMode => 6
  | .symbolRange => 7
  | .outOverflow => 8
  | .internalCarry => 9
  | .cmdWhileBusy => 10
  | .hostAccess => 11
  | .inOverflow => 12

/-- `MODE` of `ENG_STAT` (10_state.md R60, R61). -/
def Mode.code : Mode → Word
  | .idle => 0
  | .enc => 1
  | .dec => 2

/-- `PHASE` of `CTX_STAT` (10_state.md R53, R62). -/
def Phase.code : Phase → Word
  | .uninit => 0
  | .seeded => 1
  | .streaming => 2

/-! ### Status words -/

/-- The word whose bit `i` is `f i` for `i < 16`, its upper half zero. -/
def bits16 (f : Idx → Bool) : Word :=
  (List.range 16).foldl (fun w i => w ||| wordBit (f (BitVec.ofNat 4 i)) i) 0

/-- `CONFIG` (10_state.md R42). -/
def configWord (b : Build) : Word :=
  b.nctxM1.setWidth 32
    ||| (b.nengM1.setWidth 32 <<< 4)
    ||| wordBit (b.profile == .laszip) 8
    ||| (bits16 (fun c => ctxValid b c && b.kind c == .colorNir) <<< 16)

/-- `STATUS` (10_state.md R44) from its parts; `underrun e` is `eng[e].underrun`. -/
def statusWord (b : Build) (busy err : Bool) (errBits : BitVec 12) (underrun : Idx → Bool) : Word :=
  wordBit busy 0
    ||| wordBit err 1
    ||| (errBits.setWidth 32 <<< 2)
    ||| (bits16 (fun e => engValid b e && underrun e) <<< 16)

/-- `ERRINFO` (10_state.md R45). -/
def errInfoWord (first last : BitVec 8) (count : BitVec 16) : Word := count ++ last ++ first

/-- `ENG_STAT[e]` (10_state.md R61). -/
def engStatWord (g : Engine) : Word :=
  g.mode.code ||| wordBit g.eos 2 ||| wordBit g.underrun 3

/-- `CTX_STAT[c]` (10_state.md R62). -/
def ctxStatWord (k : Kind) (x : Context) : Word :=
  x.phase.code ||| wordBit x.unused 2 ||| wordBit (k == .colorNir) 3

end Sys2Proof.Machine
end

