-- ==== Sys2Proof/Machine/Ops.lean ====
section
/-! DEFINITION. The named operations every command is written with: access to engines, contexts and model
slots; how an attempt of a command ends (00_scope.md R24, R25); recording an error (60_exceptions.md
R306), which is this machine's exception entry (it has no traps and no return, R311); the stream
primitives (20_memory.md R84 to R86). -/

namespace Sys2Proof.Machine

/-! ### Engines, contexts, model slots -/

/-- `eng[e]`. -/
def State.eng (s : State) (e : Idx) : Engine := s.engs[e.toNat]'e.isLt

/-- `eng[e] <- g`. -/
def State.setEng (s : State) (e : Idx) (g : Engine) : State :=
  { s with engs := s.engs.set e.toNat g e.isLt }

/-- `ctx[c]`. -/
def State.ctx (s : State) (c : Idx) : Context := s.ctxs[c.toNat]'c.isLt

/-- `ctx[c] <- x`. -/
def State.setCtx (s : State) (c : Idx) (x : Context) : State :=
  { s with ctxs := s.ctxs.set c.toNat x c.isLt }

/-- Model slot `σ` of a context. -/
def Context.model (x : Context) (σ : Slot) : Model := x.models[σ.val]'σ.isLt

/-- Model slot `σ` of a context replaced by `m`. -/
def Context.setModel (x : Context) (σ : Slot) (m : Model) : Context :=
  { x with models := x.models.set σ.val m σ.isLt }

/-- `model[c][σ]`. -/
def State.model (s : State) (c : Idx) (σ : Slot) : Model := (s.ctx c).model σ

/-- `model[c][σ] <- m`. -/
def State.setModel (s : State) (c : Idx) (σ : Slot) (m : Model) : State :=
  s.setCtx c ((s.ctx c).setModel σ m)

/-- The last Red, Green, Blue of context `c` (10_state.md R53). -/
def State.lastRgb (s : State) (c : Idx) : Rgb :=
  ⟨(s.ctx c).lastR, (s.ctx c).lastG, (s.ctx c).lastB⟩

/-- `last_r, last_g, last_b <- p` and `phase <- STREAMING` (42_color_context.md R220, R226). -/
def State.streamRgb (s : State) (c : Idx) (p : Rgb) : State :=
  s.setCtx c { s.ctx c with lastR := p.r, lastG := p.g, lastB := p.b, phase := .streaming }

/-- `last_n <- v` and `phase <- STREAMING` (43_nir_context.md R252, R256). -/
def State.streamNir (s : State) (c : Idx) (v : Half) : State :=
  s.setCtx c { s.ctx c with lastN := v, phase := .streaming }

/-! ### How an attempt of a command ends -/

/-- What ends an attempt other than completion. -/
inductive Stop where
  /-- `raise Error(x)` (00_scope.md R24). -/
  | error (x : ErrCode)
  /-- `hold` (20_memory.md R87). -/
  | hold
  /-- A renormalisation loop that never ends. -/
  | diverge
deriving DecidableEq, Repr

/-- One attempt of (a part of) a command: its result, or what ended it with no write made. -/
abbrev Attempt := Except Stop

/-- `if not p: raise Error(x)`. -/
def require (p : Bool) (x : ErrCode) : Attempt Unit :=
  if p then .ok () else .error (.error x)

/-- The engine checks of 41_coder.md R173. -/
def requireMode (s : State) (e : Idx) (m : Mode) : Attempt Unit :=
  require ((s.eng e).mode == m) .engMode

/-- The context check of 60_exceptions.md R300 code 5: `INIT_POINT` has been done. -/
def requireInit (s : State) (c : Idx) : Attempt Unit :=
  require ((s.ctx c).phase != .uninit) .ctxUninit

/-- The kind check of 60_exceptions.md R300 code 4. -/
def requireNir (s : State) (c : Idx) : Attempt Unit :=
  require (s.build.kind c == .colorNir) .kindMismatch

/-- The slot check of 30_encoding.md R113, giving the slot. -/
def requireSlot (s : State) (c i : Idx) : Attempt Slot :=
  match slotOf s.build c i with
  | some σ => .ok σ
  | none => .error (.error .indexRange)

/-- The error record of 60_exceptions.md R306 for code `x` with info `i`. BUSY is not touched here: only
an error of the held command itself lowers it (`finish`). -/
def recordError (x : ErrCode) (i : Word) (s : State) : State :=
  { s with
    err := true
    errBits := s.errBits ||| (1#12 <<< (x.code - 1))
    errFirst := if s.errCount = 0 then BitVec.ofNat 8 x.code else s.errFirst
    errData := if s.errCount = 0 then i else s.errData
    errLast := BitVec.ofNat 8 x.code
    errCount := if s.errCount = 0xFFFF then 0xFFFF else s.errCount + 1 }

/-- The latch a command leaves when it holds: taken when it first holds, kept by every later attempt
(60_exceptions.md R304). -/
def latchOf (s : State) : Held :=
  match s.held with
  | some h => h
  | none => ⟨s.cmd, s.argR, s.argG, s.argB, s.argN⟩

/-- How an attempt made in state `s` leaves the machine (44_system.md R271, 20_memory.md R87,
60_exceptions.md R305): completed, all writes and BUSY = 0; error, the record only and BUSY = 0; hold,
no write but the latch and BUSY = 1. -/
def finish (s : State) : Attempt State → Host.Outcome State Fault Refusal
  | .ok t => .next { t with held := none }
  | .error (.error x) => .next (recordError x (commandWord s) { s with held := none })
  | .error .hold => .next { s with held := some (latchOf s) }
  | .error .diverge => .fault .renormDiverges

/-! ### Stream primitives -/

/-- `StreamAppend(e, b)` (20_memory.md R84, R103) with `cap = OUT_CAP[e]`. -/
def streamAppend (cap : Option Nat) (b : Byte) (g : Engine) : Attempt Engine :=
  match cap with
  | none => .ok { g with out := g.out ++ [b] }
  | some n => if n ≤ g.out.length then .error (.error .outOverflow) else .ok { g with out := g.out ++ [b] }

/-- Adding one to a number whose bytes are given last byte first; `none` when every byte is `0xFF`. -/
def carryReversed : List Byte → Option (List Byte)
  | [] => none
  | b :: rest => if b = 0xFF then (carryReversed rest).map (0 :: ·) else some ((b + 1) :: rest)

/-- `StreamCarry(e)` (20_memory.md R85). -/
def streamCarry (g : Engine) : Attempt Engine :=
  match carryReversed g.out.reverse with
  | some bs => .ok { g with out := bs.reverse }
  | none => .error (.error .internalCarry)

/-- `StreamRead(e)` (20_memory.md R86): the next byte; or a hold; or, past a marked end, an `EOS_DRAW`
byte with `underrun` set. -/
def streamRead (e : Idx) (g : Engine) : Attempt (Byte × Engine) :=
  if g.inPtr.toNat < g.input.length then
    .ok (g.input.getD g.inPtr.toNat 0, { g with inPtr := g.inPtr + 1 })
  else if g.eos then
    .ok (Config.eosDraw e g.draws, { g with underrun := true, draws := g.draws + 1 })
  else .error .hold

end Sys2Proof.Machine
end

