-- ==== Sys2Proof/Machine/Model.lean ====
section
/-! DEFINITION. The adaptive frequency model (40_model.md) and `MODEL_INIT`. All values are `u32`. The
look-up table of R148 has no architectural effect and is left out (log entry 13). -/

namespace Sys2Proof.Machine

/-- `DM_MAX_COUNT` (00_scope.md R18). -/
def dmMaxCount : Word := 0x8000

/-- `count[k]`. -/
def Model.countAt (m : Model) (k : Nat) : Word := m.count.getD k 0

/-- `dist[k]`. -/
def Model.distAt (m : Model) (k : Nat) : Word := m.dist.getD k 0

/-- The sum of the counts. -/
def sumCounts : List Word → Word
  | [] => 0
  | c :: cs => c + sumCounts cs

/-- The rescaler's halving, rounding up (40_model.md R145). -/
def halveCounts (cs : List Word) : List Word := cs.map fun c : Word => (c + 1) >>> 1

/-- The cumulative frequencies of 40_model.md R144: entry `k` is `(scale * sum of counts before k) >> 16`. -/
def cumulative (scale : Word) : Word → List Word → List Word
  | _, [] => []
  | sum, c :: cs => ((scale * sum) >>> 16) :: cumulative scale (sum + c) cs

/-- The next period: `(5 * cycle) >> 2`, at most `(n + 6) << 3` (40_model.md R144). -/
def nextCycle (n : Nat) (cycle : Word) : Word :=
  let grown := (5 * cycle) >>> 2
  let cap := (BitVec.ofNat 32 n + 6) <<< 3
  if grown > cap then cap else grown

/-- `Update(m)` once the counts and their total are settled: the table and the period
(40_model.md R144). -/
def Model.retable (n : Nat) (m : Model) : Model :=
  { m with
    dist := cumulative (0x80000000 / m.total) 0 m.count
    cycle := nextCycle n m.cycle
    untilUpdate := nextCycle n m.cycle }

/-- The rescaler of `Update(m)`: when the total exceeds `DM_MAX_COUNT`, halve (40_model.md R144, R145). -/
def Model.rescale (m : Model) : Model :=
  if m.total > dmMaxCount then
    { m with count := halveCounts m.count, total := sumCounts (halveCounts m.count) }
  else m

/-- `Update(m)` (40_model.md R144). -/
def Model.update (n : Nat) (m : Model) : Model :=
  Model.retable n (Model.rescale { m with total := m.total + m.cycle })

/-- `ModelInit(m)` for `n` symbols (40_model.md R141): nothing of the old model remains. -/
def Model.fresh (n : Nat) : Model :=
  let u := Model.update n
    { count := List.replicate n 1, dist := [], total := 0, cycle := BitVec.ofNat 32 n, untilUpdate := 0 }
  let cycle := (BitVec.ofNat 32 n + 6) >>> 1
  { u with cycle := cycle, untilUpdate := cycle }

/-- `Adapt(m, k)` (40_model.md R143). -/
def Model.adapt (n : Nat) (m : Model) (k : Nat) : Model :=
  let m' := { m with
    count := m.count.set k (m.countAt k + 1)
    untilUpdate := m.untilUpdate - 1 }
  if m'.untilUpdate = 0 then Model.update n m' else m'

/-- `ModelInit(model[c][σ])`. -/
def initModel (p : Profile) (x : Context) (σ : Slot) : Context :=
  x.setModel σ (Model.fresh (slotSyms p σ))

/-- `MODEL_INIT c, s` (40_model.md R150). -/
def execModelInit (c i : Idx) (s : State) : Host.Outcome State Fault Refusal :=
  finish s do
    require (ctxValid s.build c) .indexRange
    let σ ← requireSlot s c i
    requireInit s c
    .ok (s.setCtx c (initModel s.build.profile (s.ctx c) σ))

end Sys2Proof.Machine
end

