-- ==== Sys2Proof/Machine/Coder.lean ====
section
/-! DEFINITION. The arithmetic encoder and decoder (41_coder.md): the primitives on one engine and one model,
the same on a state, and the six coder commands. -/

namespace Sys2Proof.Machine

/-- `AC_MIN_LENGTH` (00_scope.md R18). -/
def acMinLength : Word := 0x01000000

/-- `AC_MAX_LENGTH` (00_scope.md R18). -/
def acMaxLength : Word := 0xFFFFFFFF

/-- Rounds a renormalisation loop can take: four shifts by 8 leave a 32-bit length at 0, so a loop that has
not ended by then never does (log entry 6). -/
def renormRounds : Nat := 4

/-! ### Encoder primitives -/

/-- `base >> 24` as a byte (41_coder.md R182). -/
def topByte (w : Word) : Byte := w.extractLsb' 24 8

/-- The loop of `RenormEnc(e)` (41_coder.md R182): at least one round. -/
def renormEncLoop (cap : Option Nat) : Nat → Engine → Attempt Engine
  | 0, _ => .error .diverge
  | fuel + 1, g => do
    let g ← streamAppend cap (topByte g.base) g
    let g := { g with base := g.base <<< 8, length := g.length <<< 8 }
    if g.length < acMinLength then renormEncLoop cap fuel g else .ok g

/-- `RenormEnc(e)` (41_coder.md R182). -/
def renormEnc (cap : Option Nat) (g : Engine) : Attempt Engine := renormEncLoop cap renormRounds g

/-- `if length < AC_MIN_LENGTH: RenormEnc(e)` (41_coder.md R180). -/
def renormEncIfLow (cap : Option Nat) (g : Engine) : Attempt Engine :=
  if g.length < acMinLength then renormEnc cap g else .ok g

/-- `if base < b0: StreamCarry(e)`: the addition wrapped (41_coder.md R180, R183). -/
def carryIfWrapped (b0 : Word) (g : Engine) : Attempt Engine :=
  if g.base < b0 then streamCarry g else .ok g

/-- `length >> DM_LENGTH_SHIFT` (41_coder.md R180, R188; 00_scope.md R18). -/
def quotLength (g : Engine) : Word := g.length >>> 15

/-- The length of the interval symbol `k` narrows to, `x` being its start (41_coder.md R180, R188): the last
symbol takes all that remains. -/
def narrowLength (n : Nat) (m : Model) (k : Nat) (g : Engine) (x : Word) : Word :=
  if k = n - 1 then g.length - x else m.distAt (k + 1) * quotLength g - x

/-- `EncodeSymbol` on one engine and one model of `n` symbols (41_coder.md R180). -/
def encodeWith (cap : Option Nat) (n : Nat) (k : Nat) (g : Engine) (m : Model) :
    Attempt (Engine × Model) := do
  let x := m.distAt k * quotLength g
  let g ← carryIfWrapped g.base { g with base := g.base + x, length := narrowLength n m k g x }
  let g ← renormEncIfLow cap g
  .ok (g, Model.adapt n m k)

/-! ### Decoder primitives -/

/-- The loop of `RenormDec(e)` (41_coder.md R191): at least one round. -/
def renormDecLoop (e : Idx) : Nat → Engine → Attempt Engine
  | 0, _ => .error .diverge
  | fuel + 1, g => do
    let (b, g) ← streamRead e g
    let g := { g with value := (g.value <<< 8) ||| b.setWidth 32, length := g.length <<< 8 }
    if g.length < acMinLength then renormDecLoop e fuel g else .ok g

/-- `RenormDec(e)` (41_coder.md R191). -/
def renormDec (e : Idx) (g : Engine) : Attempt Engine := renormDecLoop e renormRounds g

/-- `if length < AC_MIN_LENGTH: RenormDec(e)` (41_coder.md R188). -/
def renormDecIfLow (e : Idx) (g : Engine) : Attempt Engine :=
  if g.length < acMinLength then renormDec e g else .ok g

/-- The largest `j` in `0..top` with `dist[j] * Lq <= value`; 0 always qualifies (41_coder.md R188). -/
def findSymbol (m : Model) (lq v : Word) : Nat → Nat
  | 0 => 0
  | j + 1 => if m.distAt (j + 1) * lq ≤ v then j + 1 else findSymbol m lq v j

/-- `DecodeSymbol` on one engine and one model of `n` symbols (41_coder.md R188). -/
def decodeWith (e : Idx) (n : Nat) (g : Engine) (m : Model) : Attempt (Byte × Engine × Model) := do
  let k := findSymbol m (quotLength g) g.value (n - 1)
  let x := m.distAt k * quotLength g
  let g := { g with value := g.value - x, length := narrowLength n m k g x }
  let g ← renormDecIfLow e g
  .ok (BitVec.ofNat 8 k, g, Model.adapt n m k)

/-! ### The primitives on a state -/

/-- `EncodeSymbol(e, c, σ, k)` (41_coder.md R180). -/
def encodeSymbol (c e : Idx) (σ : Slot) (k : Byte) (s : State) : Attempt State := do
  let (g, m) ← encodeWith (s.build.outCapOf e) (slotSyms s.build.profile σ) k.toNat (s.eng e) (s.model c σ)
  .ok ((s.setEng e g).setModel c σ m)

/-- `DecodeSymbol(e, c, σ)` (41_coder.md R188). -/
def decodeSymbol (c e : Idx) (σ : Slot) (s : State) : Attempt (Byte × State) := do
  let (k, g, m) ← decodeWith e (slotSyms s.build.profile σ) (s.eng e) (s.model c σ)
  .ok (k, (s.setEng e g).setModel c σ m)

/-- A list of symbols, coded in order on one engine through slots of one context. -/
def encodeAll (c e : Idx) : List (Slot × Byte) → State → Attempt State
  | [], s => .ok s
  | (σ, k) :: rest, s => do
    let s ← encodeSymbol c e σ k s
    encodeAll c e rest s

/-! ### Commands -/

/-- `ENC_INIT e` (41_coder.md R172). -/
def execEncInit (e : Idx) (s : State) : Host.Outcome State Fault Refusal :=
  finish s do
    require (engValid s.build e) .indexRange
    .ok (s.setEng e { s.eng e with
      base := 0, length := acMaxLength, out := [], outIdx := 0, mode := .enc })

/-- The narrowing that `ENC_DONE` makes before its last renormalisation (41_coder.md R183). -/
def flushNarrow (g : Engine) : Engine :=
  if g.length > 2 * acMinLength then
    { g with base := g.base + acMinLength, length := acMinLength >>> 1 }
  else
    { g with base := g.base + (acMinLength >>> 1), length := acMinLength >>> 9 }

/-- How many zero bytes `ENC_DONE` appends: `z` of 41_coder.md R183. -/
def flushZeros (g : Engine) : Nat := if g.length > 2 * acMinLength then 3 else 2

/-- `repeat z times: StreamAppend(e, 0x00)` (41_coder.md R183). -/
def appendZeros (cap : Option Nat) : Nat → Engine → Attempt Engine
  | 0, g => .ok g
  | z + 1, g => do
    let g ← streamAppend cap 0 g
    appendZeros cap z g

/-- The engine part of `ENC_DONE` (41_coder.md R183). -/
def flushWith (cap : Option Nat) (g : Engine) : Attempt Engine := do
  let g' ← carryIfWrapped g.base (flushNarrow g)
  let g' ← renormEnc cap g'
  let g' ← appendZeros cap (flushZeros g) g'
  .ok { g' with mode := .idle }

/-- `ENC_DONE e` (41_coder.md R183). -/
def execEncDone (e : Idx) (s : State) : Host.Outcome State Fault Refusal :=
  finish s do
    require (engValid s.build e) .indexRange
    requireMode s e .enc
    let g ← flushWith (s.build.outCapOf e) (s.eng e)
    .ok (s.setEng e g)

/-- `repeat n times: v <- (v << 8) | StreamRead(e)` (41_coder.md R186). -/
def readBytes (e : Idx) : Nat → Word → Engine → Attempt (Word × Engine)
  | 0, v, g => .ok (v, g)
  | n + 1, v, g => do
    let (b, g) ← streamRead e g
    readBytes e n ((v <<< 8) ||| b.setWidth 32) g

/-- The engine part of `DEC_INIT` (41_coder.md R186). -/
def startDecoder (e : Idx) (g : Engine) : Attempt Engine := do
  let (v, g) ← readBytes e 4 0 { g with underrun := false }
  .ok { g with value := v, length := acMaxLength, mode := .dec }

/-- `DEC_INIT e` (41_coder.md R186). -/
def execDecInit (e : Idx) (s : State) : Host.Outcome State Fault Refusal :=
  finish s do
    require (engValid s.build e) .indexRange
    let g ← startDecoder e (s.eng e)
    .ok (s.setEng e g)

/-- `DEC_DONE e` (41_coder.md R194). -/
def execDecDone (e : Idx) (s : State) : Host.Outcome State Fault Refusal :=
  finish s do
    require (engValid s.build e) .indexRange
    requireMode s e .dec
    .ok (s.setEng e { s.eng e with mode := .idle })

/-- `ENC_SYMBOL c, s, e, k` (41_coder.md R180). -/
def execEncSymbol (c i e : Idx) (k : Byte) (s : State) : Host.Outcome State Fault Refusal :=
  finish s do
    require (ctxValid s.build c && engValid s.build e) .indexRange
    let σ ← requireSlot s c i
    requireInit s c
    requireMode s e .enc
    require (decide (k.toNat < slotSyms s.build.profile σ)) .symbolRange
    encodeSymbol c e σ k s

/-- `DEC_SYMBOL c, s, e` (41_coder.md R188). -/
def execDecSymbol (c i e : Idx) (s : State) : Host.Outcome State Fault Refusal :=
  finish s do
    require (ctxValid s.build c && engValid s.build e) .indexRange
    let σ ← requireSlot s c i
    requireInit s c
    requireMode s e .dec
    let (k, s) ← decodeSymbol c e σ s
    .ok { s with res0 := res0Symbol k }

end Sys2Proof.Machine
end

