-- ==== Sys2Proof/Machine/Color.lean ====
section
/-! DEFINITION. The colour context (42_color_context.md): prediction, model selection, `INIT_POINT`,
`WRITE_RGB` and `READ_RGB`, in both profiles. -/

namespace Sys2Proof.Machine

/-! ### Prediction (42_color_context.md R213, R232) -/

/-- The prediction basis of a Green half: Red's delta `d` added to Green's last half, clamped. -/
def greenBasis (d : Int) (lastG : Byte) : Byte := clamp (d + (lastG.toNat : Int))

/-- The prediction basis of a Blue half: as Green's under `DOC`; under `LASZIP` the mean of the Red and
Green deltas, truncated toward zero, takes the delta's place (42_color_context.md R232). -/
def blueBasis (p : Profile) (d : Int) (newG lastG lastB : Byte) : Byte :=
  match p with
  | .doc => clamp (d + (lastB.toNat : Int))
  | .laszip => clamp ((d + delta newG lastG).tdiv 2 + (lastB.toNat : Int))

/-- The correction symbol of a new half against its basis: `fold(new - basis)`. -/
def correction (new basis : Byte) : Byte := fold (delta new basis)

/-- The half a correction symbol stands for: `fold(symbol + basis)`. -/
def uncorrect (k basis : Byte) : Byte := fold ((k.toNat : Int) + (basis.toNat : Int))

/-! ### Encoding -/

/-- One symbol if `on`, else none. -/
def symbolIf (on : Bool) (σ : Slot) (k : Byte) : List (Slot × Byte) := if on then [(σ, k)] else []

/-- The Green and Blue corrections of mask `m` in wire order: bits 2, 3, 4, 5 under `DOC`
(42_color_context.md R220, R228), bits 2, 4, 3, 5 under `LASZIP` (R232). -/
def chromaSymbols (pr : Profile) (m : Byte) (l p : Rgb) : List (Slot × Byte) :=
  let dl := delta (lo8 p.r) (lo8 l.r)
  let dh := delta (hi8 p.r) (hi8 l.r)
  let gl := symbolIf (m.getLsbD 2) 3 (correction (lo8 p.g) (greenBasis dl (lo8 l.g)))
  let gh := symbolIf (m.getLsbD 3) 4 (correction (hi8 p.g) (greenBasis dh (hi8 l.g)))
  let bl := symbolIf (m.getLsbD 4) 5 (correction (lo8 p.b) (blueBasis pr dl (lo8 p.g) (lo8 l.g) (lo8 l.b)))
  let bh := symbolIf (m.getLsbD 5) 6 (correction (hi8 p.b) (blueBasis pr dh (hi8 p.g) (hi8 l.g) (hi8 l.b)))
  match pr with
  | .doc => gl ++ gh ++ bl ++ bh
  | .laszip => gl ++ bl ++ gh ++ bh

/-- Every symbol `WRITE_RGB` codes for the new point `p` after the last point `l`, in wire order: the mask,
the Red corrections, and with bit 6 the Green and Blue ones (42_color_context.md R214, R220). -/
def rgbSymbols (pr : Profile) (l p : Rgb) : List (Slot × Byte) :=
  let m := colorMask l p
  (0, m) :: symbolIf (m.getLsbD 0) 1 (correction (lo8 p.r) (lo8 l.r))
    ++ symbolIf (m.getLsbD 1) 2 (correction (hi8 p.r) (hi8 l.r))
    ++ (if m.getLsbD 6 then chromaSymbols pr m l p else [])

/-! ### Decoding -/

/-- One half of a decoded point: if its mask bit is set, decode a symbol and add its basis; else the last
half stays (42_color_context.md R226). -/
def decodeHalf (c e : Idx) (on : Bool) (σ : Slot) (basis last : Byte) (s : State) :
    Attempt (Byte × State) :=
  if on then do
    let (k, s) ← decodeSymbol c e σ s
    .ok (uncorrect k basis, s)
  else .ok (last, s)

/-- Green and Blue of a point whose mask has bit 6 set, in the profile's wire order
(42_color_context.md R226, R232). -/
def decodeChroma (c e : Idx) (pr : Profile) (m : Byte) (l : Rgb) (r : Half) (s : State) :
    Attempt (Rgb × State) :=
  let dl := delta (lo8 r) (lo8 l.r)
  let dh := delta (hi8 r) (hi8 l.r)
  match pr with
  | .doc => do
    let (gl, s) ← decodeHalf c e (m.getLsbD 2) 3 (greenBasis dl (lo8 l.g)) (lo8 l.g) s
    let (gh, s) ← decodeHalf c e (m.getLsbD 3) 4 (greenBasis dh (hi8 l.g)) (hi8 l.g) s
    let (bl, s) ← decodeHalf c e (m.getLsbD 4) 5 (blueBasis .doc dl gl (lo8 l.g) (lo8 l.b)) (lo8 l.b) s
    let (bh, s) ← decodeHalf c e (m.getLsbD 5) 6 (blueBasis .doc dh gh (hi8 l.g) (hi8 l.b)) (hi8 l.b) s
    .ok (⟨r, join gh gl, join bh bl⟩, s)
  | .laszip => do
    let (gl, s) ← decodeHalf c e (m.getLsbD 2) 3 (greenBasis dl (lo8 l.g)) (lo8 l.g) s
    let (bl, s) ← decodeHalf c e (m.getLsbD 4) 5 (blueBasis .laszip dl gl (lo8 l.g) (lo8 l.b)) (lo8 l.b) s
    let (gh, s) ← decodeHalf c e (m.getLsbD 3) 4 (greenBasis dh (hi8 l.g)) (hi8 l.g) s
    let (bh, s) ← decodeHalf c e (m.getLsbD 5) 6 (blueBasis .laszip dh gh (hi8 l.g) (hi8 l.b)) (hi8 l.b) s
    .ok (⟨r, join gh gl, join bh bl⟩, s)

/-- The symbols of one point decoded: the mask, the point and the state (42_color_context.md R226). With
bit 6 clear, Green and Blue equal Red (R215). -/
def decodeRgb (c e : Idx) (pr : Profile) (l : Rgb) (s : State) : Attempt (Byte × Rgb × State) := do
  let (m, s) ← decodeSymbol c e 0 s
  let (rl, s) ← decodeHalf c e (m.getLsbD 0) 1 (lo8 l.r) (lo8 l.r) s
  let (rh, s) ← decodeHalf c e (m.getLsbD 1) 2 (hi8 l.r) (hi8 l.r) s
  let r := join rh rl
  if m.getLsbD 6 then do
    let (p, s) ← decodeChroma c e pr m l r s
    .ok (m, p, s)
  else .ok (m, ⟨r, r, r⟩, s)

/-! ### Commands -/

/-- The slots every context has, then the slots a COLOR_NIR context adds (10_state.md R52). -/
def slotsOf : Kind → List Slot
  | .color => [0, 1, 2, 3, 4, 5, 6]
  | .colorNir => [0, 1, 2, 3, 4, 5, 6, 7, 8, 9]

/-- What `INIT_POINT` leaves of a context (42_color_context.md R212, 43_nir_context.md R250). -/
def seedContext (p : Profile) (k : Kind) (rgb : Rgb) (nir : Half) (x : Context) : Context :=
  let y := (slotsOf k).foldl (initModel p) x
  { y with
    lastR := rgb.r
    lastG := rgb.g
    lastB := rgb.b
    lastN := match k with
      | .color => x.lastN
      | .colorNir => nir
    unused := false
    phase := .seeded }

/-- `INIT_POINT c` (42_color_context.md R212). -/
def execInitPoint (c : Idx) (s : State) : Host.Outcome State Fault Refusal :=
  finish s do
    require (ctxValid s.build c) .indexRange
    .ok (s.setCtx c (seedContext s.build.profile (s.build.kind c) (argRgb s) (argNir s) (s.ctx c)))

/-- `WRITE_RGB c, e` (42_color_context.md R220, R232). -/
def execWriteRgb (c e : Idx) (s : State) : Host.Outcome State Fault Refusal :=
  finish s do
    require (ctxValid s.build c && engValid s.build e) .indexRange
    requireInit s c
    requireMode s e .enc
    let syms := rgbSymbols s.build.profile (s.lastRgb c) (argRgb s)
    let t ← encodeAll c e syms s
    .ok { t.streamRgb c (argRgb s) with
      res0 := res0Point syms.length (colorMask (s.lastRgb c) (argRgb s)) }

/-- `READ_RGB c, e` (42_color_context.md R226, R232). -/
def execReadRgb (c e : Idx) (s : State) : Host.Outcome State Fault Refusal :=
  finish s do
    require (ctxValid s.build c && engValid s.build e) .indexRange
    requireInit s c
    requireMode s e .dec
    let (m, p, t) ← decodeRgb c e s.build.profile (s.lastRgb c) s
    .ok { t.streamRgb c p with
      resR := p.r, resG := p.g, resB := p.b, res0 := res0Point (rgbCount m) m }

end Sys2Proof.Machine
end

