-- ==== Sys2Proof/Machine/Nir.lean ====
section
/-! DEFINITION. The near-infrared commands of a COLOR_NIR context (43_nir_context.md). NIR is predicted from
its own history alone (R253). The profile enters through the size of slot 7 only (R262). -/

namespace Sys2Proof.Machine

/-- Every symbol `WRITE_NIR` codes, in order (43_nir_context.md R252). -/
def nirSymbols (l v : Half) : List (Slot × Byte) :=
  let m := nirMask l v
  (7, m) :: symbolIf (m.getLsbD 0) 8 (correction (lo8 v) (lo8 l))
    ++ symbolIf (m.getLsbD 1) 9 (correction (hi8 v) (hi8 l))

/-- The symbols of one NIR value decoded: the mask, the value and the state (43_nir_context.md R256). -/
def decodeNir (c e : Idx) (l : Half) (s : State) : Attempt (Byte × Half × State) := do
  let (m, s) ← decodeSymbol c e 7 s
  let (vl, s) ← decodeHalf c e (m.getLsbD 0) 8 (lo8 l) (lo8 l) s
  let (vh, s) ← decodeHalf c e (m.getLsbD 1) 9 (hi8 l) (hi8 l) s
  .ok (m, join vh vl, s)

/-- `WRITE_NIR c, e` (43_nir_context.md R252). -/
def execWriteNir (c e : Idx) (s : State) : Host.Outcome State Fault Refusal :=
  finish s do
    require (ctxValid s.build c && engValid s.build e) .indexRange
    requireNir s c
    requireInit s c
    requireMode s e .enc
    let syms := nirSymbols (s.ctx c).lastN (argNir s)
    let t ← encodeAll c e syms s
    .ok { t.streamNir c (argNir s) with
      res0 := res0Point syms.length (nirMask (s.ctx c).lastN (argNir s)) }

/-- `READ_NIR c, e` (43_nir_context.md R256). -/
def execReadNir (c e : Idx) (s : State) : Host.Outcome State Fault Refusal :=
  finish s do
    require (ctxValid s.build c && engValid s.build e) .indexRange
    requireNir s c
    requireInit s c
    requireMode s e .dec
    let (m, v, t) ← decodeNir c e (s.ctx c).lastN s
    .ok { t.streamNir c v with resN := v, res0 := res0Point (nirCount m) m }

end Sys2Proof.Machine
end

