-- ==== Sys2Proof/Machine/System.lean ====
section
/-! DEFINITION. `NOP` (44_system.md R270). -/

namespace Sys2Proof.Machine

/-- `NOP`: no operation (44_system.md R270). -/
def execNop (s : State) : Host.Outcome State Fault Refusal := finish s (.ok s)

end Sys2Proof.Machine
end

