-- ==== Sys2Proof/Machine/Dispatch.lean ====
section
/-! DEFINITION. One arm per command. -/

namespace Sys2Proof.Machine

def exec (i : Instr) (s : State) : Host.Outcome State Fault Refusal :=
  match i with
  | .nop => Sys2Proof.Machine.execNop s
  | .encInit e => Sys2Proof.Machine.execEncInit e s
  | .encDone e => Sys2Proof.Machine.execEncDone e s
  | .decInit e => Sys2Proof.Machine.execDecInit e s
  | .decDone e => Sys2Proof.Machine.execDecDone e s
  | .initPoint c => Sys2Proof.Machine.execInitPoint c s
  | .writeRgb c e => Sys2Proof.Machine.execWriteRgb c e s
  | .readRgb c e => Sys2Proof.Machine.execReadRgb c e s
  | .writeNir c e => Sys2Proof.Machine.execWriteNir c e s
  | .readNir c e => Sys2Proof.Machine.execReadNir c e s
  | .modelInit c j => Sys2Proof.Machine.execModelInit c j s
  | .encSymbol c j e k => Sys2Proof.Machine.execEncSymbol c j e k s
  | .decSymbol c j e => Sys2Proof.Machine.execDecSymbol c j e s

end Sys2Proof.Machine
end

