-- ==== Sys2Proof/Machine/HostAccess.lean ====
section
/-! DEFINITION. What the host does to the block: the register map (20_memory.md R92), issuing and
re-attempting a command (44_system.md R271, 20_memory.md R87), the host actions on the stream buffers
(44_system.md R272 to R274), register reads (10_state.md section 2) and reset (70_reset_and_hazards.md
R330). -/

namespace Sys2Proof.Machine

/-! ### The register map -/

/-- The registers of one engine (20_memory.md R92). -/
inductive EngReg where
  | engStat
  | outLen
  | outIdx
  | outData
  | inPush
  | inCtrl
  | inLen
  | inPtr
  | dbgBase
  | dbgLength
  | dbgValue
deriving DecidableEq, Repr

/-- The registers of one context slot (20_memory.md R92). -/
inductive CtxReg where
  | ctxStat
  | lastR
  | lastG
  | lastB
  | lastN
deriving DecidableEq, Repr

/-- The host-visible registers (10_state.md R40). -/
inductive Reg where
  | id
  | config
  | cmd
  | status
  | errInfo
  | errData
  | res0
  | argR
  | argG
  | argB
  | argN
  | resR
  | resG
  | resB
  | resN
  | dbgSel
  | dbgCount
  | dbgDist
  | dbgTotal
  | dbgCycle
  | dbgUntil
  | dbgNsym
  | eng (e : Idx) (r : EngReg)
  | ctx (c : Idx) (r : CtxReg)
deriving DecidableEq, Repr

/-- Offsets 0x000 to 0x0FF (20_memory.md R92). -/
def blockRegAt (off : Nat) : Option Reg :=
  match off with
  | 0x000 => some .id
  | 0x004 => some .config
  | 0x008 => some .cmd
  | 0x00C => some .status
  | 0x010 => some .errInfo
  | 0x014 => some .errData
  | 0x018 => some .res0
  | 0x020 => some .argR
  | 0x024 => some .argG
  | 0x028 => some .argB
  | 0x02C => some .argN
  | 0x030 => some .resR
  | 0x034 => some .resG
  | 0x038 => some .resB
  | 0x03C => some .resN
  | 0x040 => some .dbgSel
  | 0x044 => some .dbgCount
  | 0x048 => some .dbgDist
  | 0x04C => some .dbgTotal
  | 0x050 => some .dbgCycle
  | 0x054 => some .dbgUntil
  | 0x058 => some .dbgNsym
  | _ => none

/-- Offsets within one engine block (20_memory.md R92). -/
def engRegAt (off : Nat) : Option EngReg :=
  match off with
  | 0x00 => some .engStat
  | 0x04 => some .outLen
  | 0x08 => some .outIdx
  | 0x0C => some .outData
  | 0x10 => some .inPush
  | 0x14 => some .inCtrl
  | 0x18 => some .inLen
  | 0x1C => some .inPtr
  | 0x20 => some .dbgBase
  | 0x24 => some .dbgLength
  | 0x28 => some .dbgValue
  | _ => none

/-- Offsets within one context block (20_memory.md R92). -/
def ctxRegAt (off : Nat) : Option CtxReg :=
  match off with
  | 0x00 => some .ctxStat
  | 0x04 => some .lastR
  | 0x08 => some .lastG
  | 0x0C => some .lastB
  | 0x10 => some .lastN
  | _ => none

/-- The register at a byte offset, `none` where the offset is reserved (20_memory.md R92): the blocks of
engines and contexts the build does not have are reserved. -/
def regAt (b : Build) (off : BitVec 12) : Option Reg :=
  let o := off.toNat
  if o < 0x100 then blockRegAt o
  else if o < 0x500 then
    let e := BitVec.ofNat 4 ((o - 0x100) / 0x40)
    if engValid b e then (engRegAt ((o - 0x100) % 0x40)).map (.eng e) else none
  else if o < 0x800 then none
  else if o < 0xA00 then
    let c := BitVec.ofNat 4 ((o - 0x800) / 0x20)
    if ctxValid b c then (ctxRegAt ((o - 0x800) % 0x20)).map (.ctx c) else none
  else none

/-! ### Register reads: no side effect (20_memory.md R91) -/

/-- `DBG_SEL.CTX`, bits [3:0] (10_state.md R50). -/
def dbgCtx (s : State) : Idx := s.dbgSel.extractLsb' 0 4

/-- `DBG_SEL.SLOT`, bits [7:4] (10_state.md R50). -/
def dbgSlot (s : State) : Idx := s.dbgSel.extractLsb' 4 4

/-- `DBG_SEL.INDEX`, bits [15:8] (10_state.md R50). -/
def dbgIndex (s : State) : Byte := s.dbgSel.extractLsb' 8 8

/-- The slot the debug registers show, `none` where they read 0 (10_state.md R51). -/
def dbgShown (s : State) : Option Slot :=
  if ctxValid s.build (dbgCtx s) && (s.ctx (dbgCtx s)).phase != .uninit then
    slotOf s.build (dbgCtx s) (dbgSlot s)
  else none

/-- A debug register (10_state.md R51): `f n k m` of the shown model, or 0. -/
def dbgRead (s : State) (f : Nat → Nat → Model → Word) : Word :=
  match dbgShown s with
  | some σ => f (slotSyms s.build.profile σ) (dbgIndex s).toNat (s.model (dbgCtx s) σ)
  | none => 0

/-- The registers of an engine (10_state.md R61); the write-only ones read 0 (20_memory.md R95). -/
def readEng (g : Engine) : EngReg → Word
  | .engStat => engStatWord g
  | .outLen => BitVec.ofNat 32 g.out.length
  | .outIdx => g.outIdx
  | .outData => (g.out.getD g.outIdx.toNat 0).setWidth 32
  | .inPush => 0
  | .inCtrl => 0
  | .inLen => BitVec.ofNat 32 g.input.length
  | .inPtr => g.inPtr
  | .dbgBase => g.base
  | .dbgLength => g.length
  | .dbgValue => g.value

/-- The registers of a context slot (10_state.md R62). -/
def readCtx (k : Kind) (x : Context) : CtxReg → Word
  | .ctxStat => ctxStatWord k x
  | .lastR => x.lastR.setWidth 32
  | .lastG => x.lastG.setWidth 32
  | .lastB => x.lastB.setWidth 32
  | .lastN =>
    match k with
    | .color => 0
    | .colorNir => x.lastN.setWidth 32

/-- The value of a register (10_state.md section 2). -/
def readReg (s : State) : Reg → Word
  | .id => 0x41434501
  | .config => configWord s.build
  | .cmd => s.cmd
  | .status => statusWord s.build s.held.isSome s.err s.errBits (fun e => (s.eng e).underrun)
  | .errInfo => errInfoWord s.errFirst s.errLast s.errCount
  | .errData => s.errData
  | .res0 => s.res0
  | .argR => s.argR.setWidth 32
  | .argG => s.argG.setWidth 32
  | .argB => s.argB.setWidth 32
  | .argN => s.argN.setWidth 32
  | .resR => s.resR.setWidth 32
  | .resG => s.resG.setWidth 32
  | .resB => s.resB.setWidth 32
  | .resN => s.resN.setWidth 32
  | .dbgSel => s.dbgSel.setWidth 32
  | .dbgCount => dbgRead s fun n k m => if k < n then m.countAt k else 0
  | .dbgDist => dbgRead s fun n k m => if k < n then m.distAt k else 0
  | .dbgTotal => dbgRead s fun _ _ m => m.total
  | .dbgCycle => dbgRead s fun _ _ m => m.cycle
  | .dbgUntil => dbgRead s fun _ _ m => m.untilUpdate
  | .dbgNsym => dbgRead s fun n _ _ => BitVec.ofNat 32 n
  | .eng e r => readEng (s.eng e) r
  | .ctx c r => readCtx (s.build.kind c) (s.ctx c) r

/-! ### Issuing and re-attempting a command -/

/-- The error a decoder's rejection records (30_encoding.md R116). -/
def decodeErrCode : DecodeError → ErrCode
  | .illegalOp => .illegalOp
  | .reservedField => .reservedField

/-- Decode a word and run it on the state as it stands (44_system.md R271). -/
def runWord (w : Word) (s : State) : Host.Outcome State Fault Refusal :=
  match decode w with
  | .ok i => exec i s
  | .error x => finish s (.error (.error (decodeErrCode x)))

/-- A write of `w` to `CMD` (44_system.md R271); while a command is held it is refused
(60_exceptions.md R303). -/
def issue (w : Word) (s : State) : Host.Outcome State Fault Refusal :=
  match s.held with
  | some _ => .next (recordError .cmdWhileBusy w s)
  | none => runWord w { s with cmd := w }

/-- The re-attempt of a held command, from its beginning, after an `IN_PUSH` or `IN_CTRL`
(20_memory.md R87). -/
def reattempt (s : State) : Host.Outcome State Fault Refusal :=
  match s.held with
  | some h => runWord h.word s
  | none => .next s

/-! ### Register writes -/

/-- The buffer part of an `IN_PUSH[e]` write (44_system.md R272); `off` is its offset. -/
def pushByte (e : Idx) (off : BitVec 12) (v : Word) (s : State) : State :=
  let full := match s.build.inCapOf e with
    | none => false
    | some n => decide (n ≤ (s.eng e).input.length)
  if full then recordError .inOverflow (off.setWidth 32) s
  else s.setEng e { s.eng e with input := (s.eng e).input ++ [v.extractLsb' 0 8] }

/-- The buffer part of an `IN_CTRL[e]` write (44_system.md R273): CLEAR (bit 1) acts before SET_EOS
(bit 0). -/
def controlInput (v : Word) (g : Engine) : Engine :=
  let g := if v.getLsbD 1 then { g with input := [], inPtr := 0, eos := false } else g
  if v.getLsbD 0 then { g with eos := true } else g

/-- A proper write of `v` to the register `r` at offset `off` (20_memory.md R91, R95). -/
def writeReg (r : Reg) (off : BitVec 12) (v : Word) (s : State) : Host.Outcome State Fault Refusal :=
  match r with
  | .cmd => issue v s
  | .argR => .next { s with argR := v.extractLsb' 0 16 }
  | .argG => .next { s with argG := v.extractLsb' 0 16 }
  | .argB => .next { s with argB := v.extractLsb' 0 16 }
  | .argN => .next { s with argN := v.extractLsb' 0 16 }
  | .dbgSel => .next { s with dbgSel := v.extractLsb' 0 16 }
  | .eng e .outIdx => .next (s.setEng e { s.eng e with outIdx := v })
  | .eng e .inPush => reattempt (pushByte e off v s)
  | .eng e .inCtrl => reattempt (s.setEng e (controlInput v (s.eng e)))
  | _ => .next (recordError .hostAccess (off.setWidth 32) s)

/-! ### Accesses -/

/-- A proper access is 32 bits wide at a multiple of 4 (20_memory.md R90). -/
def properAccess (off : BitVec 12) (width : Width) : Bool :=
  width == .w32 && off.extractLsb' 0 2 == 0#2

/-- What a proper read at an offset returns (20_memory.md R92, R93). -/
def readAt (s : State) (off : BitVec 12) : Word :=
  match regAt s.build off with
  | some r => readReg s r
  | none => 0

/-- A host read: the value returned is kept in `readData` (log entry 2); an improper read returns 0 and
records `HOST_ACCESS` (20_memory.md R90). -/
def hostRead (off : BitVec 12) (width : Width) (s : State) : State :=
  if properAccess off width then { s with readData := readAt s off }
  else recordError .hostAccess (off.setWidth 32) { s with readData := 0 }

/-- A host write: improper, reserved and read-only writes are ignored and record `HOST_ACCESS`
(20_memory.md R90, R93, R95). -/
def hostWrite (off : BitVec 12) (width : Width) (v : Word) (s : State) :
    Host.Outcome State Fault Refusal :=
  if properAccess off width then
    match regAt s.build off with
    | some r => writeReg r off v s
    | none => .next (recordError .hostAccess (off.setWidth 32) s)
  else .next (recordError .hostAccess (off.setWidth 32) s)

/-- An engine when the reset input is asserted: as after power-on, but that the `EOS_DRAW` bytes it will
still draw are new ones (log entry 12). -/
def resetEngine (g : Engine) : Engine := { Engine.reset with draws := g.draws }

/-- The reset input (70_reset_and_hazards.md R330, R331). The model's own fields, what the host has yet to do
and has last read, are not the block's and stay (log entry 12). -/
def resetBlock (s : State) : State :=
  { State.resetOf s.build with
    engs := s.engs.map resetEngine
    pending := s.pending
    readData := s.readData }

/-- The host-bus address of a byte offset: the register space starts at `ACE_BASE` (20_memory.md R94). -/
def busAddr (b : Build) (off : BitVec 12) : Nat := b.aceBase + off.toNat

/-- The byte offset a host-bus address stands for, `none` where the address lies outside the 4 KiB of the
register space (20_memory.md R80, R94). -/
def offsetAt (b : Build) (addr : Nat) : Option (BitVec 12) :=
  if b.aceBase ≤ addr ∧ addr < b.aceBase + 0x1000 then some (BitVec.ofNat 12 (addr - b.aceBase)) else none

/-- One host access (20_memory.md R97). An access outside the block's register space is not the block's and
leaves it as it is (log entry 11). -/
def perform (a : Access) (s : State) : Host.Outcome State Fault Refusal :=
  match a with
  | .read addr width =>
    match offsetAt s.build addr with
    | some off => .next (hostRead off width s)
    | none => .next s
  | .write addr width v =>
    match offsetAt s.build addr with
    | some off => hostWrite off width v s
    | none => .next s
  | .reset => .next (resetBlock s)

/-- The offset of `CMD` (20_memory.md R92). -/
def cmdOffset : BitVec 12 := 0x008

end Sys2Proof.Machine
end

