-- ==== Sys2Proof/Machine/Step.lean ====
section
/-! DEFINITION. One step: the host's next access (10_state.md R31, 20_memory.md R97). ACE fetches nothing
(20_memory.md R100): its next command is whatever the host writes next to `CMD`. -/

namespace Sys2Proof.Machine

/-- One step performs the first pending host access; with none pending the block is idle with all state
retained (60_exceptions.md R317). -/
def step (s : State) : Host.Outcome State Fault Refusal :=
  match s.pending with
  | [] => .next s
  | a :: rest => perform a { s with pending := rest }

/-- `s` with the command word `w` (its low `nbits` bits) as the very next thing the host writes to `CMD`,
and no command held, so that the next step issues it (log entry 1). -/
def State.withFetchWord (s : State) (nbits w : Nat) : State :=
  { s with
    pending := .write (busAddr s.build cmdOffset) .w32 (tableWord nbits w) :: s.pending
    held := none }

end Sys2Proof.Machine
end

