-- ==== Sys2Proof/Machine/Assembler.lean ====
section
/-! DEFINITION. The spec's assembler syntax (30_encoding.md R118, R119): how a command is written, and which
host accesses the host-action words and the one pseudo-instruction stand for. -/

namespace Sys2Proof.Machine

/-- A decimal index with the letter of its kind. -/
def asmIndex (letter : String) (i : Idx) : String := letter ++ toString i.toNat

/-- A command as the assembler writes it (30_encoding.md R118). -/
def assembly : Instr → String
  | .nop => "NOP"
  | .encInit e => "ENC_INIT " ++ asmIndex "e" e
  | .encDone e => "ENC_DONE " ++ asmIndex "e" e
  | .decInit e => "DEC_INIT " ++ asmIndex "e" e
  | .decDone e => "DEC_DONE " ++ asmIndex "e" e
  | .initPoint c => "INIT_POINT " ++ asmIndex "c" c
  | .writeRgb c e => "WRITE_RGB " ++ asmIndex "c" c ++ ", " ++ asmIndex "e" e
  | .readRgb c e => "READ_RGB " ++ asmIndex "c" c ++ ", " ++ asmIndex "e" e
  | .writeNir c e => "WRITE_NIR " ++ asmIndex "c" c ++ ", " ++ asmIndex "e" e
  | .readNir c e => "READ_NIR " ++ asmIndex "c" c ++ ", " ++ asmIndex "e" e
  | .modelInit c s => "MODEL_INIT " ++ asmIndex "c" c ++ ", " ++ asmIndex "s" s
  | .encSymbol c s e k =>
    "ENC_SYMBOL " ++ asmIndex "c" c ++ ", " ++ asmIndex "s" s ++ ", " ++ asmIndex "e" e ++ ", "
      ++ toString k.toNat
  | .decSymbol c s e =>
    "DEC_SYMBOL " ++ asmIndex "c" c ++ ", " ++ asmIndex "s" s ++ ", " ++ asmIndex "e" e

/-- `wr <REG>, <v>` at a byte offset, in a build: one proper 32-bit write. -/
def asmWrite (b : Build) (off : BitVec 12) (v : Word) : Access := .write (busAddr b off) .w32 v

/-- `rd <REG>` at a byte offset, in a build: one proper 32-bit read. -/
def asmRead (b : Build) (off : BitVec 12) : Access := .read (busAddr b off) .w32

/-- The offset of register `r` (an offset within the block) of engine `e` (20_memory.md R92). -/
def engOffset (e : Idx) (r : BitVec 12) : BitVec 12 := 0x100 + 0x40 * e.setWidth 12 + r

/-- The offset of register `r` (an offset within the block) of context `c` (20_memory.md R92). -/
def ctxOffset (c : Idx) (r : BitVec 12) : BitVec 12 := 0x800 + 0x20 * c.setWidth 12 + r

/-- A command line: its word written to `CMD`. -/
def asmCommand (b : Build) (i : Instr) : Access := asmWrite b cmdOffset (encode i)

/-- `push e<e>, <b>` is `wr IN_PUSH[e], <b>`. -/
def asmPush (b : Build) (e : Idx) (k : Byte) : Access := asmWrite b (engOffset e 0x10) (k.setWidth 32)

/-- `eos e<e>` is `wr IN_CTRL[e], 0x1`. -/
def asmEos (b : Build) (e : Idx) : Access := asmWrite b (engOffset e 0x14) 1

/-- `clear e<e>` is `wr IN_CTRL[e], 0x2`. -/
def asmClear (b : Build) (e : Idx) : Access := asmWrite b (engOffset e 0x14) 2

/-- One round of `wait`: a read of `STATUS`, which the host repeats until BUSY is 0. -/
def asmPoll (b : Build) : Access := asmRead b 0x00C

/-- `ARGS r, g, b[, n]` (30_encoding.md R119). -/
def asmArgs (bd : Build) (r g b : Half) (n : Option Half) : List Access :=
  [asmWrite bd 0x020 (r.setWidth 32), asmWrite bd 0x024 (g.setWidth 32),
    asmWrite bd 0x028 (b.setWidth 32)]
    ++ match n with
      | some v => [asmWrite bd 0x02C (v.setWidth 32)]
      | none => []

end Sys2Proof.Machine
end

