-- ==== Sys2Proof/Machine/Lut.lean ====
section
/-! DEFINITION. The decoder look-up table of 40_model.md R148: an accelerator with no architectural effect.
No command uses it; it stands here so that a statement can say that it finds what the full search of
41_coder.md R188 finds. -/

namespace Sys2Proof.Machine

/-- `tb` of R148 for a model of `n` symbols: 5 for 128, 6 for 256. -/
def lutBits (n : Nat) : Nat := if n ≤ 32 then 3 else if n ≤ 64 then 4 else if n ≤ 128 then 5 else 6

/-- `size` of R148. -/
def lutSize (n : Nat) : Nat := 2 ^ lutBits n

/-- `shift` of R148. -/
def lutShift (n : Nat) : Nat := 15 - lutBits n

/-- The loop over `k` of R148: `lut` holds entries `0..s`; entries up to `dist[k] >> shift` are filled with
`k - 1`. -/
def lutFill (shift : Nat) : Nat → List Word → List Nat → List Nat
  | _, [], lut => lut
  | k, d :: ds, lut =>
    lutFill shift (k + 1) ds (lut ++ List.replicate ((d >>> shift).toNat - (lut.length - 1)) (k - 1))

/-- The table of R148, entries `0..size+1`. -/
def buildLut (n : Nat) (m : Model) : List Nat :=
  let lut := lutFill (lutShift n) 0 m.dist [0]
  lut ++ List.replicate (lutSize n + 1 - (lut.length - 1)) (n - 1)

/-- Bisection on `dist[j] <= dv` in `[lo, hi)`, at most `fuel` halvings (R148). -/
def bisect (m : Model) (dv : Word) : Nat → Nat → Nat → Nat
  | 0, lo, _ => lo
  | fuel + 1, lo, hi =>
    if hi ≤ lo + 1 then lo
    else if m.distAt ((lo + hi) / 2) ≤ dv then bisect m dv fuel ((lo + hi) / 2) hi
    else bisect m dv fuel lo ((lo + hi) / 2)

/-- The accelerated search of R148: the table where `t <= size`, the full search elsewhere. -/
def lutSearch (n : Nat) (m : Model) (lq v : Word) : Nat :=
  let dv := v / lq
  let t := (dv >>> lutShift n).toNat
  let lut := buildLut n m
  if t ≤ lutSize n then bisect m dv n (lut.getD t 0) (lut.getD (t + 1) 0 + 1)
  else findSymbol m lq v (n - 1)

end Sys2Proof.Machine
end

