-- ==== Sys2Proof/WellFormed.lean ====
section
/-! DEFINITION. When a command's indices name something the build has (30_encoding.md R113). Every value
of an operand field can be written in a command word, so this is the one check an instruction term can
fail; the machine raises `INDEX_RANGE` exactly on the terms refused here. -/

namespace Sys2Proof

/-- Context slot `c` exists: `c < NUM_CTX`. -/
def Build.hasCtx (b : Build) (c : Idx) : Bool := decide (c.toNat < b.numCtx)

/-- Engine `e` exists: `e < NUM_ENG`. -/
def Build.hasEng (b : Build) (e : Idx) : Bool := decide (e.toNat < b.numEng)

/-- Model slot `s` exists for `CTX_KIND[c]`: 0 to 6 for COLOR, 0 to 9 for COLOR_NIR
(10_state.md R52). -/
def Build.hasSlot (b : Build) (c s : Idx) : Bool :=
  match b.kind c with
  | .color => decide (s.toNat ≤ 6)
  | .colorNir => decide (s.toNat ≤ 9)

/-- Index validity of a command in a build (30_encoding.md R113): each index its row uses is in range. -/
def Instr.wellFormed (b : Build) : Instr → Bool
  | .nop => true
  | .encInit e => b.hasEng e
  | .encDone e => b.hasEng e
  | .decInit e => b.hasEng e
  | .decDone e => b.hasEng e
  | .initPoint c => b.hasCtx c
  | .writeRgb c e => b.hasCtx c && b.hasEng e
  | .readRgb c e => b.hasCtx c && b.hasEng e
  | .writeNir c e => b.hasCtx c && b.hasEng e
  | .readNir c e => b.hasCtx c && b.hasEng e
  | .modelInit c s => b.hasCtx c && b.hasSlot c s
  | .encSymbol c s e _ => b.hasCtx c && b.hasEng e && b.hasSlot c s
  | .decSymbol c s e => b.hasCtx c && b.hasEng e && b.hasSlot c s

end Sys2Proof
end

