-- ==== Sys2Proof/Safety.lean ====
section
/-! DEFINITION. What counts as a sound state and a safe step, and the words the statements use: the number
an output buffer stands for, what a command names, the first error a command meets, and whole symbol
sequences. None of it is used by the machine. -/

namespace Sys2Proof.Machine

/-! ### Numbers -/

/-- The number a byte sequence represents, first byte most significant (20_memory.md R81, R85). -/
def bytesValue (bs : List Byte) : Nat := bs.foldl (fun v b => 256 * v + b.toNat) 0

/-- The sum of the counts as integers. -/
def countTotal (cs : List Word) : Nat := (cs.map BitVec.toNat).sum

/-- The low end of an encoder's interval, its emitted bytes included: the carry of 20_memory.md R85 is an
addition to this number. -/
def Engine.lowEnd (g : Engine) : Nat := bytesValue g.out * 2 ^ 32 + g.base.toNat

/-- The next input byte but `i` of a decoder. -/
def Engine.inputAt (g : Engine) (i : Nat) : Byte := g.input.getD (g.inPtr.toNat + i) 0

/-! ### Sound states -/

/-- An allocated model slot of `n` symbols (10_state.md R66, 40_model.md R146). -/
structure Model.Ok (n : Nat) (m : Model) : Prop where
  countLength : m.count.length = n
  distLength : m.dist.length = n
  countPos : ∀ x ∈ m.count, 1 ≤ x.toNat
  distZero : m.distAt 0 = 0
  distIncreasing : ∀ k, k + 1 < n → m.distAt k < m.distAt (k + 1)
  distBelow : ∀ k, k < n → (m.distAt k).toNat < 2 ^ 15
  totalLe : m.total.toNat ≤ 2 ^ 15
  untilPos : 1 ≤ m.untilUpdate.toNat
  untilLe : m.untilUpdate.toNat ≤ m.cycle.toNat
  cycleLe : m.cycle.toNat ≤ (n + 6) * 8
  countSum : countTotal m.count + m.untilUpdate.toNat = m.total.toNat + m.cycle.toNat

/-- An engine that is encoding: its interval has not underflowed (10_state.md R67) and the carry has room,
so that `INTERNAL_CARRY` is unreachable (20_memory.md R85). -/
structure Engine.EncOk (g : Engine) : Prop where
  lengthGe : acMinLength ≤ g.length
  room : g.lowEnd + g.length.toNat ≤ 2 ^ 32 * 256 ^ g.out.length

/-- A sound engine with its capacities (10_state.md R60, R67; 20_memory.md R86, R103). -/
structure Engine.Ok (outCap inCap : Option Nat) (g : Engine) : Prop where
  encOk : g.mode = .enc → g.EncOk
  decLength : g.mode = .dec → acMinLength ≤ g.length
  inPtrLe : g.inPtr.toNat ≤ g.input.length
  outFits : ∀ n, outCap = some n → g.out.length ≤ n
  inFits : ∀ n, inCap = some n → g.input.length ≤ n

/-- Every model slot a context of this kind has is sound. -/
def Context.ModelsOk (p : Profile) (k : Kind) (x : Context) : Prop :=
  ∀ σ : Slot, σ.val < slotCount k → (x.model σ).Ok (slotSyms p σ)

/-- A sound context slot (10_state.md R53, R55, R66). -/
structure Context.Ok (p : Profile) (k : Kind) (x : Context) : Prop where
  models : x.phase ≠ .uninit → x.ModelsOk p k
  unusedIff : x.unused = true ↔ x.phase = .uninit

/-- The decoder commands, the only ones that can hold (20_memory.md R98). -/
def mayHold : Instr → Bool
  | .decInit _ => true
  | .readRgb _ _ => true
  | .readNir _ _ => true
  | .decSymbol _ _ _ => true
  | .nop => false
  | .encInit _ => false
  | .encDone _ => false
  | .decDone _ => false
  | .initPoint _ => false
  | .writeRgb _ _ => false
  | .writeNir _ _ => false
  | .modelInit _ _ => false
  | .encSymbol _ _ _ _ => false

/-- A held command is the decoder command in `CMD` (60_exceptions.md R304, 20_memory.md R98). -/
def State.HeldOk (s : State) : Prop :=
  ∀ h, s.held = some h → h.word = s.cmd ∧ ∃ i, decode h.word = .ok i ∧ mayHold i = true

/-- A sound error record (10_state.md R44 to R46, 60_exceptions.md R300, R306), in which `INTERNAL_CARRY`
(code 9) was never recorded (20_memory.md R85). -/
structure State.ErrorsOk (s : State) : Prop where
  clean : s.errCount = 0 →
    s.err = false ∧ s.errBits = 0 ∧ s.errFirst = 0 ∧ s.errLast = 0 ∧ s.errData = 0
  recorded : s.errCount ≠ 0 → s.err = true
  firstCode : s.errCount ≠ 0 →
    1 ≤ s.errFirst.toNat ∧ s.errFirst.toNat ≤ 12 ∧ s.errBits.getLsbD (s.errFirst.toNat - 1) = true
  lastCode : s.errCount ≠ 0 →
    1 ≤ s.errLast.toNat ∧ s.errLast.toNat ≤ 12 ∧ s.errBits.getLsbD (s.errLast.toNat - 1) = true
  noInternalCarry : s.errBits.getLsbD 8 = false

/-- The invariant of the machine. -/
structure State.Inv (s : State) : Prop where
  ctxOk : ∀ c, (s.ctx c).Ok s.build.profile (s.build.kind c)
  engOk : ∀ e, (s.eng e).Ok (s.build.outCapOf e) (s.build.inCapOf e)
  heldOk : s.HeldOk
  errorsOk : s.ErrorsOk

/-! ### What a command names -/

/-- The engine a command names (30_encoding.md R114). -/
def engineOf : Instr → Option Idx
  | .nop => none
  | .encInit e => some e
  | .encDone e => some e
  | .decInit e => some e
  | .decDone e => some e
  | .initPoint _ => none
  | .writeRgb _ e => some e
  | .readRgb _ e => some e
  | .writeNir _ e => some e
  | .readNir _ e => some e
  | .modelInit _ _ => none
  | .encSymbol _ _ e _ => some e
  | .decSymbol _ _ e => some e

/-- The context slot a command names (30_encoding.md R114). -/
def contextOf : Instr → Option Idx
  | .nop => none
  | .encInit _ => none
  | .encDone _ => none
  | .decInit _ => none
  | .decDone _ => none
  | .initPoint c => some c
  | .writeRgb c _ => some c
  | .readRgb c _ => some c
  | .writeNir c _ => some c
  | .readNir c _ => some c
  | .modelInit c _ => some c
  | .encSymbol c _ _ _ => some c
  | .decSymbol c _ _ => some c

/-- The commands that write `RES0` (10_state.md R47). -/
def writesRes0 : Instr → Bool
  | .writeRgb _ _ => true
  | .readRgb _ _ => true
  | .writeNir _ _ => true
  | .readNir _ _ => true
  | .decSymbol _ _ _ => true
  | .nop => false
  | .encInit _ => false
  | .encDone _ => false
  | .decInit _ => false
  | .decDone _ => false
  | .initPoint _ => false
  | .modelInit _ _ => false
  | .encSymbol _ _ _ _ => false

/-- The kind a command needs its context to have (60_exceptions.md R300 code 4). -/
def needsNir : Instr → Bool
  | .writeNir _ _ => true
  | .readNir _ _ => true
  | .nop => false
  | .encInit _ => false
  | .encDone _ => false
  | .decInit _ => false
  | .decDone _ => false
  | .initPoint _ => false
  | .writeRgb _ _ => false
  | .readRgb _ _ => false
  | .modelInit _ _ => false
  | .encSymbol _ _ _ _ => false
  | .decSymbol _ _ _ => false

/-- The mode a command needs its engine to be in (41_coder.md R173). -/
def needsMode : Instr → Option Mode
  | .nop => none
  | .encInit _ => none
  | .encDone _ => some .enc
  | .decInit _ => none
  | .decDone _ => some .dec
  | .initPoint _ => none
  | .writeRgb _ _ => some .enc
  | .readRgb _ _ => some .dec
  | .writeNir _ _ => some .enc
  | .readNir _ _ => some .dec
  | .modelInit _ _ => none
  | .encSymbol _ _ _ _ => some .enc
  | .decSymbol _ _ _ => some .dec

/-- Whether a command needs its context initialised (60_exceptions.md R300 code 5). -/
def needsInit : Instr → Bool
  | .nop => false
  | .encInit _ => false
  | .encDone _ => false
  | .decInit _ => false
  | .decDone _ => false
  | .initPoint _ => false
  | .writeRgb _ _ => true
  | .readRgb _ _ => true
  | .writeNir _ _ => true
  | .readNir _ _ => true
  | .modelInit _ _ => true
  | .encSymbol _ _ _ _ => true
  | .decSymbol _ _ _ => true

/-- The symbol of `ENC_SYMBOL` is outside its slot's alphabet (30_encoding.md R117). -/
def symbolOutside (p : Profile) : Instr → Bool
  | .encSymbol _ s _ k => decide (s.toNat < 10 ∧ slotSyms p (Fin.ofNat 10 s.toNat) ≤ k.toNat)
  | .nop => false
  | .encInit _ => false
  | .encDone _ => false
  | .decInit _ => false
  | .decDone _ => false
  | .initPoint _ => false
  | .writeRgb _ _ => false
  | .readRgb _ _ => false
  | .writeNir _ _ => false
  | .readNir _ _ => false
  | .modelInit _ _ => false
  | .decSymbol _ _ _ => false

/-- The context a command names has kind COLOR (60_exceptions.md R300 code 4). -/
def namesColor (b : Build) (i : Instr) : Bool :=
  match contextOf i with
  | some c => b.kind c == .color
  | none => false

/-- The context a command names is UNINIT. -/
def namesUninit (s : State) (i : Instr) : Bool :=
  match contextOf i with
  | some c => (s.ctx c).phase == .uninit
  | none => false

/-- The engine a command names is in another mode than the command needs. -/
def namesWrongMode (s : State) (i : Instr) : Bool :=
  match engineOf i, needsMode i with
  | some e, some m => (s.eng e).mode != m
  | _, _ => false

/-- The first of the checks 3 to 7 of 60_exceptions.md R302 that a command fails. -/
def firstError (i : Instr) (s : State) : Option ErrCode :=
  if i.wellFormed s.build = false then some .indexRange
  else if needsNir i && namesColor s.build i then some .kindMismatch
  else if needsInit i && namesUninit s i then some .ctxUninit
  else if namesWrongMode s i then some .engMode
  else if symbolOutside s.build.profile i then some .symbolRange
  else none

/-- What recording error `x` for the command being run leaves: the record and nothing else
(60_exceptions.md R305, R306). -/
def errorState (x : ErrCode) (s : State) : State :=
  recordError x (commandWord s) { s with held := none }

/-! ### Symbol sequences -/

/-- A sequence of `EncodeSymbol(e, c_i, σ_i, k_i)` on engine `e` (41_coder.md R195). -/
def encodeSeq (e : Idx) : List (Idx × Slot × Byte) → State → Attempt State
  | [], s => .ok s
  | (c, σ, k) :: rest, s => do
    let s ← encodeSymbol c e σ k s
    encodeSeq e rest s

/-- A sequence of `DecodeSymbol(e, c_i, σ_i)` on engine `e`, with the symbols found (41_coder.md R195). -/
def decodeSeq (e : Idx) : List (Idx × Slot) → State → Attempt (List Byte × State)
  | [], s => .ok ([], s)
  | (c, σ) :: rest, s => do
    let (k, s) ← decodeSymbol c e σ s
    let (ks, s) ← decodeSeq e rest s
    .ok (k :: ks, s)

/-- The engine after `ENC_INIT` (41_coder.md R172). -/
def startEncoder (g : Engine) : Engine :=
  { g with base := 0, length := acMaxLength, out := [], outIdx := 0, mode := .enc }

/-- What `EncodeSymbol` of symbol `k` makes of an encoder `g` whose interval it narrows to width `w` from
`x` above its low end, when `r` bytes are emitted (41_coder.md R180, R182; 20_memory.md R85): the number
low end + `x`, carries included, and the width are scaled by `256 ^ r`, and `r` is the least number of
bytes that brings the width back to `AC_MIN_LENGTH`. -/
structure EncodedTo (g : Engine) (x w : Word) (r : Nat) (g' : Engine) : Prop where
  onlyCoder : g' = { g with base := g'.base, length := g'.length, out := g'.out }
  fewBytes : r ≤ 2
  outLength : g'.out.length = g.out.length + r
  lowEnd : g'.lowEnd = (g.lowEnd + x.toNat) * 256 ^ r
  width : g'.length.toNat = w.toNat * 256 ^ r
  widthGe : acMinLength ≤ g'.length
  least : r ≠ 0 → w.toNat * 256 ^ (r - 1) < acMinLength.toNat

/-- What `DecodeSymbol` makes of a decoder `g` whose interval it narrows to width `w` from `x`, when it
needs `r` bytes (41_coder.md R188, R191; 20_memory.md R86). Bytes past a marked end are free values, so
`value` is fixed only where the input has all `r`. -/
structure DecodedTo (g : Engine) (x w : Word) (r : Nat) (g' : Engine) : Prop where
  onlyCoder : g' = { g with value := g'.value, length := g'.length, inPtr := g'.inPtr,
                            underrun := g'.underrun, draws := g'.draws }
  fewBytes : r ≤ 2
  inPtr : g'.inPtr.toNat = min (g.inPtr.toNat + r) g.input.length
  underrun : g'.underrun = (g.underrun || decide (g.input.length < g.inPtr.toNat + r))
  value : g.inPtr.toNat + r ≤ g.input.length →
    g'.value = BitVec.ofNat 32 ((g.value - x).toNat * 256 ^ r
      + bytesValue ((g.input.drop g.inPtr.toNat).take r))
  width : g'.length.toNat = w.toNat * 256 ^ r
  widthGe : acMinLength ≤ g'.length
  least : r ≠ 0 → w.toNat * 256 ^ (r - 1) < acMinLength.toNat

/-- The input of engine `g` serves every read of up to `n` more bytes: it holds them, or its end is marked
(20_memory.md R86). Lists of 2^32 bytes or more are left out: `in_ptr` is 32 bits wide (log entry 9). -/
structure Engine.Serves (g : Engine) (n : Nat) : Prop where
  ptrLe : g.inPtr.toNat ≤ g.input.length
  short : g.input.length < 2 ^ 32
  enough : g.eos = true ∨ g.inPtr.toNat + n ≤ g.input.length

/-- The output buffer of `g` has room for `n` more bytes (20_memory.md R84, R103). -/
def Engine.HasRoom (g : Engine) (cap : Option Nat) (n : Nat) : Prop :=
  ∀ m, cap = some m → g.out.length + n ≤ m

/-- `t` differs from `s` at most in engine `e`, where only the coder's own fields differ, in the models of
context `c` whose slot satisfies `P`, and nowhere else. -/
structure OnlyCoded (c e : Idx) (P : Slot → Prop) (s t : State) : Prop where
  registers : t = { s with engs := t.engs, ctxs := t.ctxs }
  engines : ∀ e', e' ≠ e → t.eng e' = s.eng e'
  contexts : ∀ c', c' ≠ c → t.ctx c' = s.ctx c'
  context : t.ctx c = { s.ctx c with models := (t.ctx c).models }
  models : ∀ σ, ¬ P σ → t.model c σ = s.model c σ

/-- An encoder's fields that no symbol changes. -/
def EncoderFrame (g g' : Engine) : Prop :=
  g' = { g with base := g'.base, length := g'.length, out := g'.out }

/-- A decoder's fields that no symbol changes. -/
def DecoderFrame (g g' : Engine) : Prop :=
  g' = { g with value := g'.value, length := g'.length, inPtr := g'.inPtr, underrun := g'.underrun,
                draws := g'.draws }

/-- Two states agree in all that the NIR commands of context `c` and engine `e` use or write
(43_nir_context.md R260). -/
structure SameNir (c e : Idx) (s t : State) : Prop where
  profile : s.build.profile = t.build.profile
  outCap : s.build.outCapOf e = t.build.outCapOf e
  engine : s.eng e = t.eng e
  lastN : (s.ctx c).lastN = (t.ctx c).lastN
  models : ∀ σ : Slot, 7 ≤ σ.val → s.model c σ = t.model c σ
  argN : argNir s = argNir t
  res0 : s.res0 = t.res0
  resN : s.resN = t.resN

/-- Two states agree in all that the colour commands of context `c` and engine `e` use or write
(43_nir_context.md R260). -/
structure SameColour (c e : Idx) (s t : State) : Prop where
  profile : s.build.profile = t.build.profile
  outCap : s.build.outCapOf e = t.build.outCapOf e
  engine : s.eng e = t.eng e
  last : s.lastRgb c = t.lastRgb c
  models : ∀ σ : Slot, σ.val < 7 → s.model c σ = t.model c σ
  arg : argRgb s = argRgb t
  res0 : s.res0 = t.res0
  resR : s.resR = t.resR
  resG : s.resG = t.resG
  resB : s.resB = t.resB

/-- `ctx[c].phase <- STREAMING` and nothing else. -/
def State.asStreaming (s : State) (c : Idx) : State :=
  s.setCtx c { s.ctx c with phase := .streaming }

/-- `s` in the same build but for unbounded output buffers (00_scope.md R15): what an encoding command would
emit if every byte fitted. -/
def State.unbounded (s : State) : State :=
  { s with build := { s.build with outCap := Vector.replicate 16 none } }

/-- `s` with the end of engine `e`'s input marked and nothing yet missed: a command that has `underrun` set from
here needs a byte that `s` does not hold (20_memory.md R86). -/
def State.markedEnd (s : State) (e : Idx) : State :=
  s.setEng e { s.eng e with eos := true, underrun := false }

/-- The registers whose access is RO in 20_memory.md R92. -/
def readOnly : Reg → Bool
  | .cmd => false
  | .argR => false
  | .argG => false
  | .argB => false
  | .argN => false
  | .dbgSel => false
  | .eng _ .outIdx => false
  | .eng _ .inPush => false
  | .eng _ .inCtrl => false
  | _ => true

end Sys2Proof.Machine
end

