-- ==== Sys2Proof/Certificates/Slice0/Obligations.lean ====
section
/-! DEFINITION. The statements for the provers. Each docstring names the rule of spec/ it formalises. -/

open Sys2Proof Sys2Proof.Machine

/-! ### Encoding -/

/-- 30_encoding.md R110, R114, R116: every command, with every operand, is decoded from its word. -/
def Obligations.DecodeOfEncode : Prop := ∀ i : Instr, decode (encode i) = .ok i

/-- 30_encoding.md R110 to R112: a word that decodes is the one word of its command. -/
def Obligations.EncodeOfDecode : Prop := ∀ (w : Word) (i : Instr), decode w = .ok i → encode i = w

/-- 30_encoding.md R115: a word spells an opcode iff it equals the opcode's match under its mask. -/
def Obligations.WordSpellsOpcodeUnderMask : Prop :=
  ∀ (i : Instr) (w : Word),
    (∃ j, decode w = .ok j ∧ rowOf j = rowOf i) ↔ w &&& (rowOf i).2 = (rowOf i).1

/-- 30_encoding.md R120: the worked encodings, and one word of each other command, written from R110 and R114
as R120's are. -/
def Obligations.WorkedEncodingsDecode : Prop :=
  decode 0x00000011 = .ok (.writeRgb 0 0)
  ∧ decode 0x00001013 = .ok (.writeNir 0 1)
  ∧ decode 0x02A10021 = .ok (.encSymbol 0 1 0 0x2A)
  ∧ decode 0x00070020 = .ok (.modelInit 0 7)
  ∧ decode 0x00001022 = .ok (.decSymbol 0 0 1)
  ∧ decode 0x00001001 = .ok (.encInit 1)
  ∧ decode 0x00000000 = .ok .nop
  ∧ decode 0x00001002 = .ok (.encDone 1)
  ∧ decode 0x00001003 = .ok (.decInit 1)
  ∧ decode 0x00001004 = .ok (.decDone 1)
  ∧ decode 0x00000110 = .ok (.initPoint 1)
  ∧ decode 0x00002112 = .ok (.readRgb 1 2)
  ∧ decode 0x00001014 = .ok (.readNir 0 1)

/-- 30_encoding.md R116 steps 1 and 2: a word written to `CMD` whose opcode is unassigned is `ILLEGAL_OP`; an
assigned opcode with a nonzero reserved bit or unused field is `RESERVED_FIELD`; the error is recorded with
the word as info and nothing runs. -/
def Obligations.UndecodableWordsAreNamedErrors : Prop :=
  (∀ w : Word, decode w = .error .illegalOp ↔
    (fieldOp w).toNat ∉ [0x00, 0x01, 0x02, 0x03, 0x04, 0x10, 0x11, 0x12, 0x13, 0x14, 0x20, 0x21, 0x22])
  ∧ (∀ (i : Instr) (w : Word), fieldOp w = fieldOp (encode i) →
      w &&& (rowOf i).2 ≠ (rowOf i).1 → decode w = .error .reservedField)
  ∧ ∀ (s : State) (w : Word) (rest : List Access) (x : DecodeError),
      s.pending = .write (busAddr s.build cmdOffset) .w32 w :: rest → s.held = none → decode w = .error x →
      step s = .next (recordError (match x with
        | .illegalOp => .illegalOp
        | .reservedField => .reservedField) w { s with pending := rest, cmd := w })

/-! ### The step -/

/-- 44_system.md R271, 10_state.md R31, R43: a command word the host writes to `CMD` while nothing is held
is latched in `CMD` and the command it decodes to is run on the state as it stands. That the host's accesses
stand in `pending` and that a step performs the first is the model's form (log entry 1). -/
def Obligations.StepRunsDecodedCommand : Prop :=
  ∀ (s : State) (w : Word) (rest : List Access) (i : Instr),
    s.pending = .write (busAddr s.build cmdOffset) .w32 w :: rest → s.held = none → decode w = .ok i →
      step s = exec i { s with pending := rest, cmd := w }

/-- 60_exceptions.md R303: while a command is held, a word written to `CMD` is refused. -/
def Obligations.CommandWhileBusyIsRefused : Prop :=
  ∀ (s : State) (h : Held) (w : Word) (rest : List Access),
    s.pending = .write (busAddr s.build cmdOffset) .w32 w :: rest → s.held = some h →
      ∃ t, step s = .next t ∧ t = recordError .cmdWhileBusy w { s with pending := rest }
        ∧ t.cmd = s.cmd ∧ t.held = some h ∧ (readReg t .status).getLsbD 0 = true
        ∧ t.engs = s.engs ∧ t.ctxs = s.ctxs

/-- 70_reset_and_hazards.md R330: what a host reads from every register after reset, for every build, and the
state behind it; the reset input discards a held command and leaves the same (an engine's count of free
bytes drawn is the model's own and goes on: log entry 12; that the model slots, which R330 leaves unspecified,
are again as after power-on is the model's choice: log entry 4). -/
def Obligations.ResetLeavesTheStatedValues : Prop :=
  (∀ (b : Build) (r : Reg), readReg (State.resetOf b) r =
      match r with
      | .id => 0x41434501
      | .config => configWord b
      | .ctx c .ctxStat =>
        match b.kind c with
        | .color => 0x4
        | .colorNir => 0xC
      | _ => 0)
  ∧ (∀ b : Build, (State.resetOf b).held = none ∧ (∀ e, (State.resetOf b).eng e = Engine.reset)
      ∧ ∀ c, ((State.resetOf b).ctx c).phase = .uninit ∧ ((State.resetOf b).ctx c).unused = true
        ∧ (State.resetOf b).lastRgb c = ⟨0, 0, 0⟩ ∧ ((State.resetOf b).ctx c).lastN = 0)
  ∧ State.reset = State.resetOf Build.standard
  ∧ ∀ (s : State) (rest : List Access), s.pending = .reset :: rest →
      ∃ t, step s = .next t ∧ t.held = none ∧ (∀ r, readReg t r = readReg (State.resetOf s.build) r)
        ∧ t.ctxs = (State.resetOf s.build).ctxs ∧ (∀ e, { t.eng e with draws := 0 } = Engine.reset)
        ∧ t.pending = rest

/-! ### The adaptive model -/

/-- 40_model.md R142: the state after `ModelInit` for the three alphabet sizes. -/
def Obligations.FreshModelIsUniform : Prop :=
  (∀ k < 128, (Model.fresh 128).countAt k = 1 ∧ ((Model.fresh 128).distAt k).toNat = 256 * k)
  ∧ (∀ k < 256, (Model.fresh 256).countAt k = 1 ∧ ((Model.fresh 256).distAt k).toNat = 128 * k)
  ∧ (∀ k < 4, (Model.fresh 4).countAt k = 1 ∧ ((Model.fresh 4).distAt k).toNat = 8192 * k)
  ∧ (Model.fresh 128).total = 128 ∧ (Model.fresh 256).total = 256 ∧ (Model.fresh 4).total = 4
  ∧ (Model.fresh 128).cycle = 67 ∧ (Model.fresh 256).cycle = 131 ∧ (Model.fresh 4).cycle = 5
  ∧ (Model.fresh 128).untilUpdate = 67 ∧ (Model.fresh 256).untilUpdate = 131
  ∧ (Model.fresh 4).untilUpdate = 5

/-- 40_model.md R143: adapting counts the symbol and counts down; before the end of a period it leaves all else,
and at the end it is the update (R144) of the model so counted. -/
def Obligations.AdaptCountsTheSymbol : Prop :=
  ∀ (n : Nat) (m : Model) (k : Nat),
    (m.untilUpdate ≠ 1 → Model.adapt n m k = { m with
      count := m.count.set k (m.countAt k + 1)
      untilUpdate := m.untilUpdate - 1 })
    ∧ (m.untilUpdate = 1 → Model.adapt n m k = Model.update n { m with
      count := m.count.set k (m.countAt k + 1)
      untilUpdate := 0 })

/-- 40_model.md R144, R145: the update, in integers. With `total + cycle` the sum of the counts, the counts
are halved, rounding up, exactly when that sum exceeds `2^15`, the total is the sum of the counts that
remain, entry `k` of the table is `(2^31 / total) * (sum of the counts before k) / 2^16`, and the period
grows by 5/4 up to `8 * (n + 6)`. -/
def Obligations.UpdateRecomputesTheTable : Prop :=
  ∀ (n : Nat) (m : Model), n ≤ 256 → 1 ≤ countTotal m.count → countTotal m.count ≤ 2 ^ 20 →
    m.total.toNat + m.cycle.toNat = countTotal m.count →
    (countTotal m.count ≤ 2 ^ 15 → (Model.update n m).count = m.count)
    ∧ (2 ^ 15 < countTotal m.count →
        (Model.update n m).count.map BitVec.toNat = m.count.map fun x : Word => (x.toNat + 1) / 2)
    ∧ (Model.update n m).total.toNat = countTotal (Model.update n m).count
    ∧ (Model.update n m).dist.length = m.count.length
    ∧ (∀ k < m.count.length,
        ((Model.update n m).distAt k).toNat
          = (2 ^ 31 / countTotal (Model.update n m).count)
              * countTotal ((Model.update n m).count.take k) / 2 ^ 16)
    ∧ (Model.update n m).cycle.toNat = min (5 * m.cycle.toNat / 4) (8 * (n + 6))
    ∧ (Model.update n m).untilUpdate = (Model.update n m).cycle

/-- 40_model.md R146, 10_state.md R66: the invariants of an allocated model survive every adaptation. -/
def Obligations.AdaptKeepsModelInvariant : Prop :=
  ∀ (n : Nat) (m : Model) (k : Nat), 1 ≤ n → n ≤ 256 → k < n → m.Ok n → (Model.adapt n m k).Ok n

/-- 40_model.md R150: `MODEL_INIT` makes one slot uniform and changes nothing else. -/
def Obligations.ModelInitResetsOneSlot : Prop :=
  ∀ (s : State) (c : Idx) (σ : Slot), s.held = none → s.build.hasCtx c = true →
    σ.val < slotCount (s.build.kind c) → (s.ctx c).phase ≠ .uninit →
    ∃ t, exec (.modelInit c (BitVec.ofNat 4 σ.val)) s = .next t
      ∧ t.model c σ = Model.fresh (slotSyms s.build.profile σ)
      ∧ (∀ τ, τ ≠ σ → t.model c τ = s.model c τ)
      ∧ t.ctx c = { s.ctx c with models := (t.ctx c).models }
      ∧ (∀ c', c' ≠ c → t.ctx c' = s.ctx c')
      ∧ t = { s with ctxs := t.ctxs }

/-- 40_model.md R148: on a sound model of a table's size, with `value < length`, the look-up table finds the
symbol of the full search. -/
def Obligations.LookupTableFindsTheSymbol : Prop :=
  ∀ (n : Nat) (m : Model) (g : Engine), n = 128 ∨ n = 256 → m.Ok n → acMinLength ≤ g.length →
    g.value < g.length →
    lutSearch n m (quotLength g) g.value = findSymbol m (quotLength g) g.value (n - 1)

/-! ### The streams -/

/-- 20_memory.md R84: `StreamAppend`. -/
def Obligations.StreamAppendAtCapacityOverflows : Prop :=
  ∀ (b : Byte) (g : Engine),
    streamAppend none b g = .ok { g with out := g.out ++ [b] }
    ∧ (∀ n, g.out.length = n → streamAppend (some n) b g = .error (.error .outOverflow))
    ∧ (∀ n, g.out.length < n → streamAppend (some n) b g = .ok { g with out := g.out ++ [b] })

/-- 20_memory.md R85: `StreamCarry` adds one to the number the output represents, and fails exactly when
every byte is `0xFF`. -/
def Obligations.StreamCarryAddsOne : Prop :=
  ∀ g : Engine,
    ((∀ b ∈ g.out, b = 0xFF) → streamCarry g = .error (.error .internalCarry))
    ∧ ((∃ b ∈ g.out, b ≠ 0xFF) → ∃ bs, streamCarry g = .ok { g with out := bs }
        ∧ bs.length = g.out.length ∧ bytesValue bs = bytesValue g.out + 1)

/-- 20_memory.md R86: `StreamRead`. The byte past a marked end is whatever `EOS_DRAW` gives; the count of such
bytes, `draws`, is the model's own (log entry 5). -/
def Obligations.StreamReadTakesHoldsOrDraws : Prop :=
  ∀ (e : Idx) (g : Engine),
    (∀ b, g.input[g.inPtr.toNat]? = some b → streamRead e g = .ok (b, { g with inPtr := g.inPtr + 1 }))
    ∧ (g.input.length ≤ g.inPtr.toNat → g.eos = false → streamRead e g = .error .hold)
    ∧ (g.input.length ≤ g.inPtr.toNat → g.eos = true →
        ∃ b, streamRead e g = .ok (b, { g with underrun := true, draws := g.draws + 1 }))

/-! ### The coder -/

/-- 41_coder.md R172: `ENC_INIT` starts a new stream from any mode and leaves the input side and `value`. -/
def Obligations.EncInitStartsAnEncoder : Prop :=
  ∀ (s : State) (e : Idx), s.held = none → s.build.hasEng e = true →
    ∃ t, exec (.encInit e) s = .next t
      ∧ t.eng e = { s.eng e with base := 0, length := 0xFFFFFFFF, out := [], outIdx := 0, mode := .enc }
      ∧ (∀ e', e' ≠ e → t.eng e' = s.eng e')
      ∧ t = { s with engs := t.engs }

/-- 41_coder.md R181: for a sound model and interval no product wraps, the new width is at least
`length >> 15`, which is at least `2^9`, the last symbol keeps the remainder, and two shifts by a byte are
enough to renormalise. -/
def Obligations.NarrowingStaysNonEmpty : Prop :=
  ∀ (n : Nat) (m : Model) (g : Engine) (k : Nat), 1 ≤ n → k < n → m.Ok n → acMinLength ≤ g.length →
    2 ^ 9 ≤ (quotLength g).toNat ∧ (quotLength g).toNat ≤ 0x1FFFF
    ∧ (∀ j < n, (m.distAt j * quotLength g).toNat = (m.distAt j).toNat * (quotLength g).toNat)
    ∧ (k + 1 < n → (narrowLength n m k g (m.distAt k * quotLength g)).toNat
        = ((m.distAt (k + 1)).toNat - (m.distAt k).toNat) * (quotLength g).toNat)
    ∧ (k + 1 = n → (narrowLength n m k g (m.distAt k * quotLength g)).toNat
        = (2 ^ 15 - (m.distAt k).toNat) * (quotLength g).toNat
            + (g.length.toNat - 2 ^ 15 * (quotLength g).toNat))
    ∧ (quotLength g).toNat ≤ (narrowLength n m k g (m.distAt k * quotLength g)).toNat
    ∧ acMinLength.toNat ≤ (narrowLength n m k g (m.distAt k * quotLength g)).toNat * 256 ^ 2

/-- 41_coder.md R180, R182: `ENC_SYMBOL` on a sound encoder with room: it narrows the interval to the
symbol's share, emits at most two bytes with every carry made, adapts the slot, and touches nothing
else. -/
def Obligations.EncSymbolNarrowsEmitsAdapts : Prop :=
  ∀ (s : State) (c e : Idx) (σ : Slot) (k : Byte), s.held = none →
    s.build.hasCtx c = true → s.build.hasEng e = true → σ.val < slotCount (s.build.kind c) →
    (s.ctx c).phase ≠ .uninit → (s.eng e).mode = .enc → k.toNat < slotSyms s.build.profile σ →
    (s.model c σ).Ok (slotSyms s.build.profile σ) → (s.eng e).EncOk →
    (s.eng e).HasRoom (s.build.outCapOf e) 2 →
    ∃ t r, exec (.encSymbol c (BitVec.ofNat 4 σ.val) e k) s = .next t
      ∧ EncodedTo (s.eng e) ((s.model c σ).distAt k.toNat * ((s.eng e).length >>> 15))
          (if k.toNat = slotSyms s.build.profile σ - 1
            then (s.eng e).length - (s.model c σ).distAt k.toNat * ((s.eng e).length >>> 15)
            else (s.model c σ).distAt (k.toNat + 1) * ((s.eng e).length >>> 15)
              - (s.model c σ).distAt k.toNat * ((s.eng e).length >>> 15))
          r (t.eng e)
      ∧ t.model c σ = Model.adapt (slotSyms s.build.profile σ) (s.model c σ) k.toNat
      ∧ OnlyCoded c e (· = σ) s t

/-- 41_coder.md R183, R184: `ENC_DONE` on a sound encoder with room: the low end is moved up by `2^24` or
`2^23` as the interval's width allows, carries included, cut to the bytes emitted, and followed by zeros:
four bytes in all; the engine is idle. -/
def Obligations.EncDoneFlushesFourBytes : Prop :=
  ∀ (s : State) (e : Idx), s.held = none → s.build.hasEng e = true → (s.eng e).mode = .enc →
    (s.eng e).EncOk → (s.eng e).HasRoom (s.build.outCapOf e) 4 →
    ∃ t, exec (.encDone e) s = .next t
      ∧ (t.eng e).out.length = (s.eng e).out.length + 4
      ∧ (0x02000000 < (s.eng e).length →
          bytesValue (t.eng e).out = ((s.eng e).lowEnd + 2 ^ 24) / 2 ^ 24 * 2 ^ 24
          ∧ (t.eng e).base = ((s.eng e).base + 0x01000000) <<< 8)
      ∧ ((s.eng e).length ≤ 0x02000000 →
          bytesValue (t.eng e).out = ((s.eng e).lowEnd + 2 ^ 23) / 2 ^ 16 * 2 ^ 16
          ∧ (t.eng e).base = ((s.eng e).base + 0x00800000) <<< 16)
      ∧ t.eng e = { s.eng e with
          base := (t.eng e).base, length := 0x80000000, out := (t.eng e).out, mode := .idle }
      ∧ (∀ e', e' ≠ e → t.eng e' = s.eng e')
      ∧ t = { s with engs := t.engs }

/-- 20_memory.md R103, 60_exceptions.md R305: an encoding command on a bounded buffer without room for its bytes
raises `OUT_OVERFLOW` and makes no write: `ENC_DONE` without room for four; `ENC_SYMBOL`, `WRITE_RGB` and
`WRITE_NIR` where the same symbols, coded with an unbounded buffer, fill it past the capacity. -/
def Obligations.EncDoneWithoutRoomOverflows : Prop :=
  (∀ (s : State) (e : Idx) (n : Nat), s.build.hasEng e = true → (s.eng e).mode = .enc →
    (s.eng e).EncOk → s.build.outCapOf e = some n → n < (s.eng e).out.length + 4 →
    exec (.encDone e) s = .next (errorState .outOverflow s))
  ∧ (∀ (s u : State) (c e : Idx) (σ : Slot) (k : Byte) (n : Nat), s.build.hasCtx c = true →
      s.build.hasEng e = true → σ.val < slotCount (s.build.kind c) → (s.ctx c).phase ≠ .uninit →
      (s.eng e).mode = .enc → k.toNat < slotSyms s.build.profile σ →
      s.build.outCapOf e = some n → (s.eng e).out.length ≤ n →
      encodeSymbol c e σ k s.unbounded = .ok u → n < (u.eng e).out.length →
      exec (.encSymbol c (BitVec.ofNat 4 σ.val) e k) s = .next (errorState .outOverflow s))
  ∧ (∀ (s u : State) (c e : Idx) (n : Nat), s.build.hasCtx c = true → s.build.hasEng e = true →
      (s.ctx c).phase ≠ .uninit → (s.eng e).mode = .enc →
      s.build.outCapOf e = some n → (s.eng e).out.length ≤ n →
      encodeAll c e (rgbSymbols s.build.profile (s.lastRgb c) (argRgb s)) s.unbounded = .ok u →
      n < (u.eng e).out.length →
      exec (.writeRgb c e) s = .next (errorState .outOverflow s))
  ∧ ∀ (s u : State) (c e : Idx) (n : Nat), s.build.hasCtx c = true → s.build.hasEng e = true →
      s.build.kind c = .colorNir → (s.ctx c).phase ≠ .uninit → (s.eng e).mode = .enc →
      s.build.outCapOf e = some n → (s.eng e).out.length ≤ n →
      encodeAll c e (nirSymbols (s.ctx c).lastN (argNir s)) s.unbounded = .ok u →
      n < (u.eng e).out.length →
      exec (.writeNir c e) s = .next (errorState .outOverflow s)

/-- 41_coder.md R186: `DEC_INIT` with four bytes at hand assembles them most significant byte first. -/
def Obligations.DecInitAssemblesFourBytes : Prop :=
  ∀ (s : State) (e : Idx), s.build.hasEng e = true →
    (s.eng e).inPtr.toNat + 4 ≤ (s.eng e).input.length → (s.eng e).inPtr.toNat + 4 < 2 ^ 32 →
    ∃ t, exec (.decInit e) s = .next t
      ∧ t.eng e = { s.eng e with
          value := (s.eng e).inputAt 0 ++ (s.eng e).inputAt 1 ++ (s.eng e).inputAt 2 ++ (s.eng e).inputAt 3
          length := 0xFFFFFFFF, mode := .dec, underrun := false, inPtr := (s.eng e).inPtr + 4 }
      ∧ (∀ e', e' ≠ e → t.eng e' = s.eng e')
      ∧ t = { s with engs := t.engs, held := none }

/-- 41_coder.md R186, 20_memory.md R86, R87: `DEC_INIT` without four bytes at hand: with the end unmarked it
holds and makes no write; with the end marked it completes with `underrun` set, whatever the missing bytes
are. -/
def Obligations.DecInitHoldsOrUnderruns : Prop :=
  ∀ (s : State) (e : Idx), s.build.hasEng e = true →
    (s.eng e).input.length < (s.eng e).inPtr.toNat + 4 →
    (s.eng e).inPtr.toNat ≤ (s.eng e).input.length → (s.eng e).input.length < 2 ^ 32 →
    ((s.eng e).eos = false → exec (.decInit e) s = .next { s with held := some (latchOf s) })
    ∧ ((s.eng e).eos = true → ∃ t, exec (.decInit e) s = .next t
        ∧ (t.eng e).underrun = true ∧ (t.eng e).mode = .dec ∧ (t.eng e).length = 0xFFFFFFFF
        ∧ (t.eng e).inPtr.toNat = (s.eng e).input.length
        ∧ (t.eng e).input = (s.eng e).input
        ∧ (∀ e', e' ≠ e → t.eng e' = s.eng e')
        ∧ t = { s with engs := t.engs, held := none })

/-- 41_coder.md R188, R191: `DEC_SYMBOL` on a sound model: the symbol is the largest whose start is not above
`value`, the interval is narrowed to it, at most two bytes are read, the slot adapts and `RES0` shows the
symbol. -/
def Obligations.DecSymbolFindsNarrowsAdapts : Prop :=
  ∀ (s : State) (c e : Idx) (σ : Slot), s.build.hasCtx c = true → s.build.hasEng e = true →
    σ.val < slotCount (s.build.kind c) → (s.ctx c).phase ≠ .uninit → (s.eng e).mode = .dec →
    (s.model c σ).Ok (slotSyms s.build.profile σ) → acMinLength ≤ (s.eng e).length →
    (s.eng e).Serves 2 →
    ∃ t u k r, exec (.decSymbol c (BitVec.ofNat 4 σ.val) e) s = .next t
      ∧ k < slotSyms s.build.profile σ
      ∧ (s.model c σ).distAt k * ((s.eng e).length >>> 15) ≤ (s.eng e).value
      ∧ (∀ j, k < j → j < slotSyms s.build.profile σ →
          (s.eng e).value < (s.model c σ).distAt j * ((s.eng e).length >>> 15))
      ∧ DecodedTo (s.eng e) ((s.model c σ).distAt k * ((s.eng e).length >>> 15))
          (if k = slotSyms s.build.profile σ - 1
            then (s.eng e).length - (s.model c σ).distAt k * ((s.eng e).length >>> 15)
            else (s.model c σ).distAt (k + 1) * ((s.eng e).length >>> 15)
              - (s.model c σ).distAt k * ((s.eng e).length >>> 15))
          r (u.eng e)
      ∧ u.model c σ = Model.adapt (slotSyms s.build.profile σ) (s.model c σ) k
      ∧ OnlyCoded c e (· = σ) s u
      ∧ t = { u with res0 := BitVec.ofNat 32 (0x1000 + k), held := none }

/-- 20_memory.md R87, 41_coder.md R188, 42_color_context.md R226, 43_nir_context.md R256: a decoding command that
needs a byte that is not there, the end unmarked, holds and makes no write: `DEC_SYMBOL` that must renormalise
with no byte left, or twice with one left; `DEC_SYMBOL`, `READ_RGB` and `READ_NIR` whenever the same decoding,
with the end marked, would underrun. -/
def Obligations.DecSymbolWithoutInputHolds : Prop :=
  (∀ (s : State) (c e : Idx) (σ : Slot) (k : Nat), s.build.hasCtx c = true → s.build.hasEng e = true →
    σ.val < slotCount (s.build.kind c) → (s.ctx c).phase ≠ .uninit → (s.eng e).mode = .dec →
    k = findSymbol (s.model c σ) (quotLength (s.eng e)) (s.eng e).value (slotSyms s.build.profile σ - 1) →
    narrowLength (slotSyms s.build.profile σ) (s.model c σ) k (s.eng e)
      ((s.model c σ).distAt k * quotLength (s.eng e)) < acMinLength →
    (s.eng e).input.length ≤ (s.eng e).inPtr.toNat → (s.eng e).eos = false →
    exec (.decSymbol c (BitVec.ofNat 4 σ.val) e) s = .next { s with held := some (latchOf s) })
  ∧ (∀ (s : State) (c e : Idx) (σ : Slot) (k : Nat), s.build.hasCtx c = true → s.build.hasEng e = true →
      σ.val < slotCount (s.build.kind c) → (s.ctx c).phase ≠ .uninit → (s.eng e).mode = .dec →
      k = findSymbol (s.model c σ) (quotLength (s.eng e)) (s.eng e).value (slotSyms s.build.profile σ - 1) →
      (narrowLength (slotSyms s.build.profile σ) (s.model c σ) k (s.eng e)
        ((s.model c σ).distAt k * quotLength (s.eng e))).toNat * 256 < acMinLength.toNat →
      (s.eng e).input.length ≤ (s.eng e).inPtr.toNat + 1 → (s.eng e).input.length < 2 ^ 32 →
      (s.eng e).eos = false →
      exec (.decSymbol c (BitVec.ofNat 4 σ.val) e) s = .next { s with held := some (latchOf s) })
  ∧ (∀ (s u : State) (c e : Idx) (σ : Slot) (k : Byte), s.build.hasCtx c = true → s.build.hasEng e = true →
      σ.val < slotCount (s.build.kind c) → (s.ctx c).phase ≠ .uninit → (s.eng e).mode = .dec →
      (s.eng e).eos = false → decodeSymbol c e σ (s.markedEnd e) = .ok (k, u) →
      (u.eng e).underrun = true →
      exec (.decSymbol c (BitVec.ofNat 4 σ.val) e) s = .next { s with held := some (latchOf s) })
  ∧ (∀ (s u : State) (c e : Idx) (m : Byte) (p : Rgb), s.build.hasCtx c = true → s.build.hasEng e = true →
      (s.ctx c).phase ≠ .uninit → (s.eng e).mode = .dec → (s.eng e).eos = false →
      decodeRgb c e s.build.profile (s.lastRgb c) (s.markedEnd e) = .ok (m, p, u) →
      (u.eng e).underrun = true →
      exec (.readRgb c e) s = .next { s with held := some (latchOf s) })
  ∧ ∀ (s u : State) (c e : Idx) (m : Byte) (v : Half), s.build.hasCtx c = true → s.build.hasEng e = true →
      s.build.kind c = .colorNir → (s.ctx c).phase ≠ .uninit → (s.eng e).mode = .dec →
      (s.eng e).eos = false →
      decodeNir c e (s.ctx c).lastN (s.markedEnd e) = .ok (m, v, u) → (u.eng e).underrun = true →
      exec (.readNir c e) s = .next { s with held := some (latchOf s) }

/-- 41_coder.md R194: `DEC_DONE` makes a decoding engine idle and changes nothing else. -/
def Obligations.DecDoneIdlesTheDecoder : Prop :=
  ∀ (s : State) (e : Idx), s.held = none → s.build.hasEng e = true → (s.eng e).mode = .dec →
    ∃ t, exec (.decDone e) s = .next t
      ∧ t.eng e = { s.eng e with mode := .idle }
      ∧ (∀ e', e' ≠ e → t.eng e' = s.eng e')
      ∧ t = { s with engs := t.engs }

/-- 41_coder.md R189: a decoder whose `value` lies in the interval the encoder gave symbol `k` finds `k`. -/
def Obligations.SearchFindsTheEncodedSymbol : Prop :=
  ∀ (n : Nat) (m : Model) (g : Engine) (k : Nat), 1 ≤ n → k < n → m.Ok n → acMinLength ≤ g.length →
    m.distAt k * quotLength g ≤ g.value →
    (g.value - m.distAt k * quotLength g).toNat
      < (narrowLength n m k g (m.distAt k * quotLength g)).toNat →
    findSymbol m (quotLength g) g.value (n - 1) = k

/-- 41_coder.md R195, R192, R170: the round trip. What engine `e` encodes through any sound model slots,
from `ENC_INIT` to `ENC_DONE`, engine `f` of any machine with the same models decodes symbol for symbol,
reading exactly the bytes written and leaving the same models. -/
def Obligations.CoderRoundTrip : Prop :=
  ∀ (s : State) (e : Idx) (syms : List (Idx × Slot × Byte)),
    s.build.outCapOf e = none →
    (∀ x ∈ syms, (s.model x.1 x.2.1).Ok (slotSyms s.build.profile x.2.1)
      ∧ x.2.2.toNat < slotSyms s.build.profile x.2.1) →
    ∃ t g, encodeSeq e syms (s.setEng e (startEncoder (s.eng e))) = .ok t
      ∧ flushWith (s.build.outCapOf e) (t.eng e) = .ok g
      ∧ ∀ (d : State) (f : Idx), d.ctxs = s.ctxs → d.build.profile = s.build.profile →
          (d.eng f).input = g.out → (d.eng f).inPtr = 0 → g.out.length < 2 ^ 32 →
          ∃ h u, startDecoder f (d.eng f) = .ok h
            ∧ decodeSeq f (syms.map fun x => (x.1, x.2.1)) (d.setEng f h)
                = .ok (syms.map fun x => x.2.2, u)
            ∧ u.ctxs = t.ctxs
            ∧ (u.eng f).inPtr.toNat = g.out.length

/-! ### The colour context -/

/-- 00_scope.md R21, R22, R23: halves rebuild their value; `fold` is the residue modulo 256; `clamp`
saturates. -/
def Obligations.HalvesFoldAndClamp : Prop :=
  (∀ v : Half, join (hi8 v) (lo8 v) = v)
  ∧ (∀ v : Half, (lo8 v).toNat = v.toNat % 256 ∧ (hi8 v).toNat = v.toNat / 256)
  ∧ (∀ x : Int, ((fold x).toNat : Int) = x % 256)
  ∧ (∀ x : Int, x < 0 → clamp x = 0)
  ∧ (∀ x : Int, 255 < x → clamp x = 255)
  ∧ ∀ x : Int, 0 ≤ x → x ≤ 255 → ((clamp x).toNat : Int) = x

/-- 42_color_context.md R210, R211, 43_nir_context.md R251: the change masks, bit by bit; bit 6 of the colour
mask is clear iff the new point is grey. -/
def Obligations.ChangeMaskBits : Prop :=
  (∀ l p : Rgb,
    (colorMask l p).getLsbD 0 = (lo8 l.r != lo8 p.r) ∧ (colorMask l p).getLsbD 1 = (hi8 l.r != hi8 p.r)
    ∧ (colorMask l p).getLsbD 2 = (lo8 l.g != lo8 p.g) ∧ (colorMask l p).getLsbD 3 = (hi8 l.g != hi8 p.g)
    ∧ (colorMask l p).getLsbD 4 = (lo8 l.b != lo8 p.b) ∧ (colorMask l p).getLsbD 5 = (hi8 l.b != hi8 p.b)
    ∧ ((colorMask l p).getLsbD 6 = false ↔ p.r = p.g ∧ p.g = p.b)
    ∧ (colorMask l p).toNat < 128)
  ∧ ∀ l v : Half,
    (nirMask l v).toNat = (if lo8 l = lo8 v then 0 else 1) + (if hi8 l = hi8 v then 0 else 2)

/-- 42_color_context.md R220, R213, R214, R228, R232: the symbols of a point in wire order: the mask, then one
correction for each set bit, those of Green and Blue only with bit 6. Under `DOC` in ascending bit order
with Red's delta in every basis; under `LASZIP` in the order 0, 1, 2, 4, 3, 5 with the mean of the Red and
Green deltas, truncated toward zero, in the Blue basis. -/
def Obligations.PointSymbolsInWireOrder : Prop :=
  ∀ l p : Rgb,
    let m := colorMask l p
    let dl : Int := (lo8 p.r).toNat - (lo8 l.r).toNat
    let dh : Int := (hi8 p.r).toNat - (hi8 l.r).toNat
    let el : Int := (dl + ((lo8 p.g).toNat - (lo8 l.g).toNat)).tdiv 2
    let eh : Int := (dh + ((hi8 p.g).toNat - (hi8 l.g).toNat)).tdiv 2
    let one := fun (on : Bool) (σ : Slot) (x : Int) => if on then [(σ, fold x)] else []
    let basis := fun (d : Int) (last : Byte) => ((clamp (d + last.toNat)).toNat : Int)
    rgbSymbols .doc l p =
      [((0 : Slot), m)]
      ++ one (m.getLsbD 0) 1 dl
      ++ one (m.getLsbD 1) 2 dh
      ++ one (m.getLsbD 6 && m.getLsbD 2) 3 ((lo8 p.g).toNat - basis dl (lo8 l.g))
      ++ one (m.getLsbD 6 && m.getLsbD 3) 4 ((hi8 p.g).toNat - basis dh (hi8 l.g))
      ++ one (m.getLsbD 6 && m.getLsbD 4) 5 ((lo8 p.b).toNat - basis dl (lo8 l.b))
      ++ one (m.getLsbD 6 && m.getLsbD 5) 6 ((hi8 p.b).toNat - basis dh (hi8 l.b))
    ∧ rgbSymbols .laszip l p =
      [((0 : Slot), m)]
      ++ one (m.getLsbD 0) 1 dl
      ++ one (m.getLsbD 1) 2 dh
      ++ one (m.getLsbD 6 && m.getLsbD 2) 3 ((lo8 p.g).toNat - basis dl (lo8 l.g))
      ++ one (m.getLsbD 6 && m.getLsbD 4) 5 ((lo8 p.b).toNat - basis el (lo8 l.b))
      ++ one (m.getLsbD 6 && m.getLsbD 3) 4 ((hi8 p.g).toNat - basis dh (hi8 l.g))
      ++ one (m.getLsbD 6 && m.getLsbD 5) 6 ((hi8 p.b).toNat - basis eh (hi8 l.b))

/-- 42_color_context.md R212, 43_nir_context.md R250: `INIT_POINT` makes every slot the context has uniform
and seeds its last point from the `ARG_*` registers; no engine and no other context is touched. -/
def Obligations.InitPointSeedsTheContext : Prop :=
  ∀ (s : State) (c : Idx), s.held = none → s.build.hasCtx c = true →
    ∃ t, exec (.initPoint c) s = .next t
      ∧ (∀ σ : Slot, σ.val < slotCount (s.build.kind c) →
          t.model c σ = Model.fresh (slotSyms s.build.profile σ))
      ∧ (∀ σ : Slot, slotCount (s.build.kind c) ≤ σ.val → t.model c σ = s.model c σ)
      ∧ t.ctx c = { s.ctx c with
          lastR := s.argR, lastG := s.argG, lastB := s.argB
          lastN := if s.build.kind c = .colorNir then s.argN else (s.ctx c).lastN
          unused := false, phase := .seeded, models := (t.ctx c).models }
      ∧ (∀ c', c' ≠ c → t.ctx c' = s.ctx c')
      ∧ t = { s with ctxs := t.ctxs }

/-- 42_color_context.md R220, R222, R224: `WRITE_RGB` on a sound context and encoder with room codes the
point's symbols in order, keeps the point as the last point, and shows mask, change and count in `RES0`. -/
def Obligations.WriteRgbCodesThePoint : Prop :=
  ∀ (s : State) (c e : Idx), s.held = none → s.build.hasCtx c = true → s.build.hasEng e = true →
    (s.ctx c).phase ≠ .uninit → (s.eng e).mode = .enc →
    (s.ctx c).ModelsOk s.build.profile (s.build.kind c) → (s.eng e).EncOk →
    (s.eng e).HasRoom (s.build.outCapOf e) 14 →
    let p : Rgb := ⟨s.argR, s.argG, s.argB⟩
    let m := colorMask (s.lastRgb c) p
    ∃ u, encodeAll c e (rgbSymbols s.build.profile (s.lastRgb c) p) s = .ok u
      ∧ exec (.writeRgb c e) s = .next { u.streamRgb c p with
          res0 := BitVec.ofNat 32 (0x1000 * (rgbSymbols s.build.profile (s.lastRgb c) p).length
            + (if m = 0 then 0 else 0x100) + m.toNat) }
      ∧ OnlyCoded c e (fun σ => σ.val < 7) s u
      ∧ EncoderFrame (s.eng e) (u.eng e) ∧ (u.eng e).EncOk
      ∧ (u.ctx c).ModelsOk s.build.profile (s.build.kind c)

/-- 42_color_context.md R226, R222: `READ_RGB` on a sound context and decoder whose input serves it decodes a
point, keeps it as the last point, and shows it in `RES_R`, `RES_G`, `RES_B` and its mask in `RES0`. -/
def Obligations.ReadRgbDecodesThePoint : Prop :=
  ∀ (s : State) (c e : Idx), s.build.hasCtx c = true → s.build.hasEng e = true →
    (s.ctx c).phase ≠ .uninit → (s.eng e).mode = .dec →
    (s.ctx c).ModelsOk s.build.profile (s.build.kind c) → acMinLength ≤ (s.eng e).length →
    (s.eng e).Serves 14 →
    ∃ m p u, decodeRgb c e s.build.profile (s.lastRgb c) s = .ok (m, p, u)
      ∧ exec (.readRgb c e) s = .next { u.streamRgb c p with
          resR := p.r, resG := p.g, resB := p.b, held := none
          res0 := BitVec.ofNat 32 (0x1000 * rgbCount m + (if m = 0 then 0 else 0x100) + m.toNat) }
      ∧ (m.getLsbD 6 = false → p.g = p.r ∧ p.b = p.r)
      ∧ OnlyCoded c e (fun σ => σ.val < 7) s u
      ∧ DecoderFrame (s.eng e) (u.eng e) ∧ acMinLength ≤ (u.eng e).length
      ∧ (u.ctx c).ModelsOk s.build.profile (s.build.kind c)

/-! ### The near-infrared part -/

/-- 43_nir_context.md R252, R254, R253: `WRITE_NIR` on a sound COLOR_NIR context and encoder with room codes
the mask and the changed halves against the last NIR, and leaves colour alone. -/
def Obligations.WriteNirCodesTheValue : Prop :=
  ∀ (s : State) (c e : Idx), s.held = none → s.build.hasCtx c = true → s.build.hasEng e = true →
    s.build.kind c = .colorNir → (s.ctx c).phase ≠ .uninit → (s.eng e).mode = .enc →
    (s.ctx c).ModelsOk s.build.profile (s.build.kind c) → (s.eng e).EncOk →
    (s.eng e).HasRoom (s.build.outCapOf e) 6 →
    let l := (s.ctx c).lastN
    let m := nirMask l s.argN
    let syms : List (Slot × Byte) :=
      [((7 : Slot), m)]
      ++ (if m.getLsbD 0 then [((8 : Slot), lo8 s.argN - lo8 l)] else [])
      ++ (if m.getLsbD 1 then [((9 : Slot), hi8 s.argN - hi8 l)] else [])
    ∃ u, encodeAll c e syms s = .ok u
      ∧ exec (.writeNir c e) s = .next { u.streamNir c s.argN with
          res0 := BitVec.ofNat 32 (0x1000 * syms.length + (if m = 0 then 0 else 0x100) + m.toNat) }
      ∧ OnlyCoded c e (fun σ => 7 ≤ σ.val) s u
      ∧ EncoderFrame (s.eng e) (u.eng e) ∧ (u.eng e).EncOk
      ∧ (u.ctx c).ModelsOk s.build.profile (s.build.kind c)

/-- 43_nir_context.md R256: `READ_NIR` on a sound COLOR_NIR context and decoder whose input serves it decodes
a value, keeps it as the last NIR, and shows it in `RES_N` and its mask in `RES0`. -/
def Obligations.ReadNirDecodesTheValue : Prop :=
  ∀ (s : State) (c e : Idx), s.build.hasCtx c = true → s.build.hasEng e = true →
    s.build.kind c = .colorNir → (s.ctx c).phase ≠ .uninit → (s.eng e).mode = .dec →
    (s.ctx c).ModelsOk s.build.profile (s.build.kind c) → acMinLength ≤ (s.eng e).length →
    (s.eng e).Serves 6 →
    ∃ m v u, decodeNir c e (s.ctx c).lastN s = .ok (m, v, u)
      ∧ exec (.readNir c e) s = .next { u.streamNir c v with
          resN := v, held := none
          res0 := BitVec.ofNat 32 (0x1000 * nirCount m + (if m = 0 then 0 else 0x100) + m.toNat) }
      ∧ OnlyCoded c e (fun σ => 7 ≤ σ.val) s u
      ∧ DecoderFrame (s.eng e) (u.eng e) ∧ acMinLength ≤ (u.eng e).length
      ∧ (u.ctx c).ModelsOk s.build.profile (s.build.kind c)

/-- 42_color_context.md R230, R234, R215, 43_nir_context.md R253: folding is undone by unfolding, and in
either profile a decoder that finds the symbols `WRITE_RGB` or `WRITE_NIR` coded, with the same last point,
rebuilds exactly the point or the NIR value, having read as many symbols as were coded. -/
def Obligations.PointDecodingInvertsEncoding : Prop :=
  (∀ a b : Byte, fold ((fold ((b.toNat : Int) - a.toNat)).toNat + a.toNat) = b)
  ∧ (∀ (s u : State) (c e : Idx) (pr : Profile) (l p : Rgb),
      decodeSeq e ((rgbSymbols pr l p).map fun x => (c, x.1)) s
        = .ok ((rgbSymbols pr l p).map fun x => x.2, u) →
      decodeRgb c e pr l s = .ok (colorMask l p, p, u)
      ∧ rgbCount (colorMask l p) = (rgbSymbols pr l p).length)
  ∧ ∀ (s u : State) (c e : Idx) (l v : Half),
      decodeSeq e ((nirSymbols l v).map fun x => (c, x.1)) s
        = .ok ((nirSymbols l v).map fun x => x.2, u) →
      decodeNir c e l s = .ok (nirMask l v, v, u)
      ∧ nirCount (nirMask l v) = (nirSymbols l v).length

/-- 43_nir_context.md R260: the NIR commands use and write nothing of the colour, and the colour commands
nothing of the NIR part nor the context's kind: two states that agree on the engine and on the part a
command uses still agree on them after it, and a command leaves the other part as it is. -/
def Obligations.NirAndColourAreIndependent : Prop :=
  (∀ (s t : State) (c e : Idx) (i : Instr), i = .writeNir c e ∨ i = .readNir c e →
    s.held = none → t.held = none → i.wellFormed s.build = true → i.wellFormed t.build = true →
    s.build.kind c = .colorNir → t.build.kind c = .colorNir →
    (s.ctx c).phase ≠ .uninit → (t.ctx c).phase ≠ .uninit → SameNir c e s t →
    ∀ s', exec i s = .next s' → ∃ t', exec i t = .next t' ∧ SameNir c e s' t')
  ∧ (∀ (s t : State) (c e : Idx) (i : Instr), i = .writeRgb c e ∨ i = .readRgb c e →
    s.held = none → t.held = none → i.wellFormed s.build = true → i.wellFormed t.build = true →
    (s.ctx c).phase ≠ .uninit → (t.ctx c).phase ≠ .uninit → SameColour c e s t →
    ∀ s', exec i s = .next s' → ∃ t', exec i t = .next t' ∧ SameColour c e s' t')
  ∧ (∀ (s s' : State) (c e : Idx) (i : Instr), i = .writeNir c e ∨ i = .readNir c e → exec i s = .next s' →
    s'.lastRgb c = s.lastRgb c ∧ (∀ σ : Slot, σ.val < 7 → s'.model c σ = s.model c σ)
    ∧ s'.resR = s.resR ∧ s'.resG = s.resG ∧ s'.resB = s.resB)
  ∧ ∀ (s s' : State) (c e : Idx) (i : Instr), i = .writeRgb c e ∨ i = .readRgb c e → exec i s = .next s' →
    (s'.ctx c).lastN = (s.ctx c).lastN ∧ (∀ σ : Slot, 7 ≤ σ.val → s'.model c σ = s.model c σ)
    ∧ s'.resN = s.resN

/-! ### Errors, holds, frames over all commands -/

/-- 44_system.md R270: `NOP` changes nothing; any other word with its opcode is `RESERVED_FIELD`. -/
def Obligations.NopChangesNothing : Prop :=
  (∀ s : State, s.held = none → exec .nop s = .next s)
  ∧ decode 0x00000000 = .ok .nop
  ∧ ∀ w : Word, fieldOp w = 0 → w ≠ 0 → decode w = .error .reservedField

/-- 60_exceptions.md R302, R305: a command that fails one of the checks 3 to 7 records the first of them in
the stated order, and does nothing else. -/
def Obligations.FirstFailedCheckIsTheError : Prop :=
  ∀ (i : Instr) (s : State) (x : ErrCode), firstError i s = some x →
    exec i s = .next (errorState x s)

/-- 60_exceptions.md R306: the error record, and when an error lowers BUSY. -/
def Obligations.ErrorRecordFields : Prop :=
  (∀ (x : ErrCode) (i : Word) (s : State),
    ∃ t, t = recordError x i s
      ∧ (readReg t .status).getLsbD 1 = true ∧ (readReg t .status).getLsbD (1 + x.code) = true
      ∧ (∀ k, 1 ≤ k → k ≤ 12 → k ≠ x.code →
          (readReg t .status).getLsbD (1 + k) = (readReg s .status).getLsbD (1 + k))
      ∧ (s.errCount = 0 → t.errFirst = BitVec.ofNat 8 x.code ∧ t.errData = i)
      ∧ (s.errCount ≠ 0 → t.errFirst = s.errFirst ∧ t.errData = s.errData)
      ∧ t.errLast = BitVec.ofNat 8 x.code
      ∧ t.errCount.toNat = min (s.errCount.toNat + 1) 0xFFFF
      ∧ t = { s with err := t.err, errBits := t.errBits, errFirst := t.errFirst, errData := t.errData,
                     errLast := t.errLast, errCount := t.errCount })
  ∧ (∀ (x : ErrCode) (s : State),
      finish s (.error (.error x)) = .next (recordError x (commandWord s) { s with held := none }))
  ∧ (∀ (w : Word) (s : State) (h : Held), s.held = some h →
      issue w s = .next (recordError .cmdWhileBusy w s))
  ∧ ∀ (off : BitVec 12) (width : Width) (v : Word) (s : State), properAccess off width = false →
      hostWrite off width v s = .next (recordError .hostAccess (off.setWidth 32) s)

/-- 60_exceptions.md R305, 20_memory.md R87, R98, 00_scope.md R25: a command that gives a next state has
completed and recorded nothing; or has recorded one error and made no other write; or is held, which only a
decoder command can be, and made no write but the latch. -/
def Obligations.CommandsAreAtomic : Prop :=
  ∀ (i : Instr) (s t : State), exec i s = .next t →
    (t.held = none ∧ t.err = s.err ∧ t.errBits = s.errBits ∧ t.errFirst = s.errFirst
      ∧ t.errLast = s.errLast ∧ t.errCount = s.errCount ∧ t.errData = s.errData)
    ∨ (∃ x, t = errorState x s)
    ∨ (mayHold i = true ∧ t = { s with held := some (latchOf s) })

/-- 44_system.md R272, 20_memory.md R87, R103: a byte pushed to an engine with room is appended; one pushed to
a full bounded buffer is dropped and records `IN_OVERFLOW` with the register's offset; either way a held
command is then attempted again, from its beginning, with its latched word. That a push which overflows also
re-attempts is the model's reading of R272 (log entry 10), and so is "full" as a capacity of at most the length
(log entry 8). -/
def Obligations.PushAppendsThenRetries : Prop :=
  ∀ (s : State) (e : Idx) (v : Word) (rest : List Access),
    s.pending = .write (busAddr s.build (engOffset e 0x10)) .w32 v :: rest → s.build.hasEng e = true →
    ((∀ n, s.build.inCapOf e = some n → (s.eng e).input.length < n) →
      (s.held = none → step s = .next (({ s with pending := rest }).setEng e
        { s.eng e with input := (s.eng e).input ++ [v.extractLsb' 0 8] }))
      ∧ ∀ h, s.held = some h → step s = runWord h.word (({ s with pending := rest }).setEng e
          { s.eng e with input := (s.eng e).input ++ [v.extractLsb' 0 8] }))
    ∧ ∀ n, s.build.inCapOf e = some n → n ≤ (s.eng e).input.length →
      (s.held = none → step s = .next (recordError .inOverflow ((engOffset e 0x10).setWidth 32)
        { s with pending := rest }))
      ∧ ∀ h, s.held = some h → step s = runWord h.word (recordError .inOverflow
          ((engOffset e 0x10).setWidth 32) { s with pending := rest })

/-- 10_state.md R47, R48, R49: a command writes no argument register, no debug selector, nothing of the build
or the host's side; `RES0` only if it is one of the five commands named; `RES_R`, `RES_G`, `RES_B` only if
it is `READ_RGB`; `RES_N` only if it is `READ_NIR`. -/
def Obligations.CommandsWriteOnlyTheirRegisters : Prop :=
  ∀ (i : Instr) (s t : State), exec i s = .next t →
    t.build = s.build ∧ t.cmd = s.cmd ∧ t.pending = s.pending ∧ t.readData = s.readData
    ∧ t.argR = s.argR ∧ t.argG = s.argG ∧ t.argB = s.argB ∧ t.argN = s.argN ∧ t.dbgSel = s.dbgSel
    ∧ (writesRes0 i = false → t.res0 = s.res0)
    ∧ ((∀ c e, i ≠ .readRgb c e) → t.resR = s.resR ∧ t.resG = s.resG ∧ t.resB = s.resB)
    ∧ ((∀ c e, i ≠ .readNir c e) → t.resN = s.resN)

/-- 10_state.md R56, 70_reset_and_hazards.md R335, 20_memory.md R89: a command changes no engine and no
context but those it names, and no command changes an input buffer, its end mark or the host's read index
but `ENC_INIT`, which clears the index. -/
def Obligations.CommandsTouchOnlyWhatTheyName : Prop :=
  ∀ (i : Instr) (s t : State), exec i s = .next t →
    (∀ e, engineOf i ≠ some e → t.eng e = s.eng e)
    ∧ (∀ c, contextOf i ≠ some c → t.ctx c = s.ctx c)
    ∧ (∀ e, (t.eng e).input = (s.eng e).input ∧ (t.eng e).eos = (s.eng e).eos)
    ∧ (∀ e, i ≠ .encInit e → (t.eng e).outIdx = (s.eng e).outIdx)

/-- 10_state.md R54: the commands of a context behave in SEEDED as in STREAMING, and no command returns a
context to UNINIT. -/
def Obligations.SeededBehavesAsStreaming : Prop :=
  (∀ (i : Instr) (s t : State) (c : Idx), exec i s = .next t → (s.ctx c).phase ≠ .uninit →
    (t.ctx c).phase ≠ .uninit)
  ∧ ∀ (i : Instr) (s t : State) (c : Idx), (s.ctx c).phase = .seeded → exec i s = .next t →
      ∃ t', exec i (s.asStreaming c) = .next t' ∧ t'.asStreaming c = t.asStreaming c

/-- 20_memory.md R88: the output bytes of an engine that is not encoding are final: a step leaves them, or is
the reset input, or has started a new stream on the engine. -/
def Obligations.FinishedOutputIsFinal : Prop :=
  ∀ (s t : State) (e : Idx), step s = .next t → (s.eng e).mode ≠ .enc →
    (t.eng e).out = (s.eng e).out
    ∨ s.pending.head? = some .reset
    ∨ ((t.eng e).mode = .enc ∧ (t.eng e).out = [])

/-- 60_exceptions.md R307: no command and no host access but reset clears the error record: `ERR` and each bit of
`ERRBITS` stay, `COUNT` never falls, `FIRST` and `ERRDATA` stay once written, and `LAST` changes to the code of
an error only. -/
def Obligations.ErrorRecordIsSticky : Prop :=
  ∀ s t : State, step s = .next t → s.pending.head? ≠ some .reset →
    (s.err = true → t.err = true) ∧ s.errBits &&& t.errBits = s.errBits ∧ s.errCount ≤ t.errCount
    ∧ (s.errCount ≠ 0 → t.errFirst = s.errFirst ∧ t.errData = s.errData)
    ∧ (s.errLast ≠ 0 → t.errLast ≠ 0)
    ∧ (t.errLast = s.errLast ∨ ∃ x : ErrCode, t.errLast = BitVec.ofNat 8 x.code)

/-! ### Host accesses -/

/-- 20_memory.md R92, R94: the register map. The registers of the block as a whole stand at their offsets; those
of engines and contexts at theirs exactly for the engines and contexts the build has; the reserved offsets
hold none. The map starts at the bus address `ACE_BASE`: an access outside its 4 KiB changes nothing (that the
block ignores it is the model's choice: log entry 11). -/
def Obligations.RegisterMapOfBlocks : Prop :=
  (∀ (b : Build) (e : Idx) (off : BitVec 12) (r : EngReg),
    (off, r) ∈ [((0x00 : BitVec 12), EngReg.engStat), (0x04, .outLen), (0x08, .outIdx), (0x0C, .outData),
      (0x10, .inPush), (0x14, .inCtrl), (0x18, .inLen), (0x1C, .inPtr), (0x20, .dbgBase),
      (0x24, .dbgLength), (0x28, .dbgValue)] →
    regAt b (engOffset e off) = if b.hasEng e then some (.eng e r) else none)
  ∧ (∀ (b : Build) (c : Idx) (off : BitVec 12) (r : CtxReg),
    (off, r) ∈ [((0x00 : BitVec 12), CtxReg.ctxStat), (0x04, .lastR), (0x08, .lastG), (0x0C, .lastB),
      (0x10, .lastN)] →
    regAt b (ctxOffset c off) = if b.hasCtx c then some (.ctx c r) else none)
  ∧ (∀ (b : Build) (off : BitVec 12) (r : Reg),
    (off, r) ∈ [((0x000 : BitVec 12), Reg.id), (0x004, .config), (0x008, .cmd), (0x00C, .status),
      (0x010, .errInfo), (0x014, .errData), (0x018, .res0), (0x020, .argR), (0x024, .argG), (0x028, .argB),
      (0x02C, .argN), (0x030, .resR), (0x034, .resG), (0x038, .resB), (0x03C, .resN), (0x040, .dbgSel),
      (0x044, .dbgCount), (0x048, .dbgDist), (0x04C, .dbgTotal), (0x050, .dbgCycle), (0x054, .dbgUntil),
      (0x058, .dbgNsym)] →
    regAt b off = some r)
  ∧ (∀ (b : Build) (off : BitVec 12),
    (off = 0x01C ∨ (0x05C ≤ off ∧ off < 0x100) ∨ (0x500 ≤ off ∧ off < 0x800) ∨ 0xA00 ≤ off) →
    regAt b off = none)
  ∧ (∀ (b : Build) (e : Idx) (off : BitVec 12), 0x2C ≤ off → off < 0x40 → regAt b (engOffset e off) = none)
  ∧ (∀ (b : Build) (c : Idx) (off : BitVec 12), 0x14 ≤ off → off < 0x20 → regAt b (ctxOffset c off) = none)
  ∧ ∀ (s : State) (addr : Nat) (width : Width) (rest : List Access),
    (addr < s.build.aceBase ∨ s.build.aceBase + 0x1000 ≤ addr) →
    (s.pending = .read addr width :: rest → step s = .next { s with pending := rest })
    ∧ ∀ v, s.pending = .write addr width v :: rest → step s = .next { s with pending := rest }

/-- 20_memory.md R91, R93, R95: a proper read changes nothing but what the read returns, which is 0 at a
reserved offset and from a write-only register; a write to a reserved offset or a read-only register is
ignored and records `HOST_ACCESS` with the offset. What the read returns stands in `readData` (log entry 2). -/
def Obligations.ReadsAreFreeAndBadWritesRecorded : Prop :=
  (∀ (s : State) (off : BitVec 12) (rest : List Access), s.pending = .read (busAddr s.build off) .w32 :: rest →
    off.toNat % 4 = 0 →
    step s = .next { s with pending := rest, readData := readAt s off })
  ∧ (∀ (s : State) (off : BitVec 12),
      (regAt s.build off = none ∨ (∃ e, regAt s.build off = some (.eng e .inPush))
        ∨ ∃ e, regAt s.build off = some (.eng e .inCtrl)) → readAt s off = 0)
  ∧ ∀ (s : State) (off : BitVec 12) (v : Word) (rest : List Access),
      s.pending = .write (busAddr s.build off) .w32 v :: rest → off.toNat % 4 = 0 →
      (regAt s.build off = none ∨ ∃ r, regAt s.build off = some r ∧ readOnly r = true) →
      step s = .next (recordError .hostAccess (off.setWidth 32) { s with pending := rest })

/-- 20_memory.md R90: an access that is misaligned or not 32 bits wide is ignored, a read returns 0, and
`HOST_ACCESS` is recorded with the offset. That an improper READ records, against R91's "no side effects", is
the model's reading (log entry 17). -/
def Obligations.ImproperAccessIsRecorded : Prop :=
  ∀ (s : State) (off : BitVec 12) (width : Width) (rest : List Access),
    (width ≠ .w32 ∨ off.toNat % 4 ≠ 0) →
    (s.pending = .read (busAddr s.build off) width :: rest →
      step s = .next (recordError .hostAccess (off.setWidth 32) { s with pending := rest, readData := 0 }))
    ∧ ∀ v, s.pending = .write (busAddr s.build off) width v :: rest →
      step s = .next (recordError .hostAccess (off.setWidth 32) { s with pending := rest })

/-- 10_state.md R48, R50: the argument registers and `DBG_SEL` store the low 16 bits of what is written and
read them back zero-extended. -/
def Obligations.StoredRegistersReadBack : Prop :=
  ∀ (s : State) (v : Word) (rest : List Access) (off : BitVec 12) (r : Reg),
    (off, r) ∈ [((0x020 : BitVec 12), Reg.argR), (0x024, .argG), (0x028, .argB), (0x02C, .argN),
      (0x040, .dbgSel)] →
    s.pending = .write (busAddr s.build off) .w32 v :: rest →
    ∃ t, step s = .next t ∧ (readReg t r).toNat = v.toNat % 0x10000
      ∧ (∀ r', r' ≠ r → (r = .dbgSel → r' ∉ [Reg.dbgCount, .dbgDist, .dbgTotal, .dbgCycle, .dbgUntil,
          .dbgNsym]) → readReg t r' = readReg s r')
      ∧ t.engs = s.engs ∧ t.ctxs = s.ctxs ∧ t.held = s.held

/-- 44_system.md R273, R274, 20_memory.md R87, 10_state.md R61: `IN_CTRL[e]` clears (bit 1), then marks the end
(bit 0), and leaves `underrun`, and a held command is then attempted again on the buffer so controlled;
`OUT_IDX[e]` takes the whole word, and `OUT_DATA[e]` then reads that byte
of the output buffer, or 0 past its end. -/
def Obligations.HostActionsOnTheBuffers : Prop :=
  (∀ (s : State) (e : Idx) (v : Word) (rest : List Access), s.build.hasEng e = true →
    s.pending = .write (busAddr s.build (engOffset e 0x14)) .w32 v :: rest →
    ∃ t, (s.held = none → step s = .next t)
      ∧ (∀ h, s.held = some h → step s = runWord h.word t)
      ∧ t.eng e = { s.eng e with
          input := if v.getLsbD 1 then [] else (s.eng e).input
          inPtr := if v.getLsbD 1 then 0 else (s.eng e).inPtr
          eos := v.getLsbD 0 || (!v.getLsbD 1 && (s.eng e).eos) }
      ∧ (∀ e', e' ≠ e → t.eng e' = s.eng e')
      ∧ t = { s with engs := t.engs, pending := rest })
  ∧ ∀ (s : State) (e : Idx) (v : Word) (rest : List Access), s.build.hasEng e = true →
    s.pending = .write (busAddr s.build (engOffset e 0x08)) .w32 v :: rest →
    ∃ t, step s = .next t ∧ (t.eng e) = { s.eng e with outIdx := v }
      ∧ (∀ b, (s.eng e).out[v.toNat]? = some b → readReg t (.eng e .outData) = b.setWidth 32)
      ∧ ((s.eng e).out.length ≤ v.toNat → readReg t (.eng e .outData) = 0)
      ∧ (∀ e', e' ≠ e → t.eng e' = s.eng e')
      ∧ t = { s with engs := t.engs, pending := rest }

/-- 10_state.md R42, R44, R45: the fields of `STATUS`, `ERRINFO` and `CONFIG`. -/
def Obligations.StatusWordsHaveTheirFields : Prop :=
  ∀ s : State,
    (readReg s .status).getLsbD 0 = s.held.isSome ∧ (readReg s .status).getLsbD 1 = s.err
    ∧ (∀ k < 12, (readReg s .status).getLsbD (2 + k) = s.errBits.getLsbD k)
    ∧ (readReg s .status).getLsbD 14 = false ∧ (readReg s .status).getLsbD 15 = false
    ∧ (∀ e : Idx, (readReg s .status).getLsbD (16 + e.toNat)
        = (s.build.hasEng e && (s.eng e).underrun))
    ∧ (readReg s .errInfo).toNat
        = s.errFirst.toNat + 0x100 * s.errLast.toNat + 0x10000 * s.errCount.toNat
    ∧ (readReg s .config).toNat % 0x10000
        = (s.build.numCtx - 1) + 0x10 * (s.build.numEng - 1)
            + (if s.build.profile = .laszip then 0x100 else 0)
    ∧ ∀ c : Idx, (readReg s .config).getLsbD (16 + c.toNat)
        = (s.build.hasCtx c && decide (s.build.kind c = .colorNir))

/-- 10_state.md R51: the debug registers show the selected slot, or 0 when it does not exist, its context does
not, or it is not initialised. -/
def Obligations.DebugRegistersShowTheSlot : Prop :=
  ∀ (s : State) (c j : Idx) (k : Byte), s.dbgSel = k ++ j ++ c →
    ((s.build.hasCtx c = true ∧ (s.ctx c).phase ≠ .uninit ∧ s.build.hasSlot c j = true) →
      ∃ σ : Slot, σ.val = j.toNat
        ∧ (k.toNat < slotSyms s.build.profile σ →
            readReg s .dbgCount = (s.model c σ).countAt k.toNat
            ∧ readReg s .dbgDist = (s.model c σ).distAt k.toNat)
        ∧ (slotSyms s.build.profile σ ≤ k.toNat →
            readReg s .dbgCount = 0 ∧ readReg s .dbgDist = 0)
        ∧ readReg s .dbgTotal = (s.model c σ).total ∧ readReg s .dbgCycle = (s.model c σ).cycle
        ∧ readReg s .dbgUntil = (s.model c σ).untilUpdate
        ∧ (readReg s .dbgNsym).toNat = slotSyms s.build.profile σ)
    ∧ (¬ (s.build.hasCtx c = true ∧ (s.ctx c).phase ≠ .uninit ∧ s.build.hasSlot c j = true) →
        ∀ r ∈ [Reg.dbgCount, .dbgDist, .dbgTotal, .dbgCycle, .dbgUntil, .dbgNsym], readReg s r = 0)

/-! ### The machine as a whole -/

/-- The invariant holds after reset, for every build (70_reset_and_hazards.md R330). -/
def Obligations.InvariantAfterReset : Prop := ∀ b : Build, (State.resetOf b).Inv

/-- 10_state.md R66, R67, 40_model.md R146, 20_memory.md R85: every step keeps the invariant; in particular
`INTERNAL_CARRY` is never recorded. -/
def Obligations.StepKeepsTheInvariant : Prop :=
  ∀ s t : State, s.Inv → step s = .next t → t.Inv

/-- 41_coder.md R171, R181, R189, 60_exceptions.md R307: in a sound state every step gives a next state:
no lock-out, no loop without end, no data that stops the block. (With no host access pending the step idles:
log entry 1.) -/
def Obligations.SoundMachineNeverStops : Prop :=
  ∀ s : State, s.Inv → ∃ t, step s = .next t

/-! ### Engine and context registers -/

/-- 10_state.md R61, R62: what every register of an engine and of a context reads in any state. `LAST_N` of a
COLOR context reads 0. A length of `2^32` or more reads modulo `2^32` (the model's reading: log entry 9). -/
def Obligations.EngineAndContextRegistersShowTheirFields : Prop :=
  (∀ (s : State) (e : Idx),
    (readReg s (.eng e .engStat)).toNat
        = (match (s.eng e).mode with
            | .idle => 0
            | .enc => 1
            | .dec => 2)
          + (if (s.eng e).eos then 4 else 0) + (if (s.eng e).underrun then 8 else 0)
    ∧ (readReg s (.eng e .outLen)).toNat = (s.eng e).out.length % 2 ^ 32
    ∧ readReg s (.eng e .outIdx) = (s.eng e).outIdx
    ∧ (∀ b, (s.eng e).out[(s.eng e).outIdx.toNat]? = some b →
        (readReg s (.eng e .outData)).toNat = b.toNat)
    ∧ ((s.eng e).out.length ≤ (s.eng e).outIdx.toNat → readReg s (.eng e .outData) = 0)
    ∧ (readReg s (.eng e .inLen)).toNat = (s.eng e).input.length % 2 ^ 32
    ∧ readReg s (.eng e .inPtr) = (s.eng e).inPtr
    ∧ readReg s (.eng e .dbgBase) = (s.eng e).base
    ∧ readReg s (.eng e .dbgLength) = (s.eng e).length
    ∧ readReg s (.eng e .dbgValue) = (s.eng e).value)
  ∧ ∀ (s : State) (c : Idx),
    (readReg s (.ctx c .ctxStat)).toNat
        = (match (s.ctx c).phase with
            | .uninit => 0
            | .seeded => 1
            | .streaming => 2)
          + (if (s.ctx c).unused then 4 else 0) + (if s.build.kind c = .colorNir then 8 else 0)
    ∧ (readReg s (.ctx c .lastR)).toNat = (s.ctx c).lastR.toNat
    ∧ (readReg s (.ctx c .lastG)).toNat = (s.ctx c).lastG.toNat
    ∧ (readReg s (.ctx c .lastB)).toNat = (s.ctx c).lastB.toNat
    ∧ (s.build.kind c = .colorNir → (readReg s (.ctx c .lastN)).toNat = (s.ctx c).lastN.toNat)
    ∧ (s.build.kind c = .color → readReg s (.ctx c .lastN) = 0)
end

