-- ==== Sys2Proof/Laws/State.lean ====
section
/-! SUPPORT. The small lemmas of `State`: one per field per update, and reading an engine, a context or a
model back after writing one. No later proof unfolds a record update. -/

namespace Sys2Proof.Machine

/-! ### `setEng` -/

@[simp] theorem State.setEng_build (s : State) (e : Idx) (g : Engine) :
    (s.setEng e g).build = s.build := rfl
@[simp] theorem State.setEng_cmd (s : State) (e : Idx) (g : Engine) :
    (s.setEng e g).cmd = s.cmd := rfl
@[simp] theorem State.setEng_held (s : State) (e : Idx) (g : Engine) :
    (s.setEng e g).held = s.held := rfl
@[simp] theorem State.setEng_err (s : State) (e : Idx) (g : Engine) :
    (s.setEng e g).err = s.err := rfl
@[simp] theorem State.setEng_errBits (s : State) (e : Idx) (g : Engine) :
    (s.setEng e g).errBits = s.errBits := rfl
@[simp] theorem State.setEng_errFirst (s : State) (e : Idx) (g : Engine) :
    (s.setEng e g).errFirst = s.errFirst := rfl
@[simp] theorem State.setEng_errLast (s : State) (e : Idx) (g : Engine) :
    (s.setEng e g).errLast = s.errLast := rfl
@[simp] theorem State.setEng_errCount (s : State) (e : Idx) (g : Engine) :
    (s.setEng e g).errCount = s.errCount := rfl
@[simp] theorem State.setEng_errData (s : State) (e : Idx) (g : Engine) :
    (s.setEng e g).errData = s.errData := rfl
@[simp] theorem State.setEng_res0 (s : State) (e : Idx) (g : Engine) :
    (s.setEng e g).res0 = s.res0 := rfl
@[simp] theorem State.setEng_argR (s : State) (e : Idx) (g : Engine) :
    (s.setEng e g).argR = s.argR := rfl
@[simp] theorem State.setEng_argG (s : State) (e : Idx) (g : Engine) :
    (s.setEng e g).argG = s.argG := rfl
@[simp] theorem State.setEng_argB (s : State) (e : Idx) (g : Engine) :
    (s.setEng e g).argB = s.argB := rfl
@[simp] theorem State.setEng_argN (s : State) (e : Idx) (g : Engine) :
    (s.setEng e g).argN = s.argN := rfl
@[simp] theorem State.setEng_resR (s : State) (e : Idx) (g : Engine) :
    (s.setEng e g).resR = s.resR := rfl
@[simp] theorem State.setEng_resG (s : State) (e : Idx) (g : Engine) :
    (s.setEng e g).resG = s.resG := rfl
@[simp] theorem State.setEng_resB (s : State) (e : Idx) (g : Engine) :
    (s.setEng e g).resB = s.resB := rfl
@[simp] theorem State.setEng_resN (s : State) (e : Idx) (g : Engine) :
    (s.setEng e g).resN = s.resN := rfl
@[simp] theorem State.setEng_dbgSel (s : State) (e : Idx) (g : Engine) :
    (s.setEng e g).dbgSel = s.dbgSel := rfl
@[simp] theorem State.setEng_ctxs (s : State) (e : Idx) (g : Engine) :
    (s.setEng e g).ctxs = s.ctxs := rfl
@[simp] theorem State.setEng_pending (s : State) (e : Idx) (g : Engine) :
    (s.setEng e g).pending = s.pending := rfl
@[simp] theorem State.setEng_readData (s : State) (e : Idx) (g : Engine) :
    (s.setEng e g).readData = s.readData := rfl

/-! ### `setCtx` -/

@[simp] theorem State.setCtx_build (s : State) (c : Idx) (x : Context) :
    (s.setCtx c x).build = s.build := rfl
@[simp] theorem State.setCtx_cmd (s : State) (c : Idx) (x : Context) :
    (s.setCtx c x).cmd = s.cmd := rfl
@[simp] theorem State.setCtx_held (s : State) (c : Idx) (x : Context) :
    (s.setCtx c x).held = s.held := rfl
@[simp] theorem State.setCtx_err (s : State) (c : Idx) (x : Context) :
    (s.setCtx c x).err = s.err := rfl
@[simp] theorem State.setCtx_errBits (s : State) (c : Idx) (x : Context) :
    (s.setCtx c x).errBits = s.errBits := rfl
@[simp] theorem State.setCtx_errFirst (s : State) (c : Idx) (x : Context) :
    (s.setCtx c x).errFirst = s.errFirst := rfl
@[simp] theorem State.setCtx_errLast (s : State) (c : Idx) (x : Context) :
    (s.setCtx c x).errLast = s.errLast := rfl
@[simp] theorem State.setCtx_errCount (s : State) (c : Idx) (x : Context) :
    (s.setCtx c x).errCount = s.errCount := rfl
@[simp] theorem State.setCtx_errData (s : State) (c : Idx) (x : Context) :
    (s.setCtx c x).errData = s.errData := rfl
@[simp] theorem State.setCtx_res0 (s : State) (c : Idx) (x : Context) :
    (s.setCtx c x).res0 = s.res0 := rfl
@[simp] theorem State.setCtx_argR (s : State) (c : Idx) (x : Context) :
    (s.setCtx c x).argR = s.argR := rfl
@[simp] theorem State.setCtx_argG (s : State) (c : Idx) (x : Context) :
    (s.setCtx c x).argG = s.argG := rfl
@[simp] theorem State.setCtx_argB (s : State) (c : Idx) (x : Context) :
    (s.setCtx c x).argB = s.argB := rfl
@[simp] theorem State.setCtx_argN (s : State) (c : Idx) (x : Context) :
    (s.setCtx c x).argN = s.argN := rfl
@[simp] theorem State.setCtx_resR (s : State) (c : Idx) (x : Context) :
    (s.setCtx c x).resR = s.resR := rfl
@[simp] theorem State.setCtx_resG (s : State) (c : Idx) (x : Context) :
    (s.setCtx c x).resG = s.resG := rfl
@[simp] theorem State.setCtx_resB (s : State) (c : Idx) (x : Context) :
    (s.setCtx c x).resB = s.resB := rfl
@[simp] theorem State.setCtx_resN (s : State) (c : Idx) (x : Context) :
    (s.setCtx c x).resN = s.resN := rfl
@[simp] theorem State.setCtx_dbgSel (s : State) (c : Idx) (x : Context) :
    (s.setCtx c x).dbgSel = s.dbgSel := rfl
@[simp] theorem State.setCtx_engs (s : State) (c : Idx) (x : Context) :
    (s.setCtx c x).engs = s.engs := rfl
@[simp] theorem State.setCtx_pending (s : State) (c : Idx) (x : Context) :
    (s.setCtx c x).pending = s.pending := rfl
@[simp] theorem State.setCtx_readData (s : State) (c : Idx) (x : Context) :
    (s.setCtx c x).readData = s.readData := rfl

/-! ### `setModel` -/

@[simp] theorem State.setModel_build (s : State) (c : Idx) (σ : Slot) (m : Model) :
    (s.setModel c σ m).build = s.build := rfl
@[simp] theorem State.setModel_cmd (s : State) (c : Idx) (σ : Slot) (m : Model) :
    (s.setModel c σ m).cmd = s.cmd := rfl
@[simp] theorem State.setModel_held (s : State) (c : Idx) (σ : Slot) (m : Model) :
    (s.setModel c σ m).held = s.held := rfl
@[simp] theorem State.setModel_err (s : State) (c : Idx) (σ : Slot) (m : Model) :
    (s.setModel c σ m).err = s.err := rfl
@[simp] theorem State.setModel_errBits (s : State) (c : Idx) (σ : Slot) (m : Model) :
    (s.setModel c σ m).errBits = s.errBits := rfl
@[simp] theorem State.setModel_errFirst (s : State) (c : Idx) (σ : Slot) (m : Model) :
    (s.setModel c σ m).errFirst = s.errFirst := rfl
@[simp] theorem State.setModel_errLast (s : State) (c : Idx) (σ : Slot) (m : Model) :
    (s.setModel c σ m).errLast = s.errLast := rfl
@[simp] theorem State.setModel_errCount (s : State) (c : Idx) (σ : Slot) (m : Model) :
    (s.setModel c σ m).errCount = s.errCount := rfl
@[simp] theorem State.setModel_errData (s : State) (c : Idx) (σ : Slot) (m : Model) :
    (s.setModel c σ m).errData = s.errData := rfl
@[simp] theorem State.setModel_res0 (s : State) (c : Idx) (σ : Slot) (m : Model) :
    (s.setModel c σ m).res0 = s.res0 := rfl
@[simp] theorem State.setModel_argR (s : State) (c : Idx) (σ : Slot) (m : Model) :
    (s.setModel c σ m).argR = s.argR := rfl
@[simp] theorem State.setModel_argG (s : State) (c : Idx) (σ : Slot) (m : Model) :
    (s.setModel c σ m).argG = s.argG := rfl
@[simp] theorem State.setModel_argB (s : State) (c : Idx) (σ : Slot) (m : Model) :
    (s.setModel c σ m).argB = s.argB := rfl
@[simp] theorem State.setModel_argN (s : State) (c : Idx) (σ : Slot) (m : Model) :
    (s.setModel c σ m).argN = s.argN := rfl
@[simp] theorem State.setModel_resR (s : State) (c : Idx) (σ : Slot) (m : Model) :
    (s.setModel c σ m).resR = s.resR := rfl
@[simp] theorem State.setModel_resG (s : State) (c : Idx) (σ : Slot) (m : Model) :
    (s.setModel c σ m).resG = s.resG := rfl
@[simp] theorem State.setModel_resB (s : State) (c : Idx) (σ : Slot) (m : Model) :
    (s.setModel c σ m).resB = s.resB := rfl
@[simp] theorem State.setModel_resN (s : State) (c : Idx) (σ : Slot) (m : Model) :
    (s.setModel c σ m).resN = s.resN := rfl
@[simp] theorem State.setModel_dbgSel (s : State) (c : Idx) (σ : Slot) (m : Model) :
    (s.setModel c σ m).dbgSel = s.dbgSel := rfl
@[simp] theorem State.setModel_engs (s : State) (c : Idx) (σ : Slot) (m : Model) :
    (s.setModel c σ m).engs = s.engs := rfl
@[simp] theorem State.setModel_pending (s : State) (c : Idx) (σ : Slot) (m : Model) :
    (s.setModel c σ m).pending = s.pending := rfl
@[simp] theorem State.setModel_readData (s : State) (c : Idx) (σ : Slot) (m : Model) :
    (s.setModel c σ m).readData = s.readData := rfl

/-! ### `streamRgb` -/

@[simp] theorem State.streamRgb_build (s : State) (c : Idx) (p : Rgb) :
    (s.streamRgb c p).build = s.build := rfl
@[simp] theorem State.streamRgb_cmd (s : State) (c : Idx) (p : Rgb) :
    (s.streamRgb c p).cmd = s.cmd := rfl
@[simp] theorem State.streamRgb_held (s : State) (c : Idx) (p : Rgb) :
    (s.streamRgb c p).held = s.held := rfl
@[simp] theorem State.streamRgb_err (s : State) (c : Idx) (p : Rgb) :
    (s.streamRgb c p).err = s.err := rfl
@[simp] theorem State.streamRgb_errBits (s : State) (c : Idx) (p : Rgb) :
    (s.streamRgb c p).errBits = s.errBits := rfl
@[simp] theorem State.streamRgb_errFirst (s : State) (c : Idx) (p : Rgb) :
    (s.streamRgb c p).errFirst = s.errFirst := rfl
@[simp] theorem State.streamRgb_errLast (s : State) (c : Idx) (p : Rgb) :
    (s.streamRgb c p).errLast = s.errLast := rfl
@[simp] theorem State.streamRgb_errCount (s : State) (c : Idx) (p : Rgb) :
    (s.streamRgb c p).errCount = s.errCount := rfl
@[simp] theorem State.streamRgb_errData (s : State) (c : Idx) (p : Rgb) :
    (s.streamRgb c p).errData = s.errData := rfl
@[simp] theorem State.streamRgb_res0 (s : State) (c : Idx) (p : Rgb) :
    (s.streamRgb c p).res0 = s.res0 := rfl
@[simp] theorem State.streamRgb_argR (s : State) (c : Idx) (p : Rgb) :
    (s.streamRgb c p).argR = s.argR := rfl
@[simp] theorem State.streamRgb_argG (s : State) (c : Idx) (p : Rgb) :
    (s.streamRgb c p).argG = s.argG := rfl
@[simp] theorem State.streamRgb_argB (s : State) (c : Idx) (p : Rgb) :
    (s.streamRgb c p).argB = s.argB := rfl
@[simp] theorem State.streamRgb_argN (s : State) (c : Idx) (p : Rgb) :
    (s.streamRgb c p).argN = s.argN := rfl
@[simp] theorem State.streamRgb_resR (s : State) (c : Idx) (p : Rgb) :
    (s.streamRgb c p).resR = s.resR := rfl
@[simp] theorem State.streamRgb_resG (s : State) (c : Idx) (p : Rgb) :
    (s.streamRgb c p).resG = s.resG := rfl
@[simp] theorem State.streamRgb_resB (s : State) (c : Idx) (p : Rgb) :
    (s.streamRgb c p).resB = s.resB := rfl
@[simp] theorem State.streamRgb_resN (s : State) (c : Idx) (p : Rgb) :
    (s.streamRgb c p).resN = s.resN := rfl
@[simp] theorem State.streamRgb_dbgSel (s : State) (c : Idx) (p : Rgb) :
    (s.streamRgb c p).dbgSel = s.dbgSel := rfl
@[simp] theorem State.streamRgb_engs (s : State) (c : Idx) (p : Rgb) :
    (s.streamRgb c p).engs = s.engs := rfl
@[simp] theorem State.streamRgb_pending (s : State) (c : Idx) (p : Rgb) :
    (s.streamRgb c p).pending = s.pending := rfl
@[simp] theorem State.streamRgb_readData (s : State) (c : Idx) (p : Rgb) :
    (s.streamRgb c p).readData = s.readData := rfl

/-! ### `streamNir` -/

@[simp] theorem State.streamNir_build (s : State) (c : Idx) (v : Half) :
    (s.streamNir c v).build = s.build := rfl
@[simp] theorem State.streamNir_cmd (s : State) (c : Idx) (v : Half) :
    (s.streamNir c v).cmd = s.cmd := rfl
@[simp] theorem State.streamNir_held (s : State) (c : Idx) (v : Half) :
    (s.streamNir c v).held = s.held := rfl
@[simp] theorem State.streamNir_err (s : State) (c : Idx) (v : Half) :
    (s.streamNir c v).err = s.err := rfl
@[simp] theorem State.streamNir_errBits (s : State) (c : Idx) (v : Half) :
    (s.streamNir c v).errBits = s.errBits := rfl
@[simp] theorem State.streamNir_errFirst (s : State) (c : Idx) (v : Half) :
    (s.streamNir c v).errFirst = s.errFirst := rfl
@[simp] theorem State.streamNir_errLast (s : State) (c : Idx) (v : Half) :
    (s.streamNir c v).errLast = s.errLast := rfl
@[simp] theorem State.streamNir_errCount (s : State) (c : Idx) (v : Half) :
    (s.streamNir c v).errCount = s.errCount := rfl
@[simp] theorem State.streamNir_errData (s : State) (c : Idx) (v : Half) :
    (s.streamNir c v).errData = s.errData := rfl
@[simp] theorem State.streamNir_res0 (s : State) (c : Idx) (v : Half) :
    (s.streamNir c v).res0 = s.res0 := rfl
@[simp] theorem State.streamNir_argR (s : State) (c : Idx) (v : Half) :
    (s.streamNir c v).argR = s.argR := rfl
@[simp] theorem State.streamNir_argG (s : State) (c : Idx) (v : Half) :
    (s.streamNir c v).argG = s.argG := rfl
@[simp] theorem State.streamNir_argB (s : State) (c : Idx) (v : Half) :
    (s.streamNir c v).argB = s.argB := rfl
@[simp] theorem State.streamNir_argN (s : State) (c : Idx) (v : Half) :
    (s.streamNir c v).argN = s.argN := rfl
@[simp] theorem State.streamNir_resR (s : State) (c : Idx) (v : Half) :
    (s.streamNir c v).resR = s.resR := rfl
@[simp] theorem State.streamNir_resG (s : State) (c : Idx) (v : Half) :
    (s.streamNir c v).resG = s.resG := rfl
@[simp] theorem State.streamNir_resB (s : State) (c : Idx) (v : Half) :
    (s.streamNir c v).resB = s.resB := rfl
@[simp] theorem State.streamNir_resN (s : State) (c : Idx) (v : Half) :
    (s.streamNir c v).resN = s.resN := rfl
@[simp] theorem State.streamNir_dbgSel (s : State) (c : Idx) (v : Half) :
    (s.streamNir c v).dbgSel = s.dbgSel := rfl
@[simp] theorem State.streamNir_engs (s : State) (c : Idx) (v : Half) :
    (s.streamNir c v).engs = s.engs := rfl
@[simp] theorem State.streamNir_pending (s : State) (c : Idx) (v : Half) :
    (s.streamNir c v).pending = s.pending := rfl
@[simp] theorem State.streamNir_readData (s : State) (c : Idx) (v : Half) :
    (s.streamNir c v).readData = s.readData := rfl

/-! ### `recordError` -/

@[simp] theorem recordError_build (x : ErrCode) (i : Word) (s : State) :
    (recordError x i s).build = s.build := rfl
@[simp] theorem recordError_cmd (x : ErrCode) (i : Word) (s : State) :
    (recordError x i s).cmd = s.cmd := rfl
@[simp] theorem recordError_held (x : ErrCode) (i : Word) (s : State) :
    (recordError x i s).held = s.held := rfl
@[simp] theorem recordError_res0 (x : ErrCode) (i : Word) (s : State) :
    (recordError x i s).res0 = s.res0 := rfl
@[simp] theorem recordError_argR (x : ErrCode) (i : Word) (s : State) :
    (recordError x i s).argR = s.argR := rfl
@[simp] theorem recordError_argG (x : ErrCode) (i : Word) (s : State) :
    (recordError x i s).argG = s.argG := rfl
@[simp] theorem recordError_argB (x : ErrCode) (i : Word) (s : State) :
    (recordError x i s).argB = s.argB := rfl
@[simp] theorem recordError_argN (x : ErrCode) (i : Word) (s : State) :
    (recordError x i s).argN = s.argN := rfl
@[simp] theorem recordError_resR (x : ErrCode) (i : Word) (s : State) :
    (recordError x i s).resR = s.resR := rfl
@[simp] theorem recordError_resG (x : ErrCode) (i : Word) (s : State) :
    (recordError x i s).resG = s.resG := rfl
@[simp] theorem recordError_resB (x : ErrCode) (i : Word) (s : State) :
    (recordError x i s).resB = s.resB := rfl
@[simp] theorem recordError_resN (x : ErrCode) (i : Word) (s : State) :
    (recordError x i s).resN = s.resN := rfl
@[simp] theorem recordError_dbgSel (x : ErrCode) (i : Word) (s : State) :
    (recordError x i s).dbgSel = s.dbgSel := rfl
@[simp] theorem recordError_engs (x : ErrCode) (i : Word) (s : State) :
    (recordError x i s).engs = s.engs := rfl
@[simp] theorem recordError_ctxs (x : ErrCode) (i : Word) (s : State) :
    (recordError x i s).ctxs = s.ctxs := rfl
@[simp] theorem recordError_pending (x : ErrCode) (i : Word) (s : State) :
    (recordError x i s).pending = s.pending := rfl
@[simp] theorem recordError_readData (x : ErrCode) (i : Word) (s : State) :
    (recordError x i s).readData = s.readData := rfl
@[simp] theorem recordError_err (x : ErrCode) (i : Word) (s : State) :
    (recordError x i s).err = true := rfl
@[simp] theorem recordError_errLast (x : ErrCode) (i : Word) (s : State) :
    (recordError x i s).errLast = BitVec.ofNat 8 x.code := rfl
@[simp] theorem recordError_eng (x : ErrCode) (i : Word) (s : State) (e : Idx) :
    (recordError x i s).eng e = s.eng e := rfl
@[simp] theorem recordError_ctx (x : ErrCode) (i : Word) (s : State) (c : Idx) :
    (recordError x i s).ctx c = s.ctx c := rfl
@[simp] theorem recordError_model (x : ErrCode) (i : Word) (s : State) (c : Idx) (σ : Slot) :
    (recordError x i s).model c σ = s.model c σ := rfl

/-! ### Engines, contexts and models after a write -/

@[simp] theorem State.eng_setEng_same (s : State) (e : Idx) (g : Engine) : (s.setEng e g).eng e = g := by
  simp [State.eng, State.setEng]

theorem State.eng_setEng_ne (s : State) {e f : Idx} (g : Engine) (h : f ≠ e) :
    (s.setEng e g).eng f = s.eng f := by
  have h' : e.toNat ≠ f.toNat := fun hh => h (BitVec.eq_of_toNat_eq hh.symm)
  simp [State.eng, State.setEng, h']

@[simp] theorem State.ctx_setEng (s : State) (e : Idx) (g : Engine) (c : Idx) :
    (s.setEng e g).ctx c = s.ctx c := rfl

@[simp] theorem State.model_setEng (s : State) (e : Idx) (g : Engine) (c : Idx) (σ : Slot) :
    (s.setEng e g).model c σ = s.model c σ := rfl

@[simp] theorem State.ctx_setCtx_same (s : State) (c : Idx) (x : Context) : (s.setCtx c x).ctx c = x := by
  simp [State.ctx, State.setCtx]

theorem State.ctx_setCtx_ne (s : State) {c d : Idx} (x : Context) (h : d ≠ c) :
    (s.setCtx c x).ctx d = s.ctx d := by
  have h' : c.toNat ≠ d.toNat := fun hh => h (BitVec.eq_of_toNat_eq hh.symm)
  simp [State.ctx, State.setCtx, h']

@[simp] theorem State.eng_setCtx (s : State) (c : Idx) (x : Context) (e : Idx) :
    (s.setCtx c x).eng e = s.eng e := rfl

@[simp] theorem Context.model_setModel_same (x : Context) (σ : Slot) (m : Model) :
    (x.setModel σ m).model σ = m := by
  simp [Context.model, Context.setModel]

theorem Context.model_setModel_ne (x : Context) {σ τ : Slot} (m : Model) (h : τ ≠ σ) :
    (x.setModel σ m).model τ = x.model τ := by
  have h' : σ.val ≠ τ.val := fun hh => h (Fin.ext hh.symm)
  simp [Context.model, Context.setModel, h']

@[simp] theorem Context.setModel_phase (x : Context) (σ : Slot) (m : Model) :
    (x.setModel σ m).phase = x.phase := rfl
@[simp] theorem Context.setModel_unused (x : Context) (σ : Slot) (m : Model) :
    (x.setModel σ m).unused = x.unused := rfl
@[simp] theorem Context.setModel_lastR (x : Context) (σ : Slot) (m : Model) :
    (x.setModel σ m).lastR = x.lastR := rfl
@[simp] theorem Context.setModel_lastG (x : Context) (σ : Slot) (m : Model) :
    (x.setModel σ m).lastG = x.lastG := rfl
@[simp] theorem Context.setModel_lastB (x : Context) (σ : Slot) (m : Model) :
    (x.setModel σ m).lastB = x.lastB := rfl
@[simp] theorem Context.setModel_lastN (x : Context) (σ : Slot) (m : Model) :
    (x.setModel σ m).lastN = x.lastN := rfl

@[simp] theorem State.ctx_setModel_same (s : State) (c : Idx) (σ : Slot) (m : Model) :
    (s.setModel c σ m).ctx c = (s.ctx c).setModel σ m := by
  simp [State.setModel]

theorem State.ctx_setModel_ne (s : State) {c d : Idx} (σ : Slot) (m : Model) (h : d ≠ c) :
    (s.setModel c σ m).ctx d = s.ctx d := by
  simp [State.setModel, State.ctx_setCtx_ne _ _ h]

@[simp] theorem State.model_setModel_same (s : State) (c : Idx) (σ : Slot) (m : Model) :
    (s.setModel c σ m).model c σ = m := by
  simp [State.model]

theorem State.model_setModel_ne (s : State) {c : Idx} {σ τ : Slot} (m : Model) (h : τ ≠ σ) :
    (s.setModel c σ m).model c τ = s.model c τ := by
  simp [State.model, Context.model_setModel_ne _ _ h]

@[simp] theorem State.eng_setModel (s : State) (c : Idx) (σ : Slot) (m : Model) (e : Idx) :
    (s.setModel c σ m).eng e = s.eng e := rfl

@[simp] theorem State.eng_streamRgb (s : State) (c : Idx) (p : Rgb) (e : Idx) :
    (s.streamRgb c p).eng e = s.eng e := rfl

@[simp] theorem State.eng_streamNir (s : State) (c : Idx) (v : Half) (e : Idx) :
    (s.streamNir c v).eng e = s.eng e := rfl

@[simp] theorem State.ctx_streamRgb_same (s : State) (c : Idx) (p : Rgb) :
    (s.streamRgb c p).ctx c
      = { s.ctx c with lastR := p.r, lastG := p.g, lastB := p.b, phase := .streaming } := by
  simp [State.streamRgb]

@[simp] theorem State.ctx_streamNir_same (s : State) (c : Idx) (v : Half) :
    (s.streamNir c v).ctx c = { s.ctx c with lastN := v, phase := .streaming } := by
  simp [State.streamNir]

theorem State.ctx_streamRgb_ne (s : State) {c d : Idx} (p : Rgb) (h : d ≠ c) :
    (s.streamRgb c p).ctx d = s.ctx d := by
  simp [State.streamRgb, State.ctx_setCtx_ne _ _ h]

theorem State.ctx_streamNir_ne (s : State) {c d : Idx} (v : Half) (h : d ≠ c) :
    (s.streamNir c v).ctx d = s.ctx d := by
  simp [State.streamNir, State.ctx_setCtx_ne _ _ h]

/-! ### A state is its engines, its contexts and the rest -/

theorem State.engs_ext {s t : State} (h : ∀ e, s.eng e = t.eng e) : s.engs = t.engs := by
  apply Vector.ext
  intro i hi
  simpa [State.eng, Nat.mod_eq_of_lt hi] using h (BitVec.ofNat 4 i)

theorem State.ctxs_ext {s t : State} (h : ∀ c, s.ctx c = t.ctx c) : s.ctxs = t.ctxs := by
  apply Vector.ext
  intro i hi
  simpa [State.ctx, Nat.mod_eq_of_lt hi] using h (BitVec.ofNat 4 i)

/-! ### After reset -/

@[simp] theorem State.resetOf_eng (b : Build) (e : Idx) : (State.resetOf b).eng e = Engine.reset := by
  simp [State.eng, State.resetOf]

@[simp] theorem State.resetOf_ctx (b : Build) (c : Idx) : (State.resetOf b).ctx c = Context.reset := by
  simp [State.ctx, State.resetOf]

end Sys2Proof.Machine
end

