-- ==== Sys2Proof/Laws/Ops.lean ====
section
/-! SUPPORT. For each shared operation, once, everything it can do: attempts, the end of a command, the stream
primitives, the renormalisations. Provers cite these instead of unfolding. -/

namespace Sys2Proof.Machine

/-! ### Attempts -/

@[simp] theorem attempt_ok_bind {α β : Type} (a : α) (f : α → Attempt β) : (Except.ok a >>= f) = f a := rfl

@[simp] theorem attempt_error_bind {α β : Type} (x : Stop) (f : α → Attempt β) :
    ((Except.error x : Attempt α) >>= f) = .error x := rfl

/-- A sequence completes iff its first part does and then the rest does. -/
theorem attempt_bind_eq_ok {α β : Type} {x : Attempt α} {f : α → Attempt β} {b : β} :
    (x >>= f) = .ok b ↔ ∃ a, x = .ok a ∧ f a = .ok b := by
  cases x with
  | ok a => simp
  | error y => simp

/-- A sequence stops iff its first part does, or completes and then the rest stops. -/
theorem attempt_bind_eq_error {α β : Type} {x : Attempt α} {f : α → Attempt β} {y : Stop} :
    (x >>= f) = .error y ↔ x = .error y ∨ ∃ a, x = .ok a ∧ f a = .error y := by
  cases x with
  | ok a => simp
  | error z => simp

@[simp] theorem require_true (x : ErrCode) : require true x = .ok () := rfl
@[simp] theorem require_false (x : ErrCode) : require false x = .error (.error x) := rfl

theorem require_eq_ok {p : Bool} {x : ErrCode} {u : Unit} : require p x = .ok u ↔ p = true := by
  cases p <;> simp

theorem require_eq_error {p : Bool} {x : ErrCode} {y : Stop} :
    require p x = .error y ↔ p = false ∧ y = .error x := by
  cases p <;> simp [eq_comm]

theorem requireMode_eq_ok {s : State} {e : Idx} {m : Mode} {u : Unit} :
    requireMode s e m = .ok u ↔ (s.eng e).mode = m := by
  simp [requireMode, require_eq_ok]

theorem requireInit_eq_ok {s : State} {c : Idx} {u : Unit} :
    requireInit s c = .ok u ↔ (s.ctx c).phase ≠ .uninit := by
  simp [requireInit, require_eq_ok]

theorem requireNir_eq_ok {s : State} {c : Idx} {u : Unit} :
    requireNir s c = .ok u ↔ s.build.kind c = .colorNir := by
  simp [requireNir, require_eq_ok]

/-! ### Indices -/

theorem ctxValid_eq_hasCtx (b : Build) (c : Idx) : ctxValid b c = b.hasCtx c := rfl

theorem engValid_eq_hasEng (b : Build) (e : Idx) : engValid b e = b.hasEng e := rfl

theorem slotOf_eq_some {b : Build} {c i : Idx} {σ : Slot} :
    slotOf b c i = some σ ↔ i.toNat = σ.val ∧ σ.val < slotCount (b.kind c) := by
  unfold slotOf
  split
  · rename_i h
    split
    · rename_i h'
      simp only [Option.some.injEq, Fin.ext_iff]
      exact ⟨fun e => ⟨e, e ▸ h'⟩, fun e => e.1⟩
    · rename_i h'
      simp only [reduceCtorEq, false_iff, not_and]
      exact fun e => e ▸ h'
  · rename_i h
    simp only [reduceCtorEq, false_iff, not_and]
    exact fun e => absurd (e ▸ σ.isLt) h

theorem slotOf_isSome_eq_hasSlot (b : Build) (c i : Idx) : (slotOf b c i).isSome = b.hasSlot c i := by
  unfold slotOf Build.hasSlot
  cases b.kind c <;> by_cases h : i.toNat < 10 <;> by_cases h' : i.toNat < 7
    <;> simp [slotCount, h, h'] <;> omega

theorem requireSlot_eq_ok {s : State} {c i : Idx} {σ : Slot} :
    requireSlot s c i = .ok σ ↔ i.toNat = σ.val ∧ σ.val < slotCount (s.build.kind c) := by
  rw [← slotOf_eq_some]
  unfold requireSlot
  split <;> simp_all

/-! ### The end of a command -/

@[simp] theorem finish_ok (s t : State) : finish s (.ok t) = .next { t with held := none } := rfl
@[simp] theorem finish_error (s : State) (x : ErrCode) :
    finish s (.error (.error x)) = .next (errorState x s) := rfl
@[simp] theorem finish_hold (s : State) :
    finish s (.error .hold) = .next { s with held := some (latchOf s) } := rfl
@[simp] theorem finish_diverge (s : State) : finish s (.error .diverge) = .fault .renormDiverges := rfl

/-- Everything a command can leave when it gives a next state. -/
theorem finish_next_cases {s t : State} {a : Attempt State} (h : finish s a = .next t) :
    (∃ u, a = .ok u ∧ t = { u with held := none })
    ∨ (∃ x, a = .error (.error x) ∧ t = errorState x s)
    ∨ (a = .error .hold ∧ t = { s with held := some (latchOf s) }) := by
  match a, h with
  | .ok u, h => exact .inl ⟨u, rfl, by simpa [eq_comm] using h⟩
  | .error (.error x), h => exact .inr (.inl ⟨x, rfl, by simpa [eq_comm] using h⟩)
  | .error .hold, h => exact .inr (.inr ⟨rfl, by simpa [eq_comm] using h⟩)
  | .error .diverge, h => simp at h

/-- A command never refuses, and faults only when a renormalisation has no end. -/
theorem finish_cases (s : State) (a : Attempt State) :
    (∃ t, finish s a = .next t) ∨ (a = .error .diverge ∧ finish s a = .fault .renormDiverges) := by
  match a with
  | .ok u => exact .inl ⟨_, rfl⟩
  | .error (.error x) => exact .inl ⟨_, rfl⟩
  | .error .hold => exact .inl ⟨_, rfl⟩
  | .error .diverge => exact .inr ⟨rfl, rfl⟩

/-! ### Stream primitives -/

/-- Everything `StreamAppend` can do. -/
theorem streamAppend_cases (cap : Option Nat) (b : Byte) (g : Engine) :
    (streamAppend cap b g = .ok { g with out := g.out ++ [b] } ∧ ∀ n, cap = some n → g.out.length < n)
    ∨ (streamAppend cap b g = .error (.error .outOverflow) ∧ ∃ n, cap = some n ∧ n ≤ g.out.length) := by
  cases cap with
  | none => exact .inl ⟨rfl, by simp⟩
  | some n =>
    by_cases h : n ≤ g.out.length
    · exact .inr ⟨by simp [streamAppend, h], n, rfl, h⟩
    · exact .inl ⟨by simp [streamAppend, h], by intro m hm; cases hm; omega⟩

theorem carryReversed_length {bs cs : List Byte} (h : carryReversed bs = some cs) :
    cs.length = bs.length := by
  induction bs generalizing cs with
  | nil => simp [carryReversed] at h
  | cons b rest ih =>
    unfold carryReversed at h
    split at h
    · simp only [Option.map_eq_some_iff] at h
      obtain ⟨ds, hd, rfl⟩ := h
      simp [ih hd]
    · cases h
      simp

theorem carryReversed_eq_none {bs : List Byte} : carryReversed bs = none ↔ ∀ b ∈ bs, b = 0xFF := by
  induction bs with
  | nil => simp [carryReversed]
  | cons b rest ih =>
    unfold carryReversed
    split
    · rename_i h
      simp [ih, h]
    · rename_i h
      simp only [reduceCtorEq, List.mem_cons, forall_eq_or_imp, false_iff, not_and]
      exact fun hb => absurd hb h

/-- Everything `StreamCarry` can do to the shape of the buffer. -/
theorem streamCarry_cases (g : Engine) :
    (∃ bs, streamCarry g = .ok { g with out := bs } ∧ bs.length = g.out.length)
    ∨ (streamCarry g = .error (.error .internalCarry) ∧ ∀ b ∈ g.out, b = 0xFF) := by
  unfold streamCarry
  cases h : carryReversed g.out.reverse with
  | none => exact .inr ⟨rfl, by simpa using carryReversed_eq_none.mp h⟩
  | some cs => exact .inl ⟨cs.reverse, rfl, by simpa using carryReversed_length h⟩

/-- Everything `StreamRead` can do. -/
theorem streamRead_cases (e : Idx) (g : Engine) :
    (g.inPtr.toNat < g.input.length
      ∧ streamRead e g = .ok (g.input.getD g.inPtr.toNat 0, { g with inPtr := g.inPtr + 1 }))
    ∨ (g.input.length ≤ g.inPtr.toNat ∧ g.eos = true
      ∧ streamRead e g
          = .ok (Config.eosDraw e g.draws, { g with underrun := true, draws := g.draws + 1 }))
    ∨ (g.input.length ≤ g.inPtr.toNat ∧ g.eos = false ∧ streamRead e g = .error .hold) := by
  unfold streamRead
  split
  · exact .inl ⟨by assumption, rfl⟩
  · split
    · exact .inr (.inl ⟨by omega, by assumption, rfl⟩)
    · rename_i h
      exact .inr (.inr ⟨by omega, by simpa using h, rfl⟩)

/-! ### Numbers of byte sequences -/

theorem bytesValue_append (bs : List Byte) (b : Byte) :
    bytesValue (bs ++ [b]) = 256 * bytesValue bs + b.toNat := by
  simp [bytesValue]

theorem bytesValue_lt (bs : List Byte) : bytesValue bs < 256 ^ bs.length := by
  induction bs using List.reverseRecOn with
  | nil => simp [bytesValue]
  | append_singleton bs b ih =>
    rw [bytesValue_append, List.length_append, List.length_singleton, Nat.pow_succ]
    have := b.isLt
    omega

end Sys2Proof.Machine
end

