-- ==== Sys2Proof/Laws/Coder.lean ====
section
/-! SUPPORT. What the coder primitives leave alone, and how a symbol on a state comes from a symbol on one
engine and one model. -/

namespace Sys2Proof.Machine

theorem EncoderFrame.refl (g : Engine) : EncoderFrame g g := rfl

theorem EncoderFrame.trans {g h k : Engine} (a : EncoderFrame g h) (b : EncoderFrame h k) :
    EncoderFrame g k := by
  unfold EncoderFrame at *
  rw [a] at b
  exact b

theorem DecoderFrame.refl (g : Engine) : DecoderFrame g g := rfl

theorem DecoderFrame.trans {g h k : Engine} (a : DecoderFrame g h) (b : DecoderFrame h k) :
    DecoderFrame g k := by
  unfold DecoderFrame at *
  rw [a] at b
  exact b

theorem streamAppend_frame {cap : Option Nat} {b : Byte} {g h : Engine}
    (hh : streamAppend cap b g = .ok h) : EncoderFrame g h := by
  rcases streamAppend_cases cap b g with ⟨hc, -⟩ | ⟨hc, -⟩ <;> rw [hc] at hh <;> cases hh
  rfl

theorem streamCarry_frame {g h : Engine} (hh : streamCarry g = .ok h) : EncoderFrame g h := by
  rcases streamCarry_cases g with ⟨bs, hc, -⟩ | ⟨hc, -⟩ <;> rw [hc] at hh <;> cases hh
  rfl

theorem streamRead_frame {e : Idx} {g h : Engine} {b : Byte} (hh : streamRead e g = .ok (b, h)) :
    DecoderFrame g h := by
  rcases streamRead_cases e g with ⟨-, hc⟩ | ⟨-, -, hc⟩ | ⟨-, -, hc⟩ <;> rw [hc] at hh <;> cases hh <;> rfl

theorem renormEncLoop_frame {cap : Option Nat} {fuel : Nat} {g h : Engine}
    (hh : renormEncLoop cap fuel g = .ok h) : EncoderFrame g h := by
  induction fuel generalizing g with
  | zero => simp [renormEncLoop] at hh
  | succ n ih =>
    simp only [renormEncLoop, attempt_bind_eq_ok] at hh
    obtain ⟨a, ha, hb⟩ := hh
    have step : EncoderFrame g { a with base := a.base <<< 8, length := a.length <<< 8 } :=
      (streamAppend_frame ha).trans rfl
    split at hb
    · exact step.trans (ih hb)
    · cases hb
      exact step

theorem renormDecLoop_frame {e : Idx} {fuel : Nat} {g h : Engine}
    (hh : renormDecLoop e fuel g = .ok h) : DecoderFrame g h := by
  induction fuel generalizing g with
  | zero => simp [renormDecLoop] at hh
  | succ n ih =>
    simp only [renormDecLoop, attempt_bind_eq_ok] at hh
    obtain ⟨⟨b, a⟩, ha, hb⟩ := hh
    have step : DecoderFrame g
        { a with value := (a.value <<< 8) ||| b.setWidth 32, length := a.length <<< 8 } :=
      (streamRead_frame ha).trans rfl
    split at hb
    · exact step.trans (ih hb)
    · cases hb
      exact step

theorem carryIfWrapped_frame {b0 : Word} {g h : Engine} (hh : carryIfWrapped b0 g = .ok h) :
    EncoderFrame g h := by
  unfold carryIfWrapped at hh
  split at hh
  · exact streamCarry_frame hh
  · cases hh
    rfl

theorem renormEncIfLow_frame {cap : Option Nat} {g h : Engine} (hh : renormEncIfLow cap g = .ok h) :
    EncoderFrame g h := by
  unfold renormEncIfLow at hh
  split at hh
  · exact renormEncLoop_frame hh
  · cases hh
    rfl

theorem renormDecIfLow_frame {e : Idx} {g h : Engine} (hh : renormDecIfLow e g = .ok h) :
    DecoderFrame g h := by
  unfold renormDecIfLow at hh
  split at hh
  · exact renormDecLoop_frame hh
  · cases hh
    rfl

/-- `EncodeSymbol` on an engine and a model: the model adapts, and of the engine only the coder's own fields
change. -/
theorem encodeWith_ok {cap : Option Nat} {n k : Nat} {g g' : Engine} {m m' : Model}
    (hh : encodeWith cap n k g m = .ok (g', m')) : m' = Model.adapt n m k ∧ EncoderFrame g g' := by
  simp only [encodeWith, attempt_bind_eq_ok] at hh
  obtain ⟨a, ha, b, hb, hc⟩ := hh
  cases hc
  refine ⟨rfl, ?_⟩
  have start : EncoderFrame g a := EncoderFrame.trans (h := { g with
    base := g.base + m.distAt k * quotLength g
    length := narrowLength n m k g (m.distAt k * quotLength g) }) rfl (carryIfWrapped_frame ha)
  exact start.trans (renormEncIfLow_frame hb)

/-- `DecodeSymbol` on an engine and a model: it finds the symbol of the search, the model adapts to it, and of
the engine only the decoder's own fields change. -/
theorem decodeWith_ok {e : Idx} {n : Nat} {g g' : Engine} {m m' : Model} {k : Byte}
    (hh : decodeWith e n g m = .ok (k, g', m')) :
    k = BitVec.ofNat 8 (findSymbol m (quotLength g) g.value (n - 1))
    ∧ m' = Model.adapt n m (findSymbol m (quotLength g) g.value (n - 1)) ∧ DecoderFrame g g' := by
  simp only [decodeWith, attempt_bind_eq_ok] at hh
  obtain ⟨b, hb, hc⟩ := hh
  cases hc
  refine ⟨rfl, rfl, ?_⟩
  exact DecoderFrame.trans (h := { g with
    value := g.value - m.distAt (findSymbol m (quotLength g) g.value (n - 1)) * quotLength g
    length := narrowLength n m (findSymbol m (quotLength g) g.value (n - 1)) g
      (m.distAt (findSymbol m (quotLength g) g.value (n - 1)) * quotLength g) })
    rfl (renormDecIfLow_frame hb)

/-- `EncodeSymbol` on a state is `EncodeSymbol` on its engine and its model, both written back. -/
theorem encodeSymbol_eq_ok {c e : Idx} {σ : Slot} {k : Byte} {s t : State} :
    encodeSymbol c e σ k s = .ok t ↔
      ∃ g m, encodeWith (s.build.outCapOf e) (slotSyms s.build.profile σ) k.toNat (s.eng e) (s.model c σ)
          = .ok (g, m) ∧ t = (s.setEng e g).setModel c σ m := by
  simp only [encodeSymbol, attempt_bind_eq_ok, Prod.exists, Except.ok.injEq]
  constructor
  · rintro ⟨g, m, h, rfl⟩
    exact ⟨g, m, h, rfl⟩
  · rintro ⟨g, m, h, rfl⟩
    exact ⟨g, m, h, rfl⟩

/-- `DecodeSymbol` on a state is `DecodeSymbol` on its engine and its model, both written back. -/
theorem decodeSymbol_eq_ok {c e : Idx} {σ : Slot} {k : Byte} {s t : State} :
    decodeSymbol c e σ s = .ok (k, t) ↔
      ∃ g m, decodeWith e (slotSyms s.build.profile σ) (s.eng e) (s.model c σ) = .ok (k, g, m)
        ∧ t = (s.setEng e g).setModel c σ m := by
  simp only [decodeSymbol, attempt_bind_eq_ok, Prod.exists, Except.ok.injEq, Prod.mk.injEq]
  constructor
  · rintro ⟨a, g, m, h, rfl, rfl⟩
    exact ⟨g, m, h, rfl⟩
  · rintro ⟨g, m, h, rfl⟩
    exact ⟨k, g, m, h, rfl, rfl⟩

/-- Writing back one engine and one model slot changes nothing else. -/
theorem onlyCoded_write (s : State) (c e : Idx) (σ : Slot) (g : Engine) (m : Model) :
    OnlyCoded c e (· = σ) s ((s.setEng e g).setModel c σ m) where
  registers := rfl
  engines := fun e' h => by simp [State.eng_setEng_ne _ _ h]
  contexts := fun c' h => by simp [State.ctx_setModel_ne _ _ _ h]
  context := by simp [Context.setModel]
  models := fun τ h => by simp [State.model_setModel_ne _ _ h]

/-- The frame of `OnlyCoded` widens with its slots. -/
theorem OnlyCoded.mono {c e : Idx} {P Q : Slot → Prop} {s t : State} (h : OnlyCoded c e P s t)
    (hPQ : ∀ σ, P σ → Q σ) : OnlyCoded c e Q s t where
  registers := h.registers
  engines := h.engines
  contexts := h.contexts
  context := h.context
  models := fun σ hq => h.models σ fun hp => hq (hPQ σ hp)

theorem OnlyCoded.refl (c e : Idx) (P : Slot → Prop) (s : State) : OnlyCoded c e P s s where
  registers := rfl
  engines := fun _ _ => rfl
  contexts := fun _ _ => rfl
  context := rfl
  models := fun _ _ => rfl

theorem OnlyCoded.trans {c e : Idx} {P : Slot → Prop} {s t u : State} (h : OnlyCoded c e P s t)
    (k : OnlyCoded c e P t u) : OnlyCoded c e P s u where
  registers := by
    have a := k.registers
    rw [h.registers] at a
    exact a
  engines := fun e' he => (k.engines e' he).trans (h.engines e' he)
  contexts := fun c' hc => (k.contexts c' hc).trans (h.contexts c' hc)
  context := by
    have a := k.context
    rw [h.context] at a
    exact a
  models := fun σ hP => (k.models σ hP).trans (h.models σ hP)

/-! ### The search -/

/-- The search stays in its range. -/
theorem findSymbol_le (m : Model) (lq v : Word) (top : Nat) : findSymbol m lq v top ≤ top := by
  induction top with
  | zero => simp [findSymbol]
  | succ n ih =>
    unfold findSymbol
    split
    · exact Nat.le_refl _
    · omega

/-- What the search finds starts at or below the value, or is symbol 0. -/
theorem findSymbol_found (m : Model) (lq v : Word) (top : Nat) :
    findSymbol m lq v top = 0 ∨ m.distAt (findSymbol m lq v top) * lq ≤ v := by
  induction top with
  | zero => exact .inl rfl
  | succ n ih =>
    unfold findSymbol
    split
    · exact .inr (by assumption)
    · exact ih

/-- Every later symbol starts above the value. -/
theorem findSymbol_later (m : Model) (lq v : Word) (top j : Nat) (h : findSymbol m lq v top < j)
    (hj : j ≤ top) : v < m.distAt j * lq := by
  induction top with
  | zero => omega
  | succ n ih =>
    unfold findSymbol at h
    split at h
    · omega
    · rename_i hc
      rcases Nat.lt_or_ge n j with hn | hn
      · have : j = n + 1 := by omega
        subst this
        exact BitVec.not_le.mp hc
      · exact ih h hn

/-! ### Sequences of symbols in one context -/

/-- One symbol coded on a state touches its engine and its model slot only. -/
theorem encodeSymbol_onlyCoded {c e : Idx} {σ : Slot} {k : Byte} {s t : State}
    (h : encodeSymbol c e σ k s = .ok t) :
    OnlyCoded c e (· = σ) s t ∧ EncoderFrame (s.eng e) (t.eng e) := by
  obtain ⟨g, m, hw, rfl⟩ := encodeSymbol_eq_ok.mp h
  exact ⟨onlyCoded_write s c e σ g m, by simpa using (encodeWith_ok hw).2⟩

/-- One symbol decoded on a state touches its engine and its model slot only. -/
theorem decodeSymbol_onlyCoded {c e : Idx} {σ : Slot} {k : Byte} {s t : State}
    (h : decodeSymbol c e σ s = .ok (k, t)) :
    OnlyCoded c e (· = σ) s t ∧ DecoderFrame (s.eng e) (t.eng e) := by
  obtain ⟨g, m, hw, rfl⟩ := decodeSymbol_eq_ok.mp h
  exact ⟨onlyCoded_write s c e σ g m, by simpa using (decodeWith_ok hw).2.2⟩

/-- A list of symbols touches its engine and the slots it names only. -/
theorem encodeAll_onlyCoded {c e : Idx} {P : Slot → Prop} {syms : List (Slot × Byte)} {s t : State}
    (hP : ∀ x ∈ syms, P x.1) (h : encodeAll c e syms s = .ok t) :
    OnlyCoded c e P s t ∧ EncoderFrame (s.eng e) (t.eng e) := by
  induction syms generalizing s with
  | nil =>
    cases h
    exact ⟨OnlyCoded.refl c e P _, rfl⟩
  | cons x rest ih =>
    obtain ⟨σ, k⟩ := x
    simp only [encodeAll, attempt_bind_eq_ok] at h
    obtain ⟨u, hu, hr⟩ := h
    have one := encodeSymbol_onlyCoded hu
    have more := ih (fun y hy => hP y (List.mem_cons_of_mem _ hy)) hr
    refine ⟨(one.1.mono fun τ ht => ?_).trans more.1, one.2.trans more.2⟩
    subst ht
    exact hP (τ, k) List.mem_cons_self

end Sys2Proof.Machine
end

