-- ==== Sys2Proof/Laws/Model.lean ====
section
/-! SUPPORT. Lemmas of the adaptive model: what an update and an adaptation do to each field, and that the
three fresh models are sound. -/

namespace Sys2Proof.Machine

@[simp] theorem countTotal_nil : countTotal [] = 0 := rfl

@[simp] theorem countTotal_cons (c : Word) (cs : List Word) :
    countTotal (c :: cs) = c.toNat + countTotal cs := by
  simp [countTotal]

@[simp] theorem cumulative_length (scale sum : Word) (cs : List Word) :
    (cumulative scale sum cs).length = cs.length := by
  induction cs generalizing sum with
  | nil => rfl
  | cons c cs ih => simp [cumulative, ih]

@[simp] theorem halveCounts_length (cs : List Word) : (halveCounts cs).length = cs.length := by
  simp [halveCounts]

@[simp] theorem Model.rescale_cycle (m : Model) : m.rescale.cycle = m.cycle := by
  unfold Model.rescale
  split <;> rfl

theorem Model.rescale_count_length (m : Model) : m.rescale.count.length = m.count.length := by
  unfold Model.rescale
  split <;> simp

@[simp] theorem Model.retable_count (n : Nat) (m : Model) : (Model.retable n m).count = m.count := rfl
@[simp] theorem Model.retable_total (n : Nat) (m : Model) : (Model.retable n m).total = m.total := rfl
@[simp] theorem Model.retable_cycle (n : Nat) (m : Model) :
    (Model.retable n m).cycle = nextCycle n m.cycle := rfl
@[simp] theorem Model.retable_untilUpdate (n : Nat) (m : Model) :
    (Model.retable n m).untilUpdate = nextCycle n m.cycle := rfl
@[simp] theorem Model.retable_dist (n : Nat) (m : Model) :
    (Model.retable n m).dist = cumulative (0x80000000 / m.total) 0 m.count := rfl

/-- After an update the countdown starts at the new period. -/
theorem Model.update_untilUpdate (n : Nat) (m : Model) :
    (Model.update n m).untilUpdate = (Model.update n m).cycle := rfl

theorem Model.update_count_length (n : Nat) (m : Model) :
    (Model.update n m).count.length = m.count.length := by
  simp [Model.update, Model.rescale_count_length]

theorem Model.update_dist_length (n : Nat) (m : Model) :
    (Model.update n m).dist.length = m.count.length := by
  simp [Model.update, Model.rescale_count_length]

/-- Everything an adaptation can do: count and count down, and at the end of a period update. -/
theorem Model.adapt_cases (n : Nat) (m : Model) (k : Nat) :
    (m.untilUpdate ≠ 1 ∧ Model.adapt n m k = { m with
      count := m.count.set k (m.countAt k + 1), untilUpdate := m.untilUpdate - 1 })
    ∨ (m.untilUpdate = 1 ∧ Model.adapt n m k = Model.update n { m with
      count := m.count.set k (m.countAt k + 1), untilUpdate := 0 }) := by
  by_cases h : m.untilUpdate = 1
  · exact .inr ⟨h, by simp [Model.adapt, h]⟩
  · have h' : m.untilUpdate - 1 ≠ 0 := by bv_omega
    exact .inl ⟨h, by
      simp only [Model.adapt]
      rw [if_neg h']⟩

/-- An adaptation keeps the number of counts. -/
theorem Model.adapt_count_length (n : Nat) (m : Model) (k : Nat) :
    (Model.adapt n m k).count.length = m.count.length := by
  rcases Model.adapt_cases n m k with ⟨-, h⟩ | ⟨-, h⟩ <;> simp [h, Model.update_count_length]

/-! ### Fresh models are sound -/

/-- The cumulative table of equal counts rises in equal steps. -/
theorem cumulative_ones (scale sum : Word) (n k : Nat) (h : k < n) :
    (cumulative scale sum (List.replicate n 1)).getD k 0
      = (scale * (sum + BitVec.ofNat 32 k)) >>> 16 := by
  induction n generalizing sum k with
  | zero => omega
  | succ n ih =>
    rw [List.replicate_succ, cumulative]
    cases k with
    | zero => simp
    | succ k =>
      rw [List.getD_cons_succ, ih (sum + 1) k (by omega)]
      congr 2
      rw [BitVec.ofNat_add, BitVec.add_assoc, BitVec.add_comm 1]
      rfl

theorem countTotal_ones (n : Nat) : countTotal (List.replicate n 1) = n := by
  induction n with
  | zero => rfl
  | succ n ih => rw [List.replicate_succ, countTotal_cons, ih]; simp; omega

/-- A fresh model whose alphabet size divides `2^31` into a step of at least `2^16` is sound. -/
theorem Model.ok_of_fresh (n step : Nat) (hn : 1 ≤ n) (hn' : n ≤ 256) (hs : n * step = 2 ^ 15)
    (count : (Model.fresh n).count = List.replicate n 1)
    (dist : (Model.fresh n).dist
      = cumulative (BitVec.ofNat 32 (step * 2 ^ 16)) 0 (List.replicate n 1))
    (total : (Model.fresh n).total = BitVec.ofNat 32 n)
    (cycle : (Model.fresh n).cycle = BitVec.ofNat 32 ((n + 6) / 2))
    (untilEq : (Model.fresh n).untilUpdate = (Model.fresh n).cycle) : (Model.fresh n).Ok n := by
  have at_ (k : Nat) (hk : k < n) : ((Model.fresh n).distAt k).toNat = step * k := by
    have h1 : step * k < 2 ^ 15 := by nlinarith
    have h2 : step * 2 ^ 16 < 2 ^ 32 := by nlinarith
    rw [Model.distAt, dist, cumulative_ones _ _ _ _ hk]
    simp only [BitVec.toNat_ushiftRight, BitVec.toNat_mul, BitVec.toNat_add, BitVec.toNat_ofNat,
      BitVec.ofNat_eq_ofNat, Nat.zero_mod, Nat.zero_add]
    have h3 : step * 2 ^ 16 * k = step * k * 2 ^ 16 := by ring
    have hk' : k % 2 ^ 32 = k := Nat.mod_eq_of_lt (by omega)
    simp only [hk', Nat.mod_eq_of_lt h2, Nat.shiftRight_eq_div_pow, h3]
    omega
  have cy : (Model.fresh n).cycle.toNat = (n + 6) / 2 := by
    rw [cycle, BitVec.toNat_ofNat, Nat.mod_eq_of_lt (by omega)]
  have tt : (Model.fresh n).total.toNat = n := by
    rw [total, BitVec.toNat_ofNat, Nat.mod_eq_of_lt (by omega)]
  have hstep : 1 ≤ step := by
    rcases Nat.eq_zero_or_pos step with rfl | h
    · simp at hs
    · exact h
  exact {
    countLength := by rw [count, List.length_replicate]
    distLength := by rw [dist, cumulative_length, List.length_replicate]
    countPos := by
      intro x hx
      rw [count] at hx
      rw [List.eq_of_mem_replicate hx]
      decide
    distZero := by
      apply BitVec.eq_of_toNat_eq
      rw [at_ 0 (by omega)]
      rfl
    distIncreasing := fun k hk => by
      rw [BitVec.lt_def, at_ k (by omega), at_ (k + 1) hk]
      nlinarith
    distBelow := fun k hk => by
      rw [at_ k hk]
      nlinarith
    totalLe := by omega
    untilPos := by rw [untilEq, cy]; omega
    untilLe := by rw [untilEq]
    cycleLe := by omega
    countSum := by rw [count, countTotal_ones, untilEq, tt] }

theorem Model.fresh_ok_128 : (Model.fresh 128).Ok 128 :=
  Model.ok_of_fresh 128 256 (by decide) (by decide) (by decide) rfl rfl rfl rfl rfl

theorem Model.fresh_ok_256 : (Model.fresh 256).Ok 256 :=
  Model.ok_of_fresh 256 128 (by decide) (by decide) (by decide) rfl rfl rfl rfl rfl

theorem Model.fresh_ok_4 : (Model.fresh 4).Ok 4 :=
  Model.ok_of_fresh 4 8192 (by decide) (by decide) (by decide) rfl rfl rfl rfl rfl

/-- Every slot's fresh model is sound, in both profiles. -/
theorem Model.fresh_ok (p : Profile) (σ : Slot) : (Model.fresh (slotSyms p σ)).Ok (slotSyms p σ) := by
  unfold slotSyms
  split
  · exact Model.fresh_ok_128
  · split
    · cases p
      · exact Model.fresh_ok_128
      · exact Model.fresh_ok_4
    · exact Model.fresh_ok_256

end Sys2Proof.Machine
end

