-- ==== Sys2Proof/Laws/Context.lean ====
section
/-! SUPPORT. Lemmas of the context: what seeding leaves, how many symbols a point has, and that the symbols of
a point stay in the context's slots and in their alphabets. -/

namespace Sys2Proof.Machine

@[simp] theorem initModel_phase (p : Profile) (x : Context) (σ : Slot) :
    (initModel p x σ).phase = x.phase := rfl
@[simp] theorem initModel_unused (p : Profile) (x : Context) (σ : Slot) :
    (initModel p x σ).unused = x.unused := rfl
@[simp] theorem initModel_lastR (p : Profile) (x : Context) (σ : Slot) :
    (initModel p x σ).lastR = x.lastR := rfl
@[simp] theorem initModel_lastG (p : Profile) (x : Context) (σ : Slot) :
    (initModel p x σ).lastG = x.lastG := rfl
@[simp] theorem initModel_lastB (p : Profile) (x : Context) (σ : Slot) :
    (initModel p x σ).lastB = x.lastB := rfl
@[simp] theorem initModel_lastN (p : Profile) (x : Context) (σ : Slot) :
    (initModel p x σ).lastN = x.lastN := rfl
@[simp] theorem initModel_same (p : Profile) (x : Context) (σ : Slot) :
    (initModel p x σ).model σ = Model.fresh (slotSyms p σ) := by
  simp [initModel]

theorem initModel_ne (p : Profile) (x : Context) {σ τ : Slot} (h : τ ≠ σ) :
    (initModel p x σ).model τ = x.model τ := Context.model_setModel_ne x _ h

/-- Initialising a list of slots makes each of them fresh. -/
theorem foldl_initModel_mem (p : Profile) (x : Context) (σs : List Slot) {τ : Slot} (h : τ ∈ σs) :
    (σs.foldl (initModel p) x).model τ = Model.fresh (slotSyms p τ) := by
  induction σs using List.reverseRecOn with
  | nil => simp at h
  | append_singleton σs σ ih =>
    rw [List.foldl_append, List.foldl_cons, List.foldl_nil]
    by_cases hτ : τ = σ
    · subst hτ
      simp
    · rw [initModel_ne _ _ hτ]
      simp only [List.mem_append, List.mem_singleton, hτ, or_false] at h
      exact ih h

/-- Initialising a list of slots leaves every other one. -/
theorem foldl_initModel_not_mem (p : Profile) (x : Context) (σs : List Slot) {τ : Slot} (h : τ ∉ σs) :
    (σs.foldl (initModel p) x).model τ = x.model τ := by
  induction σs generalizing x with
  | nil => rfl
  | cons σ σs ih =>
    simp only [List.mem_cons, not_or] at h
    rw [List.foldl_cons, ih _ h.2, initModel_ne _ _ h.1]

theorem mem_slotsOf (k : Kind) (σ : Slot) : σ ∈ slotsOf k ↔ σ.val < slotCount k := by
  revert σ
  cases k <;> decide

/-- The models of a seeded context. -/
theorem seedContext_model (p : Profile) (k : Kind) (rgb : Rgb) (nir : Half) (x : Context) (σ : Slot) :
    (seedContext p k rgb nir x).model σ
      = if σ.val < slotCount k then Model.fresh (slotSyms p σ) else x.model σ := by
  split
  · exact foldl_initModel_mem p x _ ((mem_slotsOf k σ).mpr (by assumption))
  · exact foldl_initModel_not_mem p x _ fun h => absurd ((mem_slotsOf k σ).mp h) (by assumption)

/-- A seeded context is sound. -/
theorem seedContext_modelsOk (p : Profile) (k : Kind) (rgb : Rgb) (nir : Half) (x : Context) :
    (seedContext p k rgb nir x).ModelsOk p k := by
  intro σ h
  rw [seedContext_model, if_pos h]
  exact Model.fresh_ok p σ

theorem seedContext_ok (p : Profile) (k : Kind) (rgb : Rgb) (nir : Half) (x : Context) :
    (seedContext p k rgb nir x).Ok p k where
  models := fun _ => seedContext_modelsOk p k rgb nir x
  unusedIff := by simp [seedContext]

theorem reset_context_ok (p : Profile) (k : Kind) : Context.reset.Ok p k where
  models := fun h => absurd rfl h
  unusedIff := by simp [Context.reset]

theorem reset_engine_ok (outCap inCap : Option Nat) : Engine.reset.Ok outCap inCap where
  encOk := fun h => by cases h
  decLength := fun h => by cases h
  inPtrLe := by decide
  outFits := fun _ _ => by simp [Engine.reset]
  inFits := fun _ _ => by simp [Engine.reset]

/-! ### The symbols of a point -/

theorem mem_symbolIf {on : Bool} {σ : Slot} {k : Byte} {x : Slot × Byte} :
    x ∈ symbolIf on σ k ↔ on = true ∧ x = (σ, k) := by
  cases on <;> simp [symbolIf]

/-- Every symbol of a point goes to a colour slot. -/
theorem rgbSymbols_slot {pr : Profile} {l p : Rgb} {x : Slot × Byte} (h : x ∈ rgbSymbols pr l p) :
    x.1.val < 7 := by
  simp only [rgbSymbols, List.cons_append, List.append_assoc, List.mem_cons, List.mem_append,
    mem_symbolIf] at h
  rcases h with rfl | ⟨-, rfl⟩ | ⟨-, rfl⟩ | h
  · simp
  · simp
  · simp
  · split at h
    · cases pr <;> simp only [chromaSymbols, List.append_assoc, List.mem_append, mem_symbolIf] at h <;>
        rcases h with ⟨-, rfl⟩ | ⟨-, rfl⟩ | ⟨-, rfl⟩ | ⟨-, rfl⟩ <;> simp
    · simp at h

/-- Every symbol of a near-infrared value goes to a near-infrared slot. -/
theorem nirSymbols_slot {l v : Half} {x : Slot × Byte} (h : x ∈ nirSymbols l v) : 7 ≤ x.1.val := by
  simp only [nirSymbols, List.cons_append, List.mem_cons, List.mem_append, mem_symbolIf] at h
  rcases h with rfl | ⟨-, rfl⟩ | ⟨-, rfl⟩ <;> simp

end Sys2Proof.Machine
end

