-- ==== Sys2Proof/Laws/HostAccess.lean ====
section
/-! SUPPORT. What a step does for each kind of host access, said once: a step at a bus address of the block is
the access at its offset, and one elsewhere leaves the block. -/

namespace Sys2Proof.Machine

/-- Every offset's bus address stands for that offset. -/
@[simp] theorem offsetAt_busAddr (b : Build) (off : BitVec 12) : offsetAt b (busAddr b off) = some off := by
  unfold offsetAt busAddr
  have h : off.toNat < 0x1000 := off.isLt
  rw [if_pos ⟨by omega, by omega⟩, Nat.add_sub_cancel_left, BitVec.ofNat_toNat, BitVec.setWidth_eq]

/-- An address below or past the register space stands for no offset. -/
theorem offsetAt_eq_none {b : Build} {addr : Nat} (h : addr < b.aceBase ∨ b.aceBase + 0x1000 ≤ addr) :
    offsetAt b addr = none :=
  if_neg (by omega)

theorem step_idle {s : State} (h : s.pending = []) : step s = .next s := by
  simp [step, h]

theorem step_read {s : State} {off : BitVec 12} {width : Width} {rest : List Access}
    (h : s.pending = .read (busAddr s.build off) width :: rest) :
    step s = .next (hostRead off width { s with pending := rest }) := by
  simp [step, h, perform]

theorem step_write {s : State} {off : BitVec 12} {width : Width} {v : Word} {rest : List Access}
    (h : s.pending = .write (busAddr s.build off) width v :: rest) :
    step s = hostWrite off width v { s with pending := rest } := by
  simp [step, h, perform]

theorem step_reset {s : State} {rest : List Access} (h : s.pending = .reset :: rest) :
    step s = .next (resetBlock { s with pending := rest }) := by
  simp [step, h, perform]

/-- Everything a proper write to a register that exists can do, by register. -/
theorem hostWrite_proper {s : State} {off : BitVec 12} {v : Word} {r : Reg}
    (hp : properAccess off .w32 = true) (hr : regAt s.build off = some r) :
    hostWrite off .w32 v s = writeReg r off v s := by
  simp [hostWrite, hp, hr]

@[simp] theorem reattempt_of_none {s : State} (h : s.held = none) : reattempt s = .next s := by
  simp [reattempt, h]

theorem reattempt_of_some {s : State} {l : Held} (h : s.held = some l) : reattempt s = runWord l.word s := by
  simp [reattempt, h]

/-- The input buffer after `IN_CTRL`. -/
theorem controlInput_eq (v : Word) (g : Engine) : controlInput v g = { g with
    input := if v.getLsbD 1 then [] else g.input
    inPtr := if v.getLsbD 1 then 0 else g.inPtr
    eos := v.getLsbD 0 || (!v.getLsbD 1 && g.eos) } := by
  unfold controlInput
  cases v.getLsbD 1 <;> cases v.getLsbD 0 <;> simp

end Sys2Proof.Machine
end

