-- ==== Sys2Proof/Laws/PerInstr.lean ====
section
/-! SUPPORT. Laws stated once and proved one constructor at a time. `EncodeFitsRow`: the word of a command
equals its opcode's match under its opcode's mask, so every field the opcode does not use is zero
(30_encoding.md R112, R115). -/

namespace Sys2Proof.Laws.EncodeFitsRow

/-- The word of `i` spells the opcode of `i` (30_encoding.md R115). -/
def Statement (i : Instr) : Prop := encode i &&& (rowOf i).2 = (rowOf i).1

theorem nop : Statement .nop := by
  unfold Statement
  decide

theorem encInit (e : Idx) : Statement (.encInit e) := by
  revert e
  unfold Statement
  decide

theorem encDone (e : Idx) : Statement (.encDone e) := by
  revert e
  unfold Statement
  decide

theorem decInit (e : Idx) : Statement (.decInit e) := by
  revert e
  unfold Statement
  decide

theorem decDone (e : Idx) : Statement (.decDone e) := by
  revert e
  unfold Statement
  decide

theorem initPoint (c : Idx) : Statement (.initPoint c) := by
  revert c
  unfold Statement
  decide

/-- A word of fields keeps its opcode and loses the fields under a mask, field by field. -/
theorem pack_and (op op' : BitVec 8) (c e s c' e' s' : Idx) (k k' : Byte) (r' : BitVec 4) :
    pack op c e s k &&& (r' ++ k' ++ s' ++ e' ++ c' ++ op')
      = pack (op &&& op') (c &&& c') (e &&& e') (s &&& s') (k &&& k') := by
  have h1 : (0#4 ++ k) &&& (r' ++ k') = (0#4 ++ (k &&& k')) := by
    rw [BitVec.and_append, BitVec.zero_and]
  have h2 : (0#4 ++ k ++ s) &&& (r' ++ k' ++ s') = 0#4 ++ (k &&& k') ++ (s &&& s') := by
    rw [BitVec.and_append, h1]
  have h3 : (0#4 ++ k ++ s ++ e) &&& (r' ++ k' ++ s' ++ e')
      = 0#4 ++ (k &&& k') ++ (s &&& s') ++ (e &&& e') := by
    rw [BitVec.and_append, h2]
  have h4 : (0#4 ++ k ++ s ++ e ++ c) &&& (r' ++ k' ++ s' ++ e' ++ c')
      = 0#4 ++ (k &&& k') ++ (s &&& s') ++ (e &&& e') ++ (c &&& c') := by
    rw [BitVec.and_append, h3]
  exact (BitVec.and_append (x₁ := 0#4 ++ k ++ s ++ e ++ c) (x₂ := r' ++ k' ++ s' ++ e' ++ c')
    (y₁ := op) (y₂ := op')).trans (by rw [h4]; rfl)

theorem writeRgb (c e : Idx) : Statement (.writeRgb c e) :=
  (pack_and 0x11 0xFF c e 0 0 0 0xF 0 0xFF 0xF).trans (by simp [pack, rowOf])

theorem readRgb (c e : Idx) : Statement (.readRgb c e) :=
  (pack_and 0x12 0xFF c e 0 0 0 0xF 0 0xFF 0xF).trans (by simp [pack, rowOf])

theorem writeNir (c e : Idx) : Statement (.writeNir c e) :=
  (pack_and 0x13 0xFF c e 0 0 0 0xF 0 0xFF 0xF).trans (by simp [pack, rowOf])

theorem readNir (c e : Idx) : Statement (.readNir c e) :=
  (pack_and 0x14 0xFF c e 0 0 0 0xF 0 0xFF 0xF).trans (by simp [pack, rowOf])

theorem modelInit (c s : Idx) : Statement (.modelInit c s) :=
  (pack_and 0x20 0xFF c 0 s 0 0xF 0 0 0xFF 0xF).trans (by simp [pack, rowOf])

theorem encSymbol (c s e : Idx) (k : Byte) : Statement (.encSymbol c s e k) :=
  (pack_and 0x21 0xFF c e s 0 0 0 k 0 0xF).trans (by simp [pack, rowOf])

theorem decSymbol (c s e : Idx) : Statement (.decSymbol c s e) :=
  (pack_and 0x22 0xFF c e s 0 0 0 0 0xFF 0xF).trans (by simp [pack, rowOf])

end Sys2Proof.Laws.EncodeFitsRow
end

