-- ==== Sys2Proof/Tests/Slice0.lean ====
section
/-! SUPPORT. The model's own tests: small steps whose expected results are those of 95_test_vectors.md (the
section stands at each), and for every statement with hypotheses a concrete state and operands that meet them
(`witness_<statement>`). -/

-- Elaborated one after another: many kernel evaluations at once would take a thread's stack each.
set_option Elab.async false

namespace Sys2Proof.Tests

open Sys2Proof.Machine

/-! ### Small states -/

/-- The state a step gives, or the reset state where it gives none. -/
def after (o : Host.Outcome State Fault Refusal) : State :=
  match o with
  | .next t => t
  | _ => State.reset

/-- The step gives a next state. -/
def isNext (o : Host.Outcome State Fault Refusal) : Bool :=
  match o with
  | .next _ => true
  | _ => false

theorem next_after {o : Host.Outcome State Fault Refusal} (h : isNext o = true) : o = .next (after o) := by
  cases o with
  | next t => rfl
  | fault r => cases h
  | refused r => cases h

/-- The default build with another kind for every context, and another profile. -/
def buildOf (k : Kind) (p : Profile) : Build :=
  { Build.standard with kinds := Vector.replicate 16 k, profile := p }

/-- Context 0 seeded with a point. -/
def seeded (k : Kind) (p : Profile) (rgb : Rgb) (nir : Half) : State :=
  (State.resetOf (buildOf k p)).setCtx 0 (seedContext p k rgb nir Context.reset)

/-- Context 0 seeded, engine 0 started as an encoder, a point in the argument registers. -/
def encoding (k : Kind) (p : Profile) (l : Rgb) (ln : Half) (rgb : Rgb) (nir : Half) : State :=
  { (seeded k p l ln).setEng 0 (startEncoder Engine.reset) with
    argR := rgb.r, argG := rgb.g, argB := rgb.b, argN := nir }

/-- An engine whose input is `bs`, all of it pushed and none of it read. -/
def filled (bs : List Byte) (eos : Bool) : Engine := { Engine.reset with input := bs, eos := eos }

/-- An engine that has started to decode `bs`, whose first four bytes are `v`. -/
def started (bs : List Byte) (v : Word) : Engine :=
  { filled bs true with mode := .dec, value := v, length := 0xFFFFFFFF, inPtr := 4 }

/-- Context 0 seeded, engine 0 decoding `bs`. -/
def decoding (k : Kind) (p : Profile) (l : Rgb) (ln : Half) (bs : List Byte) (v : Word) : State :=
  (seeded k p l ln).setEng 0 (started bs v)

/-- A grey point. -/
def grey (v : Half) : Rgb := ⟨v, v, v⟩

/-- One host write on a state. -/
def written (off : BitVec 12) (v : Word) (s : State) : State :=
  after (step { s with pending := [.write (busAddr s.build off) .w32 v] })

/-- `s` about to perform one host access. -/
def about (a : Access) (s : State) : State := { s with pending := [a] }

/-- `s` about to write a register of its own. -/
def aboutWrite (off : BitVec 12) (v : Word) (s : State) : State := about (.write (busAddr s.build off) .w32 v) s

/-! ### Every command's word, bit by bit from 30_encoding.md R110 and R114 -/

theorem test_decode_nop : decode 0b00000000000000000000000000000000 = .ok .nop := by decide
theorem test_decode_enc_init : decode 0b00000000000000000001000000000001 = .ok (.encInit 1) := by decide
theorem test_decode_enc_done : decode 0b00000000000000001111000000000010 = .ok (.encDone 15) := by decide
theorem test_decode_dec_init : decode 0b00000000000000000010000000000011 = .ok (.decInit 2) := by decide
theorem test_decode_dec_done : decode 0b00000000000000001000000000000100 = .ok (.decDone 8) := by decide
theorem test_decode_init_point : decode 0b00000000000000000000010000010000 = .ok (.initPoint 4) := by decide
theorem test_decode_write_rgb : decode 0b00000000000000000010000100010001 = .ok (.writeRgb 1 2) := by decide
theorem test_decode_read_rgb : decode 0b00000000000000000001001000010010 = .ok (.readRgb 2 1) := by decide
theorem test_decode_write_nir : decode 0b00000000000000001110001100010011 = .ok (.writeNir 3 14) := by decide
theorem test_decode_read_nir : decode 0b00000000000000000011111000010100 = .ok (.readNir 14 3) := by decide
theorem test_decode_model_init : decode 0b00000000000010010000000100100000 = .ok (.modelInit 1 9) := by decide
theorem test_decode_enc_symbol :
    decode 0b00001010010101100011100100100001 = .ok (.encSymbol 9 6 3 0xA5) := by decide
theorem test_decode_dec_symbol : decode 0b00000000000001100011100100100010 = .ok (.decSymbol 9 6 3) := by decide

/-- 95_test_vectors.md 2.5: the opcode is checked before the reserved bits. -/
theorem test_decode_errors :
    decode 0x00000005 = .error .illegalOp ∧ decode 0x10000005 = .error .illegalOp
    ∧ decode 0x10000001 = .error .reservedField ∧ decode 0x00000100 = .error .reservedField
    ∧ decode 0x00000101 = .error .reservedField := by decide

/-! ### Index checks (30_encoding.md R113) -/

theorem test_wf_engine_refused : (Instr.encInit 2).wellFormed Build.standard = false := by decide
theorem test_wf_engine_last : (Instr.encInit 1).wellFormed Build.standard = true := by decide
theorem test_wf_context_refused : (Instr.initPoint 1).wellFormed Build.standard = false := by decide
theorem test_wf_context_first : (Instr.initPoint 0).wellFormed Build.standard = true := by decide
theorem test_wf_slot_refused : (Instr.encSymbol 0 10 0 0).wellFormed Build.standard = false := by decide
theorem test_wf_slot_last : (Instr.modelInit 0 9).wellFormed Build.standard = true := by decide
theorem test_wf_slot_color_refused :
    (Instr.modelInit 0 7).wellFormed (buildOf .color .doc) = false
    ∧ (Instr.modelInit 0 6).wellFormed (buildOf .color .doc) = true := by decide

/-! ### One step of each command -/

/-- 2.5: `NOP` has no effect; its word with CTX = 1 is `RESERVED_FIELD`. -/
theorem test_nop : exec .nop State.reset = .next State.reset := rfl
theorem test_nop_reserved : readReg (written 0x008 0x100 State.reset) .errInfo = 0x00010202 := by
  decide +kernel

/-- 2.6: register values right after reset. -/
theorem test_reset_registers :
    readReg State.reset .config = 0x00010010 ∧ readReg State.reset (.ctx 0 .ctxStat) = 0xC
    ∧ readReg State.reset .status = 0 := by decide +kernel

/-- 2.2: `ENC_INIT e0` discards a decoder. -/
theorem test_enc_init :
    (after (exec (.encInit 0) (decoding .color .doc (grey 0) 0 [1, 2, 3, 4] 5))).eng 0
      = { started [1, 2, 3, 4] 5 with base := 0, length := 0xFFFFFFFF, mode := .enc } := by decide +kernel

/-- 2.5: `e = 2` with two engines. -/
theorem test_enc_init_range : readReg (written 0x008 0x2001 State.reset) .errInfo = 0x00010303 := by
  decide +kernel

/-- 2.2: no symbol at all gives `01 00 00 00`. -/
theorem test_enc_done :
    ((after (exec (.encDone 0) (encoding .color .doc (grey 0) 0 (grey 0) 0))).eng 0).out = [1, 0, 0, 0] := by
  decide +kernel

/-- 2.2: `ENC_DONE` of an idle engine is `ENG_MODE`. -/
theorem test_enc_done_mode : (after (exec (.encDone 0) State.reset)).errLast = 6 := by decide +kernel

/-- 1.1: `DEC_INIT` assembles `2A053C9F`. -/
theorem test_dec_init :
    (after (exec (.decInit 0) (State.reset.setEng 0
      (filled [0x2A, 0x05, 0x3C, 0x9F, 0x28] false)))).eng 0
      = { started [0x2A, 0x05, 0x3C, 0x9F, 0x28] 0x2A053C9F with eos := false } := by decide +kernel

/-- 2.6: with three bytes `DEC_INIT` holds and no engine field changes. -/
theorem test_dec_init_holds :
    (after (exec (.decInit 0) (State.reset.setEng 0 (filled [1, 2, 3] false)))).held
        = some ⟨0, 0, 0, 0, 0⟩
    ∧ (after (exec (.decInit 0) (State.reset.setEng 0 (filled [1, 2, 3] false)))).eng 0
        = filled [1, 2, 3] false := by decide +kernel

theorem test_dec_done :
    ((after (exec (.decDone 0) (decoding .color .doc (grey 0) 0 [] 5))).eng 0).mode = .idle := by
  decide +kernel

/-- 2.2: `DEC_DONE` of an idle engine is `ENG_MODE`. -/
theorem test_dec_done_mode : (after (exec (.decDone 0) State.reset)).errLast = 6 := by decide +kernel

/-- 43_nir_context.md R250: a COLOR context takes no NIR. -/
theorem test_init_point :
    (after (exec (.initPoint 0) { State.resetOf (buildOf .color .doc) with argR := 5, argN := 9 })).ctx 0
      = seedContext .doc .color ⟨5, 0, 0⟩ 0 Context.reset
    ∧ readReg (seeded .color .doc ⟨5, 0, 0⟩ 0) (.ctx 0 .ctxStat) = 1 := by decide +kernel

/-- 2.5: `c = 1` with one context. -/
theorem test_init_point_range : (after (exec (.initPoint 1) State.reset)).errLast = 3 := by decide +kernel

/-- 2.3: the clamp saturation vector. -/
theorem test_write_rgb :
    readReg (after (exec (.writeRgb 0 0)
      (encoding .color .doc ⟨100, 250, 5⟩ 0 ⟨120, 3, 200⟩ 0))) .res0 = 0x4155
    ∧ rgbSymbols .doc ⟨100, 250, 5⟩ ⟨120, 3, 200⟩ = [(0, 85), (1, 20), (3, 4), (5, 175)] := by
  decide +kernel

/-- 2.3: the third point of the 16-bit vector under `LASZIP`: the order and the Blue symbols. -/
theorem test_write_rgb_laszip :
    rgbSymbols .laszip ⟨0x1335, 0x1335, 0x1335⟩ ⟨0xFFFF, 0x0000, 0x8000⟩
      = [(0, 127), (1, 202), (2, 236), (3, 1), (5, 129), (4, 1), (6, 1)] := by decide +kernel

/-- 1.1: the first `READ_RGB`. -/
theorem test_read_rgb :
    (let t := after (exec (.readRgb 0 0)
        (decoding .color .doc (grey 10) 0 [0x2A, 0x05, 0x3C, 0x9F, 0x28, 0, 0, 0] 0x2A053C9F));
      [readReg t .resR, readReg t .resG, readReg t .resB, readReg t .res0, readReg t (.eng 0 .inPtr)])
      = [12, 12, 12, 0x2115, 5] := by decide +kernel

/-- 1.1 under `LASZIP`: the second point, from the registers after the first. -/
theorem test_read_rgb_laszip :
    (let g := { started [0x2A, 0x05, 0x3C, 0x9D, 0xB0, 0, 0, 0] 0 with
          value := 0x01529DB0, length := 0x01FF8000, inPtr := 5 };
      let t := after (exec (.readRgb 0 0) ((seeded .color .laszip (grey 12) 0).setEng 0 g));
      [readReg t .resR, readReg t .resG, readReg t .resB, readReg t .res0, readReg t (.eng 0 .inPtr)])
      = [12, 200, 5, 0x3154, 8] := by decide +kernel

/-- 2.4: 100 to 300. -/
theorem test_write_nir :
    (let t := after (exec (.writeNir 0 0) (encoding .colorNir .doc (grey 50) 100 (grey 50) 300));
      [readReg t .res0, readReg t (.ctx 0 .lastN)]) = [0x3103, 300] := by decide +kernel

/-- 2.4: `WRITE_NIR` on a COLOR context is `KIND_MISMATCH`, even when it is UNINIT. -/
theorem test_write_nir_kind :
    (after (exec (.writeNir 0 0) (State.resetOf (buildOf .color .doc)))).errLast = 4 := by decide +kernel

/-- 1.2: NIR 300 from the NIR stream. -/
theorem test_read_nir :
    (let t := after (exec (.readNir 0 0)
        (decoding .colorNir .doc (grey 50) 100 [0x07, 0x8F, 0x9B, 0x7F, 0, 0] 0x078F9B7F));
      [readReg t .resN, readReg t .res0, readReg t (.eng 0 .inPtr)]) = [300, 0x3103, 6] := by
  decide +kernel

/-- 1.2 under `LASZIP`: slot 7 has four symbols. -/
theorem test_read_nir_laszip :
    readReg (after (exec (.readNir 0 0)
      (decoding .colorNir .laszip (grey 50) 100 [0xF1, 0xFF, 0xE1, 0, 0, 0] 0xF1FFE100))) .resN = 300 := by
  decide +kernel

/-- 2.1: `MODEL_INIT c0, s0`, then `DBG_SEL = 0x0500`. -/
theorem test_model_init :
    (let t := { after (exec (.modelInit 0 0) ((seeded .color .doc (grey 0) 0).setModel 0 0
        Model.unallocated)) with dbgSel := 0x0500 };
      [readReg t .dbgDist, readReg t .dbgCount, readReg t .dbgUntil, readReg t .dbgNsym])
      = [1280, 1, 67, 128] := by decide +kernel

/-- 2.5: slot 7 of a COLOR context. -/
theorem test_model_init_range :
    (after (exec (.modelInit 0 7) (seeded .color .doc (grey 0) 0))).errLast = 3 := by decide +kernel

/-- 2.2: the last symbol of a 256-model. -/
theorem test_enc_symbol :
    (let g := (after (exec (.encSymbol 0 1 0 255) (encoding .color .doc (grey 0) 0 (grey 0) 0))).eng 0;
      (g.base, g.length, g.out)) = (0xFEFF8080, 0x01007F7F, []) := by decide +kernel

/-- 2.5: `k = 128` in a 128-model. -/
theorem test_enc_symbol_range :
    (after (exec (.encSymbol 0 0 0 128) (encoding .color .doc (grey 0) 0 (grey 0) 0))).errLast = 7 := by
  decide +kernel

/-- 2.2: `DEC_SYMBOL` on `2A053C9F`. -/
theorem test_dec_symbol :
    (let t := after (exec (.decSymbol 0 0 0) (decoding .color .doc (grey 0) 0 [0, 0, 0, 0] 0x2A053C9F));
      [readReg t .res0, readReg t (.eng 0 .dbgValue), readReg t (.eng 0 .dbgLength)])
      = [0x1015, 0x0005519F, 0x01FFFF00] := by decide +kernel

/-- 2.2: a corrupt stream. -/
theorem test_dec_symbol_corrupt :
    (let t := after (exec (.decSymbol 0 0 0) (decoding .color .doc (grey 0) 0 [0, 0, 0, 0] 0xFFFFFFFF));
      [readReg t .res0, readReg t (.eng 0 .dbgValue), readReg t (.eng 0 .dbgLength)])
      = [0x107F, 0x02007EFF, 0x02007EFF] := by decide +kernel

/-! ### Models, streams, errors, host accesses -/

/-- 2.1: the first update of a 256-model in which symbol 0 was coded 131 times. -/
theorem test_first_update :
    (let m := Model.update 256 ⟨132 :: List.replicate 255 1, [], 256, 131, 0⟩;
      [m.countAt 0, m.total, m.distAt 1, m.distAt 2, m.distAt 3, m.distAt 255, m.cycle, m.untilUpdate])
      = [132, 387, 11176, 11261, 11346, 32683, 163, 163] := by decide +kernel

/-- 2.1: the first rescale of a 256-model in which symbol 0 was coded 34035 times. -/
theorem test_first_rescale :
    (let m := Model.update 256 ⟨34036 :: List.replicate 255 1, [], 32195, 2096, 0⟩;
      [m.countAt 0, m.countAt 1, m.total, m.distAt 1, m.distAt 2, m.distAt 255, m.cycle])
      = [17018, 1, 17273, 32284, 32286, 32766, 2096] := by decide +kernel

/-- 2.1: the look-up table of a fresh 128-model. -/
theorem test_lookup_table :
    (buildLut 128 (Model.fresh 128)).take 7 = [0, 3, 7, 11, 15, 19, 23]
    ∧ (buildLut 128 (Model.fresh 128)).drop 32 = [127, 127] := by decide +kernel

/-- 2.2: the carry through a run of `FF`. -/
theorem test_carry_through_ff :
    ((streamCarry { Engine.reset with out := [0x44, 0xFE, 0xDD, 0x7F, 0x81, 0xFF] }).map Engine.out)
      = .ok [0x44, 0xFE, 0xDD, 0x7F, 0x82, 0x00] := by decide +kernel

/-- 2.5: the error record after errors 5, 1, 3, 6, 7, 3. -/
theorem test_error_record :
    (let t := [ErrCode.ctxUninit, .illegalOp, .indexRange, .engMode, .symbolRange, .indexRange].foldl
        (fun s x => recordError x 0x11 s) State.reset;
      [readReg t .status, readReg t .errInfo, readReg t .errData]) = [0x1D6, 0x00060305, 0x11] := by
  decide +kernel

/-- 2.5: writes that are refused, with their offsets as info. -/
theorem test_host_access :
    [0x000, 0x01C, 0x180].map (fun off =>
      [readReg (written off 0x12345678 State.reset) .errInfo,
        readReg (written off 0x12345678 State.reset) .errData])
      = [[0x00010B0B, 0x000], [0x00010B0B, 0x01C], [0x00010B0B, 0x180]] := by decide +kernel

/-- 2.5: a misaligned write. -/
theorem test_misaligned :
    readReg (written 0x002 1 State.reset) .errData = 0x002
    ∧ readReg (written 0x002 1 State.reset) .errInfo = 0x00010B0B := by decide +kernel

/-- 20_memory.md R94: the register space starts at `ACE_BASE`, and the address below it is not the block's. -/
theorem test_ace_base :
    (let s := State.resetOf { Build.standard with aceBase := 0x40000010 };
      (after (step (about (.write 0x40000018 .w32 0x1001) s))).cmd = 0x1001
      ∧ (after (step (about (.write 0x4000000F .w32 0x1001) s))).errCount = 0
      ∧ (after (step (about (.read 0x40000010 .w32) s))).readData = 0x41434501
      ∧ (after (step (about (.write 0x4000100F .w32 1) s))).errData = 0xFFF) := by decide +kernel

/-- 2.6: the low byte of what is pushed, and `IN_CTRL = 3`. -/
theorem test_push_and_control :
    ((written 0x150 0x105 (written 0x150 0x2A State.reset)).eng 1).input = [0x2A, 0x05]
    ∧ (written 0x114 3 (State.reset.setEng 0 (filled [1, 2] false))).eng 0 = filled [] true := by
  decide +kernel

/-- 2.6: the fourth push completes the held `DEC_INIT`. -/
theorem test_push_completes :
    (let s := { State.reset.setEng 0 (filled [1, 2, 3] false) with held := some ⟨3, 0, 0, 0, 0⟩ };
      let t := written 0x110 4 s;
      (t.held, readReg t (.eng 0 .inPtr), readReg t (.eng 0 .dbgValue))) = (none, 4, 0x01020304) := by
  decide +kernel

/-- 2.2: underrun: `DEC_INIT` with the end marked completes, `ENG_STAT = 0xE`. -/
theorem test_underrun :
    readReg (after (exec (.decInit 0) (State.reset.setEng 0 (filled [] true)))) (.eng 0 .engStat) = 0xE := by
  decide +kernel

/-- A command placed by `withFetchWord` is the next thing the machine runs. -/
theorem test_with_fetch_word :
    step (State.reset.withFetchWord 32 0x1001) = .next { after (exec (.encInit 1) State.reset) with
      cmd := 0x1001 } := rfl

/-! ### Every statement's hypotheses are met

`witness_<statement>` shows, for each statement with hypotheses, concrete values that meet them together; where
the statement has several clauses, values for each. -/

/-- Context 0 seeded with a grey point, engine 0 encoding, a new point in the argument registers. -/
def encState : State := encoding .colorNir .doc (grey 10) 100 ⟨12, 200, 5⟩ 300

/-- Context 0 seeded with the same point, engine 0 decoding the stream of 95_test_vectors.md 1.1. -/
def decState : State :=
  decoding .colorNir .doc (grey 10) 100 [0x2A, 0x05, 0x3C, 0x9F, 0x28, 0, 0, 0] 0x2A053C9F

/-- `decState` with nothing left to read, the end unmarked and an interval that is about to need a byte. -/
def starvedState : State :=
  decState.setEng 0 { started [1, 2, 3, 4] 0 with length := 0x01000000, eos := false }

/-- A state in which engine 0's `DEC_INIT` is held for its fourth byte. -/
def heldState : State :=
  { State.reset.setEng 0 (filled [1, 2, 3] false) with cmd := 3, held := some ⟨3, 0, 0, 0, 0⟩ }

theorem encState_ctx :
    encState.ctx 0 = seedContext .doc .colorNir (grey 10) 100 Context.reset := by
  show ((seeded .colorNir .doc (grey 10) 100).setEng 0 (startEncoder Engine.reset)).ctx 0 = _
  simp [seeded]

theorem decState_ctx :
    decState.ctx 0 = seedContext .doc .colorNir (grey 10) 100 Context.reset := by
  simp [decState, decoding, seeded]

theorem encState_eng : encState.eng 0 = startEncoder Engine.reset := by
  show ((seeded .colorNir .doc (grey 10) 100).setEng 0 (startEncoder Engine.reset)).eng 0 = _
  simp

theorem decState_eng :
    decState.eng 0 = started [0x2A, 0x05, 0x3C, 0x9F, 0x28, 0, 0, 0] 0x2A053C9F := by
  simp [decState, decoding]

theorem encState_modelsOk : (encState.ctx 0).ModelsOk encState.build.profile (encState.build.kind 0) := by
  rw [encState_ctx]
  exact seedContext_modelsOk _ _ _ _ _

theorem decState_modelsOk : (decState.ctx 0).ModelsOk decState.build.profile (decState.build.kind 0) := by
  rw [decState_ctx]
  exact seedContext_modelsOk _ _ _ _ _

theorem encState_encOk : (encState.eng 0).EncOk := by
  rw [encState_eng]
  exact ⟨by decide, by decide⟩

theorem encState_hasRoom (n : Nat) : (encState.eng 0).HasRoom (encState.build.outCapOf 0) n :=
  fun _ h => by cases h

theorem exists_of_map_fst {α β : Type} {x : Attempt (α × β)} {a : α} (h : x.map Prod.fst = .ok a) :
    ∃ u, x = .ok (a, u) := by
  cases x with
  | error y => cases h
  | ok p =>
    obtain ⟨a', u⟩ := p
    cases h
    exact ⟨u, rfl⟩

theorem exists_of_map_true {α : Type} {x : Attempt α} {f : α → Bool} (h : x.map f = .ok true) :
    ∃ u, x = .ok u ∧ f u = true := by
  cases x with
  | error y => cases h
  | ok u =>
    refine ⟨u, rfl, ?_⟩
    simpa [Except.map] using h

/-- `encState` with output buffers of `n` bytes. -/
def boundedState (n : Nat) : State :=
  { encState with build := { encState.build with outCap := Vector.replicate 16 (some n) } }

/-- `decState` about to decode symbol 1 of an updated model, whose share of the least interval is so small that
two bytes are needed, with one byte at hand and the end unmarked. -/
def scarceState : State :=
  (decState.setEng 0 { started [1, 2, 3, 4, 5] 0 with
      length := 0x01000000, value := 11176 * 512, eos := false }).setModel 0 1
    (Model.update 256 ⟨132 :: List.replicate 255 1, [], 256, 131, 0⟩)

/-! #### Encoding and the step -/

theorem witness_EncodeOfDecode : decode 0x0FF10021 = .ok (.encSymbol 0 1 0 255) := by decide

theorem witness_WordSpellsOpcodeUnderMask :
    (∃ j, decode 0x0000F001 = .ok j ∧ rowOf j = rowOf (.encInit 0))
    ∧ (0x0000F001 : Word) &&& (rowOf (.encInit 0)).2 = (rowOf (.encInit 0)).1
    ∧ (0x0001F001 : Word) &&& (rowOf (.encInit 0)).2 ≠ (rowOf (.encInit 0)).1 :=
  ⟨⟨.encInit 15, by decide, rfl⟩, by decide, by decide⟩

theorem witness_UndecodableWordsAreNamedErrors :
    (fieldOp 0x00000101 = fieldOp (encode (.encInit 0))
      ∧ (0x00000101 : Word) &&& (rowOf (.encInit 0)).2 ≠ (rowOf (.encInit 0)).1)
    ∧ ((aboutWrite cmdOffset 5 State.reset).pending
        = .write (busAddr State.reset.build cmdOffset) .w32 5 :: []
      ∧ (aboutWrite cmdOffset 5 State.reset).held = none ∧ decode 5 = .error .illegalOp) := by
  decide

theorem witness_StepRunsDecodedCommand :
    (aboutWrite cmdOffset 0x11 encState).pending
      = .write (busAddr encState.build cmdOffset) .w32 0x11 :: []
    ∧ (aboutWrite cmdOffset 0x11 encState).held = none
    ∧ decode 0x11 = .ok (.writeRgb 0 0) := ⟨rfl, rfl, by decide⟩

theorem witness_CommandWhileBusyIsRefused :
    (aboutWrite cmdOffset 0 heldState).pending
      = .write (busAddr heldState.build cmdOffset) .w32 0 :: []
    ∧ (aboutWrite cmdOffset 0 heldState).held = some ⟨3, 0, 0, 0, 0⟩ := ⟨rfl, rfl⟩

theorem witness_ResetLeavesTheStatedValues :
    (about .reset heldState).pending = .reset :: [] ∧ (about .reset heldState).held ≠ none := by
  refine ⟨rfl, ?_⟩
  decide

/-! #### Models -/

theorem witness_FreshModelIsUniform : 127 < 128 ∧ 255 < 256 ∧ 3 < 4 := by decide

theorem witness_AdaptCountsTheSymbol :
    (Model.fresh 256).untilUpdate ≠ 1 ∧ { Model.fresh 256 with untilUpdate := 1 }.untilUpdate = 1 := by
  refine ⟨?_, rfl⟩
  show (131 : Word) ≠ 1
  decide

/-- Both clauses: a sum of counts of exactly `2^15`, and one more. -/
theorem witness_UpdateRecomputesTheTable :
    ((let m : Model := ⟨32513 :: List.replicate 255 1, [], 32768 - 2096, 2096, 0⟩;
      (256 ≤ 256 ∧ 1 ≤ countTotal m.count ∧ countTotal m.count ≤ 2 ^ 20
        ∧ m.total.toNat + m.cycle.toNat = countTotal m.count ∧ countTotal m.count ≤ 2 ^ 15))
    ∧ (let m : Model := ⟨32514 :: List.replicate 255 1, [], 32769 - 2096, 2096, 0⟩;
      (256 ≤ 256 ∧ 1 ≤ countTotal m.count ∧ countTotal m.count ≤ 2 ^ 20
        ∧ m.total.toNat + m.cycle.toNat = countTotal m.count ∧ 2 ^ 15 < countTotal m.count))) := by
  decide +kernel

theorem witness_AdaptKeepsModelInvariant :
    1 ≤ 256 ∧ 256 ≤ 256 ∧ 255 < 256 ∧ (Model.fresh 256).Ok 256 :=
  ⟨by decide, by decide, by decide, Model.fresh_ok_256⟩

theorem witness_ModelInitResetsOneSlot :
    encState.held = none ∧ encState.build.hasCtx 0 = true
    ∧ (9 : Slot).val < slotCount (encState.build.kind 0) ∧ (encState.ctx 0).phase ≠ .uninit :=
  ⟨rfl, rfl, by decide, by rw [encState_ctx]; decide⟩

/-- The two table sizes, the least interval and the last value. -/
theorem witness_LookupTableFindsTheSymbol :
    (128 = 128 ∨ 128 = 256) ∧ (256 = 128 ∨ 256 = 256) ∧ (Model.fresh 128).Ok 128
    ∧ (Model.fresh 256).Ok 256
    ∧ acMinLength ≤ ({ Engine.reset with length := 0x01000000, value := 0x00FFFFFF } : Engine).length
    ∧ ({ Engine.reset with length := 0x01000000, value := 0x00FFFFFF } : Engine).value
        < ({ Engine.reset with length := 0x01000000, value := 0x00FFFFFF } : Engine).length :=
  ⟨by decide, by decide, Model.fresh_ok_128, Model.fresh_ok_256, by decide, by decide⟩

/-! #### Streams -/

theorem witness_StreamAppendAtCapacityOverflows :
    (filled [] true).out.length = 0 ∧ (filled [] true).out.length < 1 := by decide

theorem witness_StreamCarryAddsOne :
    (∀ b ∈ ({ Engine.reset with out := [0xFF, 0xFF] } : Engine).out, b = 0xFF)
    ∧ ∃ b ∈ ({ Engine.reset with out := [0x81, 0xFF] } : Engine).out, b ≠ 0xFF := by decide

/-- The last byte at hand; none, the end unmarked; none, the end marked. -/
theorem witness_StreamReadTakesHoldsOrDraws :
    ({ filled [7, 8] false with inPtr := 1 } : Engine).input[1]? = some 8
    ∧ ((filled [] false).input.length ≤ (filled [] false).inPtr.toNat ∧ (filled [] false).eos = false)
    ∧ (filled [] true).input.length ≤ (filled [] true).inPtr.toNat ∧ (filled [] true).eos = true := by
  decide

/-! #### Coder commands -/

theorem witness_EncInitStartsAnEncoder :
    decState.held = none ∧ decState.build.hasEng 1 = true := ⟨rfl, rfl⟩

/-- An inner symbol and the last one. -/
theorem witness_NarrowingStaysNonEmpty :
    (1 ≤ 4 ∧ 2 < 4 ∧ (Model.fresh 4).Ok 4
      ∧ acMinLength ≤ ({ Engine.reset with length := 0x01000000 } : Engine).length ∧ 2 + 1 < 4)
    ∧ 3 < 4 ∧ 3 + 1 = 4 :=
  ⟨⟨by decide, by decide, Model.fresh_ok_4, by decide, by decide⟩, by decide, by decide⟩

theorem witness_EncSymbolNarrowsEmitsAdapts :
    encState.held = none ∧ encState.build.hasCtx 0 = true ∧ encState.build.hasEng 0 = true
    ∧ (9 : Slot).val < slotCount (encState.build.kind 0) ∧ (encState.ctx 0).phase ≠ .uninit
    ∧ (encState.eng 0).mode = .enc ∧ (255 : Byte).toNat < slotSyms encState.build.profile 9
    ∧ (encState.model 0 9).Ok (slotSyms encState.build.profile 9) ∧ (encState.eng 0).EncOk
    ∧ (encState.eng 0).HasRoom (encState.build.outCapOf 0) 2 :=
  ⟨rfl, rfl, rfl, by decide, by rw [encState_ctx]; decide, by rw [encState_eng]; rfl, by decide,
    encState_modelsOk 9 (by decide), encState_encOk, encState_hasRoom 2⟩

/-- Both widths of the flush: after `ENC_INIT`, and at exactly `2^25`. -/
theorem witness_EncDoneFlushesFourBytes :
    (encState.held = none ∧ encState.build.hasEng 0 = true ∧ (encState.eng 0).mode = .enc
      ∧ (encState.eng 0).EncOk ∧ (encState.eng 0).HasRoom (encState.build.outCapOf 0) 4
      ∧ 0x02000000 < (encState.eng 0).length)
    ∧ (let s := encState.setEng 0 { startEncoder Engine.reset with length := 0x02000000 };
      s.held = none ∧ s.build.hasEng 0 = true ∧ (s.eng 0).mode = .enc ∧ (s.eng 0).EncOk
      ∧ (s.eng 0).HasRoom (s.build.outCapOf 0) 4 ∧ (s.eng 0).length ≤ 0x02000000) := by
  refine ⟨⟨rfl, rfl, by rw [encState_eng]; rfl, encState_encOk, encState_hasRoom 4,
    by rw [encState_eng]; decide⟩, rfl, rfl, ?_⟩
  rw [State.eng_setEng_same]
  exact ⟨rfl, ⟨by decide, by decide⟩, fun _ h => (by cases h), by decide⟩

/-- `ENC_DONE` into three bytes; a symbol that emits one byte into none; a point that emits more than one byte
into one; a value that emits more than one byte into one. -/
theorem witness_EncDoneWithoutRoomOverflows :
    ((boundedState 3).build.hasEng 0 = true ∧ ((boundedState 3).eng 0).mode = .enc
      ∧ ((boundedState 3).eng 0).EncOk ∧ (boundedState 3).build.outCapOf 0 = some 3
      ∧ 3 < ((boundedState 3).eng 0).out.length + 4)
    ∧ ((boundedState 0).build.hasCtx 0 = true ∧ (boundedState 0).build.hasEng 0 = true
      ∧ (9 : Slot).val < slotCount ((boundedState 0).build.kind 0)
      ∧ ((boundedState 0).ctx 0).phase ≠ .uninit ∧ ((boundedState 0).eng 0).mode = .enc
      ∧ (0 : Byte).toNat < slotSyms (boundedState 0).build.profile 9
      ∧ (boundedState 0).build.outCapOf 0 = some 0 ∧ ((boundedState 0).eng 0).out.length ≤ 0
      ∧ ∃ u, encodeSymbol 0 0 9 0 (boundedState 0).unbounded = .ok u
        ∧ decide (0 < (u.eng 0).out.length) = true)
    ∧ ((boundedState 1).build.hasCtx 0 = true ∧ (boundedState 1).build.hasEng 0 = true
      ∧ (boundedState 1).build.kind 0 = .colorNir ∧ ((boundedState 1).ctx 0).phase ≠ .uninit
      ∧ ((boundedState 1).eng 0).mode = .enc ∧ (boundedState 1).build.outCapOf 0 = some 1
      ∧ ((boundedState 1).eng 0).out.length ≤ 1
      ∧ (∃ u, encodeAll 0 0 (rgbSymbols (boundedState 1).build.profile ((boundedState 1).lastRgb 0)
            (argRgb (boundedState 1))) (boundedState 1).unbounded = .ok u
          ∧ decide (1 < (u.eng 0).out.length) = true)
      ∧ ∃ u, encodeAll 0 0 (nirSymbols ((boundedState 1).ctx 0).lastN (argNir (boundedState 1)))
            (boundedState 1).unbounded = .ok u
          ∧ decide (1 < (u.eng 0).out.length) = true) := by
  have eng (n : Nat) : (boundedState n).eng 0 = startEncoder Engine.reset := encState_eng
  have ctx (n : Nat) : (boundedState n).ctx 0 = seedContext .doc .colorNir (grey 10) 100 Context.reset :=
    encState_ctx
  refine ⟨⟨rfl, by rw [eng]; rfl, encState_encOk, rfl, by rw [eng]; decide⟩,
    ⟨rfl, rfl, by decide, by rw [ctx]; decide, by rw [eng]; rfl, by decide, rfl, by rw [eng]; decide,
      exists_of_map_true (by decide +kernel)⟩,
    ⟨rfl, rfl, rfl, by rw [ctx]; decide, by rw [eng]; rfl, rfl, by rw [eng]; decide,
      exists_of_map_true (by decide +kernel), exists_of_map_true (by decide +kernel)⟩⟩

theorem witness_DecInitAssemblesFourBytes :
    (let s := State.reset.setEng 0 (filled [1, 2, 3, 4] false);
      s.build.hasEng 0 = true ∧ (s.eng 0).inPtr.toNat + 4 ≤ (s.eng 0).input.length
      ∧ (s.eng 0).inPtr.toNat + 4 < 2 ^ 32) := by decide +kernel

/-- Three bytes, the end unmarked and marked. -/
theorem witness_DecInitHoldsOrUnderruns : ∀ eos : Bool,
    (let s := State.reset.setEng 0 (filled [1, 2, 3] eos);
      s.build.hasEng 0 = true ∧ (s.eng 0).input.length < (s.eng 0).inPtr.toNat + 4
      ∧ (s.eng 0).inPtr.toNat ≤ (s.eng 0).input.length ∧ (s.eng 0).input.length < 2 ^ 32
      ∧ (s.eng 0).eos = eos) := by decide +kernel

theorem witness_DecSymbolFindsNarrowsAdapts :
    decState.build.hasCtx 0 = true ∧ decState.build.hasEng 0 = true
    ∧ (0 : Slot).val < slotCount (decState.build.kind 0) ∧ (decState.ctx 0).phase ≠ .uninit
    ∧ (decState.eng 0).mode = .dec ∧ (decState.model 0 0).Ok (slotSyms decState.build.profile 0)
    ∧ acMinLength ≤ (decState.eng 0).length ∧ (decState.eng 0).Serves 2 :=
  ⟨rfl, rfl, by decide, by rw [decState_ctx]; decide, by rw [decState_eng]; rfl,
    decState_modelsOk 0 (by decide), by rw [decState_eng]; decide, by
      rw [decState_eng]
      exact ⟨by decide, by decide, .inl rfl⟩⟩

theorem witness_DecSymbolWithoutInputHolds :
    starvedState.build.hasCtx 0 = true ∧ starvedState.build.hasEng 0 = true
    ∧ (0 : Slot).val < slotCount (starvedState.build.kind 0) ∧ (starvedState.ctx 0).phase ≠ .uninit
    ∧ (starvedState.eng 0).mode = .dec
    ∧ 0 = findSymbol (starvedState.model 0 0) (quotLength (starvedState.eng 0)) (starvedState.eng 0).value
        (slotSyms starvedState.build.profile 0 - 1)
    ∧ narrowLength (slotSyms starvedState.build.profile 0) (starvedState.model 0 0) 0
        (starvedState.eng 0) ((starvedState.model 0 0).distAt 0 * quotLength (starvedState.eng 0))
          < acMinLength
    ∧ (starvedState.eng 0).input.length ≤ (starvedState.eng 0).inPtr.toNat
    ∧ (starvedState.eng 0).eos = false := by decide +kernel

/-- One byte at hand and two needed; then each decoding command whose input is marked as ended underruns. -/
theorem witness_DecSymbolWithoutInputHolds_more :
    (scarceState.build.hasCtx 0 = true ∧ scarceState.build.hasEng 0 = true
      ∧ (1 : Slot).val < slotCount (scarceState.build.kind 0) ∧ (scarceState.ctx 0).phase ≠ .uninit
      ∧ (scarceState.eng 0).mode = .dec
      ∧ 1 = findSymbol (scarceState.model 0 1) (quotLength (scarceState.eng 0)) (scarceState.eng 0).value
          (slotSyms scarceState.build.profile 1 - 1)
      ∧ (narrowLength (slotSyms scarceState.build.profile 1) (scarceState.model 0 1) 1 (scarceState.eng 0)
          ((scarceState.model 0 1).distAt 1 * quotLength (scarceState.eng 0))).toNat * 256
            < acMinLength.toNat
      ∧ (scarceState.eng 0).input.length ≤ (scarceState.eng 0).inPtr.toNat + 1
      ∧ (scarceState.eng 0).input.length < 2 ^ 32 ∧ (scarceState.eng 0).eos = false)
    ∧ (∃ x, decodeSymbol 0 0 1 (scarceState.markedEnd 0) = .ok x ∧ (x.2.eng 0).underrun = true)
    ∧ starvedState.build.kind 0 = .colorNir
    ∧ (∃ x, decodeRgb 0 0 starvedState.build.profile (starvedState.lastRgb 0) (starvedState.markedEnd 0) = .ok x
      ∧ (x.2.2.eng 0).underrun = true)
    ∧ ∃ x, decodeNir 0 0 (starvedState.ctx 0).lastN (starvedState.markedEnd 0) = .ok x
      ∧ (x.2.2.eng 0).underrun = true :=
  ⟨by decide +kernel, exists_of_map_true (by decide +kernel), rfl, exists_of_map_true (by decide +kernel),
    exists_of_map_true (by decide +kernel)⟩

theorem witness_DecDoneIdlesTheDecoder :
    decState.held = none ∧ decState.build.hasEng 0 = true ∧ (decState.eng 0).mode = .dec :=
  ⟨rfl, rfl, by rw [decState_eng]; rfl⟩

/-- The last value of symbol 2's share. -/
theorem witness_SearchFindsTheEncodedSymbol :
    (let g : Engine := { Engine.reset with length := 0x01000000, value := 0x00BFFFFF };
      1 ≤ 4 ∧ 2 < 4 ∧ (Model.fresh 4).Ok 4 ∧ acMinLength ≤ g.length
      ∧ (Model.fresh 4).distAt 2 * quotLength g ≤ g.value
      ∧ (g.value - (Model.fresh 4).distAt 2 * quotLength g).toNat
          < (narrowLength 4 (Model.fresh 4) 2 g ((Model.fresh 4).distAt 2 * quotLength g)).toNat) :=
  ⟨by decide, by decide, Model.fresh_ok_4, by decide, by decide +kernel, by decide +kernel⟩

/-- Three symbols through two slots, decoded by engine 1. -/
theorem witness_CoderRoundTrip :
    (let s := seeded .colorNir .doc (grey 10) 100;
      let syms : List (Idx × Slot × Byte) := [(0, 0, 127), (0, 9, 255), (0, 9, 0)];
      s.build.outCapOf 0 = none
      ∧ (∀ x ∈ syms, (s.model x.1 x.2.1).Ok (slotSyms s.build.profile x.2.1)
          ∧ x.2.2.toNat < slotSyms s.build.profile x.2.1)
      ∧ ∃ t g, encodeSeq 0 syms (s.setEng 0 (startEncoder (s.eng 0))) = .ok t
        ∧ flushWith (s.build.outCapOf 0) (t.eng 0) = .ok g
        ∧ (s.setEng 1 (filled g.out true)).ctxs = s.ctxs
        ∧ (s.setEng 1 (filled g.out true)).build.profile = s.build.profile
        ∧ ((s.setEng 1 (filled g.out true)).eng 1).input = g.out
        ∧ ((s.setEng 1 (filled g.out true)).eng 1).inPtr = 0
        ∧ g.out.length < 2 ^ 32) := by
  refine ⟨rfl, ?_, ?_⟩
  · have ok (σ : Slot) :
        ((seeded .colorNir .doc (grey 10) 100).model 0 σ).Ok (slotSyms .doc σ) := by
      have h : (seeded .colorNir .doc (grey 10) 100).ctx 0
          = seedContext .doc .colorNir (grey 10) 100 Context.reset := by simp [seeded]
      rw [State.model, h]
      exact seedContext_modelsOk _ _ _ _ _ σ σ.isLt
    intro x hx
    simp only [List.mem_cons, List.not_mem_nil, or_false] at hx
    rcases hx with rfl | rfl | rfl
    · exact ⟨ok 0, by decide⟩
    · exact ⟨ok 9, by decide⟩
    · exact ⟨ok 9, by decide⟩
  · have h : ((encodeSeq 0 [(0, 0, 127), (0, 9, 255), (0, 9, 0)]
        ((seeded .colorNir .doc (grey 10) 100).setEng 0
          (startEncoder ((seeded .colorNir .doc (grey 10) 100).eng 0)))).bind fun t =>
        (flushWith none (t.eng 0)).map fun g => decide (g.out.length < 100)) = .ok true := by
      decide +kernel
    cases ht : encodeSeq 0 [(0, 0, 127), (0, 9, 255), (0, 9, 0)]
        ((seeded .colorNir .doc (grey 10) 100).setEng 0
          (startEncoder ((seeded .colorNir .doc (grey 10) 100).eng 0))) with
    | error x => rw [ht] at h; cases h
    | ok t =>
      rw [ht] at h
      change (flushWith none (t.eng 0)).map (fun g => decide (g.out.length < 100)) = .ok true at h
      cases hg : flushWith none (t.eng 0) with
      | error x => rw [hg] at h; cases h
      | ok g =>
        rw [hg] at h
        have hl : decide (g.out.length < 100) = true := by
          simpa [Except.map] using h
        refine ⟨t, g, rfl, hg, rfl, rfl, by simp [filled], by simp [filled, Engine.reset], ?_⟩
        have := of_decide_eq_true hl
        omega

/-! #### Colour and near-infrared -/

theorem witness_HalvesFoldAndClamp : (-1 : Int) < 0 ∧ (255 : Int) < 256 ∧ (0 : Int) ≤ 255 ∧ (255 : Int) ≤ 255 := by
  decide

theorem witness_InitPointSeedsTheContext :
    State.reset.held = none ∧ State.reset.build.hasCtx 0 = true
    ∧ (9 : Slot).val < slotCount (State.reset.build.kind 0)
    ∧ slotCount ((State.resetOf (buildOf .color .doc)).build.kind 0) ≤ (7 : Slot).val := by decide +kernel

theorem witness_WriteRgbCodesThePoint :
    encState.held = none ∧ encState.build.hasCtx 0 = true ∧ encState.build.hasEng 0 = true
    ∧ (encState.ctx 0).phase ≠ .uninit ∧ (encState.eng 0).mode = .enc
    ∧ (encState.ctx 0).ModelsOk encState.build.profile (encState.build.kind 0) ∧ (encState.eng 0).EncOk
    ∧ (encState.eng 0).HasRoom (encState.build.outCapOf 0) 14 :=
  ⟨rfl, rfl, rfl, by rw [encState_ctx]; decide, by rw [encState_eng]; rfl, encState_modelsOk,
    encState_encOk, encState_hasRoom 14⟩

theorem witness_ReadRgbDecodesThePoint :
    decState.build.hasCtx 0 = true ∧ decState.build.hasEng 0 = true
    ∧ (decState.ctx 0).phase ≠ .uninit ∧ (decState.eng 0).mode = .dec
    ∧ (decState.ctx 0).ModelsOk decState.build.profile (decState.build.kind 0)
    ∧ acMinLength ≤ (decState.eng 0).length ∧ (decState.eng 0).Serves 14 :=
  ⟨rfl, rfl, by rw [decState_ctx]; decide, by rw [decState_eng]; rfl, decState_modelsOk,
    by rw [decState_eng]; decide, by
      rw [decState_eng]
      exact ⟨by decide, by decide, .inl rfl⟩⟩

theorem witness_WriteNirCodesTheValue :
    encState.held = none ∧ encState.build.hasCtx 0 = true ∧ encState.build.hasEng 0 = true
    ∧ encState.build.kind 0 = .colorNir ∧ (encState.ctx 0).phase ≠ .uninit
    ∧ (encState.eng 0).mode = .enc
    ∧ (encState.ctx 0).ModelsOk encState.build.profile (encState.build.kind 0) ∧ (encState.eng 0).EncOk
    ∧ (encState.eng 0).HasRoom (encState.build.outCapOf 0) 6 :=
  ⟨rfl, rfl, rfl, rfl, by rw [encState_ctx]; decide, by rw [encState_eng]; rfl, encState_modelsOk,
    encState_encOk, encState_hasRoom 6⟩

theorem witness_ReadNirDecodesTheValue :
    decState.build.hasCtx 0 = true ∧ decState.build.hasEng 0 = true
    ∧ decState.build.kind 0 = .colorNir ∧ (decState.ctx 0).phase ≠ .uninit
    ∧ (decState.eng 0).mode = .dec
    ∧ (decState.ctx 0).ModelsOk decState.build.profile (decState.build.kind 0)
    ∧ acMinLength ≤ (decState.eng 0).length ∧ (decState.eng 0).Serves 6 :=
  ⟨rfl, rfl, rfl, by rw [decState_ctx]; decide, by rw [decState_eng]; rfl, decState_modelsOk,
    by rw [decState_eng]; decide, by
      rw [decState_eng]
      exact ⟨by decide, by decide, .inl rfl⟩⟩

/-- The first point of 95_test_vectors.md 1.1 and the NIR value of 1.2. -/
theorem witness_PointDecodingInvertsEncoding :
    (∃ u, decodeSeq 0 ((rgbSymbols .doc (grey 10) (grey 12)).map fun x => (0, x.1)) decState
        = .ok ((rgbSymbols .doc (grey 10) (grey 12)).map fun x => x.2, u))
    ∧ ∃ u, decodeSeq 0 ((nirSymbols 100 300).map fun x => (0, x.1))
        (decoding .colorNir .doc (grey 50) 100 [0x07, 0x8F, 0x9B, 0x7F, 0, 0] 0x078F9B7F)
          = .ok ((nirSymbols 100 300).map fun x => x.2, u) :=
  ⟨exists_of_map_fst (by decide +kernel), exists_of_map_fst (by decide +kernel)⟩

/-- Two states that agree in the NIR part only, and two that agree in the colour part only. -/
theorem witness_NirAndColourAreIndependent :
    (let t := encoding .colorNir .doc (grey 11) 100 ⟨1, 2, 3⟩ 300;
      encState.held = none ∧ t.held = none ∧ (Instr.writeNir 0 0).wellFormed encState.build = true
      ∧ (Instr.writeNir 0 0).wellFormed t.build = true ∧ encState.build.kind 0 = .colorNir
      ∧ t.build.kind 0 = .colorNir ∧ (encState.ctx 0).phase ≠ .uninit ∧ (t.ctx 0).phase ≠ .uninit
      ∧ SameNir 0 0 encState t ∧ ∃ s', exec (.writeNir 0 0) encState = .next s')
    ∧ (let t := encoding .color .doc (grey 10) 7 ⟨12, 200, 5⟩ 9;
      encState.held = none ∧ t.held = none ∧ (Instr.writeRgb 0 0).wellFormed encState.build = true
      ∧ (Instr.writeRgb 0 0).wellFormed t.build = true ∧ (encState.ctx 0).phase ≠ .uninit
      ∧ (t.ctx 0).phase ≠ .uninit ∧ SameColour 0 0 encState t
      ∧ ∃ s', exec (.writeRgb 0 0) encState = .next s') := by
  have ctx (k : Kind) (rgb p : Rgb) (n m : Half) :
      (encoding k .doc rgb n p m).ctx 0 = seedContext .doc k rgb n Context.reset := by
    show ((seeded k .doc rgb n).setEng 0 (startEncoder Engine.reset)).ctx 0 = _
    simp [seeded]
  have eng (k : Kind) (rgb p : Rgb) (n m : Half) :
      (encoding k .doc rgb n p m).eng 0 = startEncoder Engine.reset := by
    show ((seeded k .doc rgb n).setEng 0 (startEncoder Engine.reset)).eng 0 = _
    simp
  refine ⟨⟨rfl, rfl, by decide, by decide, rfl, rfl, by rw [encState_ctx]; decide, by rw [ctx]; decide,
      ⟨rfl, rfl, (eng ..).trans (eng ..).symm, by rw [encState_ctx, ctx]; rfl, ?_, rfl, rfl, rfl⟩,
      ⟨_, next_after (by decide +kernel)⟩⟩,
    ⟨rfl, rfl, by decide, by decide, by rw [encState_ctx]; decide, by rw [ctx]; decide,
      ⟨rfl, rfl, (eng ..).trans (eng ..).symm, ?_, ?_, rfl, rfl, rfl, rfl, rfl⟩,
      ⟨_, next_after (by decide +kernel)⟩⟩⟩
  · intro σ _
    rw [State.model, State.model, encState_ctx, ctx, seedContext_model, seedContext_model,
      if_pos (show σ.val < slotCount .colorNir from σ.isLt)]
  · rw [State.lastRgb, State.lastRgb, encState_ctx, ctx]
    rfl
  · intro σ h
    rw [State.model, State.model, encState_ctx, ctx, seedContext_model, seedContext_model,
      if_pos (show σ.val < slotCount .colorNir from σ.isLt), if_pos (show σ.val < slotCount .color from h)]

/-! #### Errors, holds, frames -/

theorem witness_NopChangesNothing :
    State.reset.held = none ∧ fieldOp 0x00000100 = 0 ∧ (0x00000100 : Word) ≠ 0 := ⟨rfl, by decide, by decide⟩

/-- Each check, and which wins where several fail. -/
theorem witness_FirstFailedCheckIsTheError :
    firstError (.writeNir 1 0) (State.resetOf (buildOf .color .doc)) = some .indexRange
    ∧ firstError (.writeNir 0 0) (State.resetOf (buildOf .color .doc)) = some .kindMismatch
    ∧ firstError (.writeNir 0 0) State.reset = some .ctxUninit
    ∧ firstError (.readRgb 0 0) encState = some .engMode
    ∧ firstError (.encSymbol 0 0 0 128) encState = some .symbolRange
    ∧ firstError (.encSymbol 0 0 0 128) decState = some .engMode := by decide +kernel

theorem witness_ErrorRecordFields :
    State.reset.errCount = 0 ∧ (recordError .illegalOp 5 State.reset).errCount ≠ 0
    ∧ heldState.held = some ⟨3, 0, 0, 0, 0⟩ ∧ properAccess 0x002 .w32 = false
    ∧ properAccess 0x000 .w16 = false := by decide +kernel

/-- A command that completes, one that fails and one that is held. -/
theorem witness_CommandsAreAtomic :
    exec (.writeRgb 0 0) encState = .next (after (exec (.writeRgb 0 0) encState))
    ∧ exec (.readRgb 0 0) encState = .next (after (exec (.readRgb 0 0) encState))
    ∧ exec (.readRgb 0 0) starvedState = .next (after (exec (.readRgb 0 0) starvedState)) :=
  ⟨next_after (by decide +kernel), next_after (by decide +kernel), next_after (by decide +kernel)⟩

/-- An unbounded buffer with a command held, and a full bounded one. -/
theorem witness_PushAppendsThenRetries :
    ((aboutWrite (engOffset 0 0x10) 4 heldState).pending
        = .write (busAddr heldState.build (engOffset 0 0x10)) .w32 4 :: []
      ∧ heldState.build.hasEng 0 = true
      ∧ (∀ n, heldState.build.inCapOf 0 = some n → (heldState.eng 0).input.length < n)
      ∧ heldState.held = some ⟨3, 0, 0, 0, 0⟩)
    ∧ (let b : Build := { Build.standard with inCap := Vector.replicate 16 (some 0) };
      (State.resetOf b).build.inCapOf 0 = some 0 ∧ 0 ≤ ((State.resetOf b).eng 0).input.length
      ∧ (State.resetOf b).held = none) :=
  ⟨⟨rfl, rfl, fun _ h => (by cases h), rfl⟩, ⟨rfl, Nat.zero_le _, rfl⟩⟩

theorem witness_CommandsWriteOnlyTheirRegisters :
    exec (.writeNir 0 0) encState = .next (after (exec (.writeNir 0 0) encState))
    ∧ writesRes0 (.encSymbol 0 0 0 0) = false :=
  ⟨next_after (by decide +kernel), rfl⟩

theorem witness_CommandsTouchOnlyWhatTheyName :
    exec (.encSymbol 0 6 0 0) encState = .next (after (exec (.encSymbol 0 6 0 0) encState))
    ∧ engineOf (.encSymbol 0 6 0 0) ≠ some 1 ∧ contextOf (.encSymbol 0 6 0 0) ≠ some 1 :=
  ⟨next_after (by decide +kernel), by decide, by decide⟩

theorem witness_SeededBehavesAsStreaming :
    (encState.ctx 0).phase = .seeded ∧ (encState.ctx 0).phase ≠ .uninit
    ∧ exec (.writeRgb 0 0) encState = .next (after (exec (.writeRgb 0 0) encState)) :=
  ⟨by rw [encState_ctx]; rfl, by rw [encState_ctx]; decide, next_after (by decide +kernel)⟩

/-- `ENC_INIT` on an idle engine. -/
theorem witness_FinishedOutputIsFinal :
    (let s := aboutWrite cmdOffset 0x1 State.reset;
      step s = .next (after (step s)) ∧ (s.eng 0).mode ≠ .enc) :=
  ⟨rfl, by decide +kernel⟩

/-- A second error after a first. -/
theorem witness_ErrorRecordIsSticky :
    (let s := aboutWrite cmdOffset 0x5 (recordError .engMode 0x2 State.reset);
      step s = .next (after (step s)) ∧ s.pending.head? ≠ some .reset ∧ s.err = true ∧ s.errCount ≠ 0
      ∧ s.errLast ≠ 0) :=
  ⟨next_after (by decide +kernel), by decide, rfl, by decide, by decide⟩

/-! #### Host accesses -/

theorem witness_RegisterMapOfBlocks :
    ((0x28 : BitVec 12), EngReg.dbgValue) ∈ [((0x00 : BitVec 12), EngReg.engStat), (0x04, .outLen),
      (0x08, .outIdx), (0x0C, .outData), (0x10, .inPush), (0x14, .inCtrl), (0x18, .inLen), (0x1C, .inPtr),
      (0x20, .dbgBase), (0x24, .dbgLength), (0x28, .dbgValue)]
    ∧ ((0x10 : BitVec 12), CtxReg.lastN) ∈ [((0x00 : BitVec 12), CtxReg.ctxStat), (0x04, .lastR),
      (0x08, .lastG), (0x0C, .lastB), (0x10, .lastN)] := by decide

/-- The last block register; the ends of each reserved range; the addresses next to the register space. -/
theorem witness_RegisterMapOfBlocks_more :
    ((0x058 : BitVec 12), Reg.dbgNsym) ∈ [((0x000 : BitVec 12), Reg.id), (0x004, .config), (0x008, .cmd),
      (0x00C, .status), (0x010, .errInfo), (0x014, .errData), (0x018, .res0), (0x020, .argR), (0x024, .argG),
      (0x028, .argB), (0x02C, .argN), (0x030, .resR), (0x034, .resG), (0x038, .resB), (0x03C, .resN),
      (0x040, .dbgSel), (0x044, .dbgCount), (0x048, .dbgDist), (0x04C, .dbgTotal), (0x050, .dbgCycle),
      (0x054, .dbgUntil), (0x058, .dbgNsym)]
    ∧ [0x01C, 0x05C, 0x0FF, 0x500, 0x7FF, 0xA00, 0xFFF].all (fun off => regAt State.reset.build off == none)
    ∧ ((0x2C : BitVec 12) ≤ 0x3F ∧ (0x3F : BitVec 12) < 0x40)
    ∧ ((0x14 : BitVec 12) ≤ 0x1F ∧ (0x1F : BitVec 12) < 0x20)
    ∧ State.reset.build.aceBase + 0x1000 ≤ 0x1000
    ∧ (0xFFF : Nat) < { Build.standard with aceBase := 0x1000 }.aceBase := by decide +kernel

/-- A read; a reserved offset and both write-only registers; a write to a reserved offset and to a read-only
register. -/
theorem witness_ReadsAreFreeAndBadWritesRecorded :
    ((about (.read (busAddr encState.build 0x00C) .w32) encState).pending
        = .read (busAddr encState.build 0x00C) .w32 :: [] ∧ (0x00C : BitVec 12).toNat % 4 = 0)
    ∧ (regAt encState.build 0x01C = none ∧ regAt encState.build 0x110 = some (.eng 0 .inPush)
      ∧ regAt encState.build 0x154 = some (.eng 1 .inCtrl))
    ∧ (aboutWrite 0x180 1 encState).pending = .write (busAddr encState.build 0x180) .w32 1 :: []
    ∧ regAt encState.build 0x180 = none ∧ regAt encState.build 0x000 = some .id ∧ readOnly .id = true :=
  ⟨⟨rfl, by decide⟩, ⟨by decide, by decide, by decide⟩, rfl, by decide, by decide, rfl⟩

theorem witness_ImproperAccessIsRecorded :
    (Width.w16 ≠ .w32 ∧ (0x002 : BitVec 12).toNat % 4 ≠ 0)
    ∧ (about (.read (busAddr State.reset.build 0x002) .w32) State.reset).pending
      = .read (busAddr State.reset.build 0x002) .w32 :: []
    ∧ (about (.write (busAddr State.reset.build 0x000) .w16 1) State.reset).pending
      = .write (busAddr State.reset.build 0x000) .w16 1 :: [] := by decide

theorem witness_StoredRegistersReadBack :
    ((0x040 : BitVec 12), Reg.dbgSel) ∈ [((0x020 : BitVec 12), Reg.argR), (0x024, .argG), (0x028, .argB),
      (0x02C, .argN), (0x040, .dbgSel)]
    ∧ (aboutWrite 0x040 0xFFFFFFFF State.reset).pending
      = .write (busAddr State.reset.build 0x040) .w32 0xFFFFFFFF :: [] := by
  decide

theorem witness_HostActionsOnTheBuffers :
    (heldState.held = some ⟨3, 0, 0, 0, 0⟩ ∧ heldState.build.hasEng 0 = true
      ∧ (aboutWrite (engOffset 0 0x14) 1 heldState).pending
        = .write (busAddr heldState.build (engOffset 0 0x14)) .w32 1 :: [])
    ∧ (State.reset.build.hasEng 1 = true ∧ State.reset.held = none
      ∧ (aboutWrite (engOffset 1 0x14) 3 State.reset).pending
        = .write (busAddr State.reset.build (engOffset 1 0x14)) .w32 3 :: [])
    ∧ (aboutWrite (engOffset 1 0x08) 1 State.reset).pending
        = .write (busAddr State.reset.build (engOffset 1 0x08)) .w32 1 :: []
    ∧ ({ Engine.reset with out := [7, 9] } : Engine).out[(1 : Word).toNat]? = some 9
    ∧ ({ Engine.reset with out := [7, 9] } : Engine).out.length ≤ (2 : Word).toNat :=
  ⟨⟨rfl, rfl, rfl⟩, ⟨rfl, rfl, rfl⟩, rfl, by decide, by decide⟩

theorem witness_StatusWordsHaveTheirFields : 0 < 12 ∧ 11 < 12 := by decide

/-- The last slot at its last index, an index past the alphabet, and a slot that does not exist. -/
theorem witness_DebugRegistersShowTheSlot :
    ({ encState with dbgSel := 0xFF90 }.dbgSel = 0xFF#8 ++ 9#4 ++ 0#4
      ∧ encState.build.hasCtx 0 = true ∧ (encState.ctx 0).phase ≠ .uninit
      ∧ encState.build.hasSlot 0 9 = true ∧ (0xFF#8).toNat < slotSyms encState.build.profile 9)
    ∧ slotSyms encState.build.profile 7 ≤ (128#8).toNat
    ∧ ¬ (encState.build.hasCtx 0 = true ∧ (encState.ctx 0).phase ≠ .uninit
      ∧ encState.build.hasSlot 0 10 = true) :=
  ⟨⟨by decide, rfl, by rw [encState_ctx]; decide, by decide, by decide⟩, by decide, fun h => by
    have := h.2.2
    revert this
    decide⟩

/-- The last byte of an output, an index past it, and both kinds of context. -/
theorem witness_EngineAndContextRegistersShowTheirFields :
    ({ Engine.reset with out := [7, 9], outIdx := 1 } : Engine).out[(1 : Word).toNat]? = some 9
    ∧ ({ Engine.reset with out := [7, 9], outIdx := 2 } : Engine).out.length ≤ (2 : Word).toNat
    ∧ encState.build.kind 0 = .colorNir ∧ (buildOf .color .doc).kind 0 = .color := by decide +kernel

/-! #### The machine -/

theorem noErrors_ok {s : State} (h1 : s.err = false) (h2 : s.errBits = 0) (h3 : s.errFirst = 0)
    (h4 : s.errLast = 0) (h5 : s.errCount = 0) (h6 : s.errData = 0) : s.ErrorsOk where
  clean := fun _ => ⟨h1, h2, h3, h4, h6⟩
  recorded := fun h => absurd h5 h
  firstCode := fun h => absurd h5 h
  lastCode := fun h => absurd h5 h
  noInternalCarry := by rw [h2]; decide

/-- An encoder about to code a point is sound. -/
theorem witness_StepKeepsTheInvariant :
    (aboutWrite cmdOffset 0x11 encState).Inv
    ∧ isNext (step (aboutWrite cmdOffset 0x11 encState)) = true where
  left := {
    ctxOk := fun c => by
      show (((seeded .colorNir .doc (grey 10) 100).setEng 0 (startEncoder Engine.reset)).ctx c).Ok _ _
      by_cases hc : c = 0
      · subst hc
        rw [State.ctx_setEng, seeded, State.ctx_setCtx_same]
        exact seedContext_ok _ _ _ _ _
      · rw [State.ctx_setEng, seeded, State.ctx_setCtx_ne _ _ hc, State.resetOf_ctx]
        exact reset_context_ok _ _
    engOk := fun e => by
      show (((seeded .colorNir .doc (grey 10) 100).setEng 0 (startEncoder Engine.reset)).eng e).Ok _ _
      by_cases he : e = 0
      · subst he
        rw [State.eng_setEng_same]
        exact ⟨fun _ => ⟨by decide, by decide⟩, fun h => (by cases h), by decide, fun _ h => (by cases h),
          fun _ h => (by cases h)⟩
      · rw [State.eng_setEng_ne _ _ he, seeded, State.eng_setCtx, State.resetOf_eng]
        exact reset_engine_ok _ _
    heldOk := fun _ h => by cases h
    errorsOk := noErrors_ok rfl rfl rfl rfl rfl rfl }
  right := by decide +kernel

/-- A decoder held for its fourth byte, about to get it, is sound. -/
theorem witness_SoundMachineNeverStops : (aboutWrite 0x110 4 heldState).Inv where
  ctxOk := fun c => by
    show ((State.resetOf Build.standard).ctx c).Ok _ _
    rw [State.resetOf_ctx]
    exact reset_context_ok _ _
  engOk := fun e => by
    show (((State.resetOf Build.standard).setEng 0 (filled [1, 2, 3] false)).eng e).Ok _ _
    by_cases he : e = 0
    · subst he
      rw [State.eng_setEng_same]
      exact ⟨fun h => (by cases h), fun h => (by cases h), by decide, fun _ h => (by cases h),
        fun _ h => (by cases h)⟩
    · rw [State.eng_setEng_ne _ _ he, State.resetOf_eng]
      exact reset_engine_ok _ _
  heldOk := fun h hh => by
    cases hh
    exact ⟨rfl, .decInit 0, by decide, rfl⟩
  errorsOk := noErrors_ok rfl rfl rfl rfl rfl rfl

end Sys2Proof.Tests
end

