-- ==== Sys2Proof/Proofs/Halves.lean ====
section
/-! The half, fold and clamp arithmetic of 00_scope.md R21 to R23, each operation read once as an integer, so that
later proofs about halves are arithmetic. -/

namespace Sys2Proof.Machine

/-! ### Halves -/

@[simp] theorem toNat_lo8 (v : Half) : (lo8 v).toNat = v.toNat % 256 := by
  simp [lo8]

@[simp] theorem toNat_hi8 (v : Half) : (hi8 v).toNat = v.toNat / 256 := by
  have hv : v.toNat / 256 < 256 := by have := v.isLt; omega
  simpa [hi8, Nat.shiftRight_eq_div_pow] using hv

/-- The low half fits below the shifted high half, so the `|||` of R21 is an addition. -/
@[simp] theorem toNat_join (h l : Byte) : (join h l).toNat = h.toNat * 256 + l.toNat := by
  have hh : h.toNat % 65536 = h.toNat := by have := h.isLt; omega
  have hl : l.toNat % 65536 = l.toNat := by have := l.isLt; omega
  have hs : h.toNat <<< 8 % 65536 = h.toNat <<< 8 := by
    have := h.isLt
    rw [Nat.shiftLeft_eq]
    omega
  calc (join h l).toNat
      = h.toNat <<< 8 ||| l.toNat := by simp [join, hh, hl, hs]
    _ = h.toNat <<< 8 + l.toNat := (Nat.shiftLeft_add_eq_or_of_lt l.isLt _).symm
    _ = h.toNat * 256 + l.toNat := by rw [Nat.shiftLeft_eq]

@[simp] theorem join_hi8_lo8 (v : Half) : join (hi8 v) (lo8 v) = v := by
  apply BitVec.eq_of_toNat_eq
  rw [toNat_join, toNat_hi8, toNat_lo8]
  omega

/-! ### Fold -/

@[simp] theorem toNat_fold (x : Int) : ((fold x).toNat : Int) = x % 256 := by
  have hx : 0 ≤ x % 256 := Int.emod_nonneg x (by decide)
  simp [fold, BitVec.toNat_ofInt, hx]

/-! ### Clamp: one lemma per range -/

theorem clamp_of_neg {x : Int} (hx : x < 0) : clamp x = 0 := if_pos hx

theorem clamp_of_gt {x : Int} (hx : 255 < x) : clamp x = 255 := by
  rw [clamp, if_neg (by omega), if_pos hx]

/-- Inside the byte range clamping and folding (R22, R23) agree: neither changes the value. -/
theorem clamp_eq_fold {x : Int} (h0 : 0 ≤ x) (h255 : x ≤ 255) : clamp x = fold x := by
  rw [clamp, if_neg (by omega), if_neg (by omega), fold]

theorem toNat_clamp {x : Int} (h0 : 0 ≤ x) (h255 : x ≤ 255) : ((clamp x).toNat : Int) = x := by
  rw [clamp_eq_fold h0 h255, toNat_fold, Int.emod_eq_of_lt h0 (by omega)]

/-- Settles O30, by the integer reading of each operation. -/
theorem halvesFoldAndClamp : Obligations.HalvesFoldAndClamp :=
  ⟨join_hi8_lo8, fun v => ⟨toNat_lo8 v, toNat_hi8 v⟩, toNat_fold,
    fun _ => clamp_of_neg, fun _ => clamp_of_gt, fun _ => toNat_clamp⟩

end Sys2Proof.Machine
end

