-- ==== Sys2Proof/Proofs/Commands.lean ====
section
/-! What a command does, said once: the checks of 60_exceptions.md R302 (`firstError`), then the work that follows
them (`work`). `exec_eq_finish_attempt` ties both to `exec`; proofs about every command start from it. -/

namespace Sys2Proof.Machine

/-- The model slot an index names where it names one (30_encoding.md R113). -/
def slotNamed (i : Idx) : Slot := Fin.ofNat 10 i.toNat

/-- What a command does once its checks have passed. -/
def work : Instr → State → Attempt State
  | .nop, s => .ok s
  | .encInit e, s => .ok (s.setEng e (startEncoder (s.eng e)))
  | .encDone e, s => do
    let g ← flushWith (s.build.outCapOf e) (s.eng e)
    .ok (s.setEng e g)
  | .decInit e, s => do
    let g ← startDecoder e (s.eng e)
    .ok (s.setEng e g)
  | .decDone e, s => .ok (s.setEng e { s.eng e with mode := .idle })
  | .initPoint c, s =>
    .ok (s.setCtx c (seedContext s.build.profile (s.build.kind c) (argRgb s) (argNir s) (s.ctx c)))
  | .writeRgb c e, s => do
    let t ← encodeAll c e (rgbSymbols s.build.profile (s.lastRgb c) (argRgb s)) s
    .ok { t.streamRgb c (argRgb s) with
      res0 := res0Point (rgbSymbols s.build.profile (s.lastRgb c) (argRgb s)).length
        (colorMask (s.lastRgb c) (argRgb s)) }
  | .readRgb c e, s => do
    let (m, p, t) ← decodeRgb c e s.build.profile (s.lastRgb c) s
    .ok { t.streamRgb c p with
      resR := p.r, resG := p.g, resB := p.b, res0 := res0Point (rgbCount m) m }
  | .writeNir c e, s => do
    let t ← encodeAll c e (nirSymbols (s.ctx c).lastN (argNir s)) s
    .ok { t.streamNir c (argNir s) with
      res0 := res0Point (nirSymbols (s.ctx c).lastN (argNir s)).length
        (nirMask (s.ctx c).lastN (argNir s)) }
  | .readNir c e, s => do
    let (m, v, t) ← decodeNir c e (s.ctx c).lastN s
    .ok { t.streamNir c v with resN := v, res0 := res0Point (nirCount m) m }
  | .modelInit c i, s => .ok (s.setCtx c (initModel s.build.profile (s.ctx c) (slotNamed i)))
  | .encSymbol c i e k, s => encodeSymbol c e (slotNamed i) k s
  | .decSymbol c i e, s => do
    let (k, t) ← decodeSymbol c e (slotNamed i) s
    .ok { t with res0 := res0Symbol k }

/-- One attempt of a command: its first failed check, else its work. -/
def attempt (i : Instr) (s : State) : Attempt State :=
  match firstError i s with
  | some x => .error (.error x)
  | none => work i s

theorem attempt_of_error {i : Instr} {s : State} {x : ErrCode} (h : firstError i s = some x) :
    attempt i s = .error (.error x) := by
  simp [attempt, h]

theorem attempt_of_checked {i : Instr} {s : State} (h : firstError i s = none) :
    attempt i s = work i s := by
  simp [attempt, h]

theorem attempt_eq_ok {i : Instr} {s t : State} :
    attempt i s = .ok t ↔ firstError i s = none ∧ work i s = .ok t := by
  unfold attempt
  split <;> simp [*]

/-- The checks of an attempt in the order of R302, written as the commands write theirs. -/
theorem attempt_eq_checks (i : Instr) (s : State) : attempt i s = (do
    require (i.wellFormed s.build) .indexRange
    require (!(needsNir i && namesColor s.build i)) .kindMismatch
    require (!(needsInit i && namesUninit s i)) .ctxUninit
    require (!namesWrongMode s i) .engMode
    require (!symbolOutside s.build.profile i) .symbolRange
    work i s) := by
  unfold attempt firstError
  cases i.wellFormed s.build
  · rfl
  cases needsNir i && namesColor s.build i
  · cases needsInit i && namesUninit s i
    · cases namesWrongMode s i
      · cases symbolOutside s.build.profile i <;> rfl
      · rfl
    · rfl
  · rfl

theorem firstError_eq_none {i : Instr} {s : State} : firstError i s = none ↔
    i.wellFormed s.build = true ∧ (needsNir i && namesColor s.build i) = false
    ∧ (needsInit i && namesUninit s i) = false ∧ namesWrongMode s i = false
    ∧ symbolOutside s.build.profile i = false := by
  unfold firstError
  split_ifs <;> simp_all

theorem require_and_bind {α : Type} (p q : Bool) (x : ErrCode) (f : Unit → Attempt α) :
    (require (p && q) x >>= f) = (require p x >>= fun _ => require q x >>= f) := by
  cases p <;> rfl

/-- The slot check passes exactly where the build has the slot. -/
theorem requireSlot_bind {α : Type} (s : State) (c i : Idx) (f : Slot → Attempt α) :
    (requireSlot s c i >>= f) = (require (s.build.hasSlot c i) .indexRange >>= fun _ => f (slotNamed i)) := by
  rw [← slotOf_isSome_eq_hasSlot, requireSlot]
  cases h : slotOf s.build c i with
  | none => rfl
  | some σ =>
    have hσ : slotNamed i = σ := Fin.ext (by simp [slotNamed, (slotOf_eq_some.mp h).1])
    simp [hσ]

theorem requireMode_eq (s : State) (e : Idx) (m : Mode) :
    requireMode s e m = require (!((s.eng e).mode != m)) .engMode := by
  rw [requireMode, bne, Bool.not_not]

theorem requireNir_eq (s : State) (c : Idx) :
    requireNir s c = require (!(s.build.kind c == .color)) .kindMismatch := by
  unfold requireNir
  cases s.build.kind c <;> rfl

theorem lt_ten_of_hasSlot {b : Build} {c i : Idx} (h : b.hasSlot c i = true) : i.toNat < 10 := by
  unfold Build.hasSlot at h
  cases hk : b.kind c <;> simp only [hk, decide_eq_true_eq] at h <;> omega

/-- Where the slot exists, the symbol check is against its alphabet. -/
theorem symbolOutside_encSymbol {b : Build} {c i : Idx} (h : b.hasSlot c i = true) (p : Profile) (e : Idx)
    (k : Byte) :
    (!symbolOutside p (.encSymbol c i e k)) = decide (k.toNat < slotSyms p (slotNamed i)) := by
  have hi := lt_ten_of_hasSlot h
  rw [Bool.eq_iff_iff, Bool.not_eq_true', decide_eq_true_iff, symbolOutside, decide_eq_false_iff_not]
  exact ⟨fun hk => Nat.not_le.mp fun hle => hk ⟨hi, hle⟩, fun hk hle => Nat.not_le.mpr hk hle.2⟩

/-- Every command is its checks in order, then its work, and ends as `finish` says. -/
theorem exec_eq_finish_attempt (i : Instr) (s : State) : exec i s = finish s (attempt i s) := by
  rw [attempt_eq_checks]
  cases i with
  | nop => rfl
  | encInit e => rfl
  | decInit e => rfl
  | initPoint c => rfl
  | encDone e => exact congrArg (finish s) (by rw [requireMode_eq]; rfl)
  | decDone e => exact congrArg (finish s) (by rw [requireMode_eq]; rfl)
  | writeRgb c e => exact congrArg (finish s) (by rw [requireMode_eq]; rfl)
  | readRgb c e => exact congrArg (finish s) (by rw [requireMode_eq]; rfl)
  | writeNir c e => exact congrArg (finish s) (by rw [requireMode_eq, requireNir_eq]; rfl)
  | readNir c e => exact congrArg (finish s) (by rw [requireMode_eq, requireNir_eq]; rfl)
  | modelInit c j =>
    exact congrArg (finish s) (by simp only [requireSlot_bind, Instr.wellFormed, require_and_bind]; rfl)
  | encSymbol c j e k =>
    refine congrArg (finish s) ?_
    simp only [requireSlot_bind, Instr.wellFormed, require_and_bind, requireMode_eq]
    cases h : s.build.hasSlot c j with
    | false => rfl
    | true => rw [symbolOutside_encSymbol h]; rfl
  | decSymbol c j e =>
    exact congrArg (finish s) (by
      simp only [requireSlot_bind, Instr.wellFormed, require_and_bind, requireMode_eq]; rfl)

end Sys2Proof.Machine
end

