-- ==== Sys2Proof/Proofs/Attempts.lean ====
section
/-! Reasoning about attempts: `Meets` says what holds when an attempt completes and when it stops. What every symbol
keeps, the lists of symbols and the point decoders keep; each is walked through once here. -/

namespace Sys2Proof.Machine

/-- An attempt that completes gives a result with `P`, and one that stops does so with `E`. -/
def Meets {α : Type} (a : Attempt α) (P : α → Prop) (E : Stop → Prop) : Prop :=
  match a with
  | .ok x => P x
  | .error y => E y

section
variable {α β : Type} {P : α → Prop} {E : Stop → Prop}

theorem Meets.of_ok {a : Attempt α} {x : α} (h : Meets a P E) (ha : a = .ok x) : P x := by
  subst ha
  exact h

theorem Meets.of_error {a : Attempt α} {y : Stop} (h : Meets a P E) (ha : a = .error y) : E y := by
  subst ha
  exact h

theorem Meets.mono {a : Attempt α} {Q : α → Prop} (h : Meets a P E) (hPQ : ∀ x, P x → Q x) :
    Meets a Q E := by
  cases a with
  | ok x => exact hPQ x h
  | error y => exact h

theorem Meets.and_ok {a : Attempt α} {Q : α → Prop} (h : Meets a P E) (hQ : ∀ x, a = .ok x → Q x) :
    Meets a (fun x => P x ∧ Q x) E := by
  cases a with
  | ok x => exact ⟨h, hQ x rfl⟩
  | error y => exact h

theorem Meets.bind {a : Attempt α} {f : α → Attempt β} {Q : β → Prop} (h : Meets a P E)
    (hf : ∀ x, P x → Meets (f x) Q E) : Meets (a >>= f) Q E := by
  cases a with
  | ok x => exact hf x h
  | error y => exact h

/-- What an attempt gives when it completes, with nothing said of how it stops. -/
theorem meets_of_forall_ok {a : Attempt α} (h : ∀ x, a = .ok x → P x) : Meets a P fun _ => True := by
  cases a with
  | ok x => exact h x rfl
  | error y => trivial

end

/-! ### Symbols, one after the other -/

/-- Decoding a symbol of engine `e` through a slot of context `c` with `P` keeps `I`, or stops with `E`. -/
def DecodingKeeps (c e : Idx) (P : Slot → Prop) (I : State → Prop) (E : Stop → Prop) : Prop :=
  ∀ σ, P σ → ∀ s, I s → Meets (decodeSymbol c e σ s) (fun r => I r.2) E

section
variable {c e : Idx} {P : Slot → Prop} {I : State → Prop} {E : Stop → Prop}

theorem encodeAll_keeps {syms : List (Slot × Byte)}
    (h : ∀ x ∈ syms, ∀ s, I s → Meets (encodeSymbol c e x.1 x.2 s) I E) {s : State} (hs : I s) :
    Meets (encodeAll c e syms s) I E := by
  induction syms generalizing s with
  | nil => exact hs
  | cons x rest ih =>
    exact (h x List.mem_cons_self s hs).bind fun t ht =>
      ih (fun y hy => h y (List.mem_cons_of_mem _ hy)) ht

theorem decodeHalf_keeps (h : DecodingKeeps c e P I E) {σ : Slot} (hσ : P σ) (on : Bool) (basis last : Byte)
    {s : State} (hs : I s) : Meets (decodeHalf c e on σ basis last s) (fun r => I r.2) E := by
  cases on with
  | false => exact hs
  | true => exact (h σ hσ s hs).bind fun _ ht => ht

theorem decodeChroma_keeps (h : DecodingKeeps c e P I E) (hP : ∀ σ : Slot, σ.val < 7 → P σ) (pr : Profile)
    (m : Byte) (l : Rgb) (r : Half) {s : State} (hs : I s) :
    Meets (decodeChroma c e pr m l r s) (fun x => I x.2) E := by
  cases pr with
  | doc =>
    exact (decodeHalf_keeps h (hP 3 (by decide)) _ _ _ hs).bind fun _ h1 =>
      (decodeHalf_keeps h (hP 4 (by decide)) _ _ _ h1).bind fun _ h2 =>
      (decodeHalf_keeps h (hP 5 (by decide)) _ _ _ h2).bind fun _ h3 =>
      (decodeHalf_keeps h (hP 6 (by decide)) _ _ _ h3).bind fun _ h4 => h4
  | laszip =>
    exact (decodeHalf_keeps h (hP 3 (by decide)) _ _ _ hs).bind fun _ h1 =>
      (decodeHalf_keeps h (hP 5 (by decide)) _ _ _ h1).bind fun _ h2 =>
      (decodeHalf_keeps h (hP 4 (by decide)) _ _ _ h2).bind fun _ h3 =>
      (decodeHalf_keeps h (hP 6 (by decide)) _ _ _ h3).bind fun _ h4 => h4

theorem decodeRgb_keeps (h : DecodingKeeps c e P I E) (hP : ∀ σ : Slot, σ.val < 7 → P σ) (pr : Profile)
    (l : Rgb) {s : State} (hs : I s) : Meets (decodeRgb c e pr l s) (fun x => I x.2.2) E := by
  refine (h 0 (hP 0 (by decide)) s hs).bind fun x hm => ?_
  refine (decodeHalf_keeps h (hP 1 (by decide)) _ _ _ hm).bind fun _ hl => ?_
  refine (decodeHalf_keeps h (hP 2 (by decide)) _ _ _ hl).bind fun _ hh => ?_
  dsimp only
  split
  · exact (decodeChroma_keeps h hP _ _ _ _ hh).bind fun _ ht => ht
  · exact hh

theorem decodeNir_keeps (h : DecodingKeeps c e P I E) (hP : ∀ σ : Slot, 7 ≤ σ.val → P σ) (l : Half)
    {s : State} (hs : I s) : Meets (decodeNir c e l s) (fun x => I x.2.2) E :=
  (h 7 (hP 7 (by decide)) s hs).bind fun _ hm =>
    (decodeHalf_keeps h (hP 8 (by decide)) _ _ _ hm).bind fun _ hl =>
    (decodeHalf_keeps h (hP 9 (by decide)) _ _ _ hl).bind fun _ hh => hh

end

/-! ### What decoding a point leaves alone -/

/-- Decoding symbols keeps the frame of one engine and of the slots decoded through. -/
theorem decodingKeeps_onlyCoded (c e : Idx) (P : Slot → Prop) (s : State) :
    DecodingKeeps c e P (fun t => OnlyCoded c e P s t ∧ DecoderFrame (s.eng e) (t.eng e)) fun _ => True :=
  fun σ hσ t ⟨hc, hg⟩ => meets_of_forall_ok fun ⟨_, u⟩ hu => by
    obtain ⟨hc', hg'⟩ := decodeSymbol_onlyCoded hu
    exact ⟨hc.trans (hc'.mono fun τ hτ => hτ ▸ hσ), hg.trans hg'⟩

theorem decodeRgb_onlyCoded {c e : Idx} {pr : Profile} {l p : Rgb} {m : Byte} {s t : State}
    (h : decodeRgb c e pr l s = .ok (m, p, t)) :
    OnlyCoded c e (·.val < 7) s t ∧ DecoderFrame (s.eng e) (t.eng e) :=
  (decodeRgb_keeps (decodingKeeps_onlyCoded c e (·.val < 7) s) (fun _ hσ => hσ) pr l
    ⟨OnlyCoded.refl c e _ s, rfl⟩).of_ok h

theorem decodeNir_onlyCoded {c e : Idx} {l v : Half} {m : Byte} {s t : State}
    (h : decodeNir c e l s = .ok (m, v, t)) :
    OnlyCoded c e (7 ≤ ·.val) s t ∧ DecoderFrame (s.eng e) (t.eng e) :=
  (decodeNir_keeps (decodingKeeps_onlyCoded c e (7 ≤ ·.val) s) (fun _ hσ => hσ) l
    ⟨OnlyCoded.refl c e _ s, rfl⟩).of_ok h

end Sys2Proof.Machine
end

