-- ==== Sys2Proof/Proofs/CommandFrames.lean ====
section
/-! The frames of the commands: which registers, engines and contexts a command writes (10_state.md R47 to R49, R54,
R56; 20_memory.md R89; 70_reset_and_hazards.md R335). A failed check or a hold writes none of them, so the frame of
`work` is the frame of the command. -/

namespace Sys2Proof.Machine

/-! ### Engines -/

/-- The fields of an engine that belong to the host stay: the input, its end mark and the read index. -/
structure SameHostSide (g g' : Engine) : Prop where
  input : g'.input = g.input
  eos : g'.eos = g.eos
  outIdx : g'.outIdx = g.outIdx

theorem EncoderFrame.sameHostSide {g g' : Engine} (h : EncoderFrame g g') : SameHostSide g g' := by
  rw [h]
  exact ⟨rfl, rfl, rfl⟩

theorem DecoderFrame.sameHostSide {g g' : Engine} (h : DecoderFrame g g') : SameHostSide g g' := by
  rw [h]
  exact ⟨rfl, rfl, rfl⟩

theorem appendZeros_frame {cap : Option Nat} {z : Nat} {g h : Engine} (hh : appendZeros cap z g = .ok h) :
    EncoderFrame g h := by
  induction z generalizing g with
  | zero =>
    cases hh
    rfl
  | succ z ih =>
    simp only [appendZeros, attempt_bind_eq_ok] at hh
    obtain ⟨a, ha, hb⟩ := hh
    exact (streamAppend_frame ha).trans (ih hb)

theorem flushNarrow_frame (g : Engine) : EncoderFrame g (flushNarrow g) := by
  unfold flushNarrow
  split <;> rfl

/-- `ENC_DONE` changes an encoder's own fields and leaves the engine idle. -/
theorem flushWith_frame {cap : Option Nat} {g h : Engine} (hh : flushWith cap g = .ok h) :
    ∃ g', EncoderFrame g g' ∧ h = { g' with mode := .idle } := by
  simp only [flushWith, attempt_bind_eq_ok] at hh
  obtain ⟨a, ha, b, hb, z, hz, hd⟩ := hh
  cases hd
  have narrowed : EncoderFrame g a := (flushNarrow_frame g).trans (carryIfWrapped_frame ha)
  exact ⟨z, (narrowed.trans (renormEncLoop_frame hb)).trans (appendZeros_frame hz), rfl⟩

theorem readBytes_frame {e : Idx} {n : Nat} {v w : Word} {g h : Engine}
    (hh : readBytes e n v g = .ok (w, h)) : DecoderFrame g h := by
  induction n generalizing v g with
  | zero =>
    cases hh
    rfl
  | succ n ih =>
    simp only [readBytes, attempt_bind_eq_ok] at hh
    obtain ⟨⟨b, a⟩, ha, hb⟩ := hh
    exact (streamRead_frame ha).trans (ih hb)

/-- `DEC_INIT` changes a decoder's own fields and leaves the engine decoding. -/
theorem startDecoder_frame {e : Idx} {g h : Engine} (hh : startDecoder e g = .ok h) :
    ∃ g', DecoderFrame g g' ∧ h = { g' with length := acMaxLength, mode := .dec } := by
  simp only [startDecoder, attempt_bind_eq_ok] at hh
  obtain ⟨⟨v, a⟩, ha, hb⟩ := hh
  cases hb
  have read : DecoderFrame g a := DecoderFrame.trans (h := { g with underrun := false }) rfl (readBytes_frame ha)
  exact ⟨{ a with value := v }, read.trans rfl, rfl⟩

/-! ### Engines and contexts a command touches -/

/-- What command `i` may have changed of the engines and contexts between `s` and `t`. -/
structure PartsFrame (i : Instr) (s t : State) : Prop where
  engines : ∀ e, engineOf i ≠ some e → t.eng e = s.eng e
  contexts : ∀ c, contextOf i ≠ some c → t.ctx c = s.ctx c
  input : ∀ e, (t.eng e).input = (s.eng e).input ∧ (t.eng e).eos = (s.eng e).eos
  outIdx : ∀ e, i ≠ .encInit e → (t.eng e).outIdx = (s.eng e).outIdx
  initialised : ∀ c, (s.ctx c).phase ≠ .uninit → (t.ctx c).phase ≠ .uninit

theorem PartsFrame.refl (i : Instr) (s : State) : PartsFrame i s s :=
  ⟨fun _ _ => rfl, fun _ _ => rfl, fun _ => ⟨rfl, rfl⟩, fun _ _ => rfl, fun _ h => h⟩

theorem PartsFrame.trans {i : Instr} {s t u : State} (h : PartsFrame i s t) (k : PartsFrame i t u) :
    PartsFrame i s u where
  engines := fun e he => (k.engines e he).trans (h.engines e he)
  contexts := fun c hc => (k.contexts c hc).trans (h.contexts c hc)
  input := fun e => ⟨(k.input e).1.trans (h.input e).1, (k.input e).2.trans (h.input e).2⟩
  outIdx := fun e he => (k.outIdx e he).trans (h.outIdx e he)
  initialised := fun c hc => k.initialised c (h.initialised c hc)

/-- The frame speaks of engines and contexts only, so any other field may differ. -/
theorem PartsFrame.congr {i : Instr} {s t u : State} (h : PartsFrame i s t) (he : u.engs = t.engs)
    (hc : u.ctxs = t.ctxs) : PartsFrame i s u := by
  have eng_eq (e : Idx) : u.eng e = t.eng e := by simp only [State.eng, he]
  have ctx_eq (c : Idx) : u.ctx c = t.ctx c := by simp only [State.ctx, hc]
  exact ⟨by simpa only [eng_eq] using h.engines, by simpa only [ctx_eq] using h.contexts,
    by simpa only [eng_eq] using h.input, by simpa only [eng_eq] using h.outIdx,
    by simpa only [ctx_eq] using h.initialised⟩

/-- A write to the engine a command names; `ENC_INIT` alone may clear the host's read index. -/
theorem PartsFrame.setEng {i : Instr} {s : State} {e : Idx} {g : Engine} (hi : engineOf i = some e)
    (hin : g.input = (s.eng e).input) (heos : g.eos = (s.eng e).eos)
    (hidx : i ≠ .encInit e → g.outIdx = (s.eng e).outIdx) : PartsFrame i s (s.setEng e g) where
  engines := fun f hf => s.eng_setEng_ne g fun h => hf (h ▸ hi)
  contexts := fun _ _ => rfl
  input := fun f => by
    by_cases h : f = e
    · subst h
      simp [hin, heos]
    · simp [s.eng_setEng_ne g h]
  outIdx := fun f hf => by
    by_cases h : f = e
    · subst h
      simp [hidx hf]
    · simp [s.eng_setEng_ne g h]
  initialised := fun _ h => h

/-- A write to the context a command names that does not make it UNINIT. -/
theorem PartsFrame.setCtx {i : Instr} {s : State} {c : Idx} {x : Context} (hi : contextOf i = some c)
    (hx : (s.ctx c).phase ≠ .uninit → x.phase ≠ .uninit) : PartsFrame i s (s.setCtx c x) where
  engines := fun _ _ => rfl
  contexts := fun d hd => s.ctx_setCtx_ne x fun h => hd (h ▸ hi)
  input := fun _ => ⟨rfl, rfl⟩
  outIdx := fun _ _ => rfl
  initialised := fun d hd => by
    by_cases h : d = c
    · subst h
      simpa using hx hd
    · simpa [s.ctx_setCtx_ne x h] using hd

/-- Symbols coded on the engine and through the context a command names. -/
theorem PartsFrame.coded {i : Instr} {s t : State} {c e : Idx} {P : Slot → Prop} (hc : contextOf i = some c)
    (he : engineOf i = some e) (h : OnlyCoded c e P s t) (hg : SameHostSide (s.eng e) (t.eng e)) :
    PartsFrame i s t where
  engines := fun f hf => h.engines f fun hfe => hf (hfe ▸ he)
  contexts := fun d hd => h.contexts d fun hdc => hd (hdc ▸ hc)
  input := fun f => by
    by_cases hf : f = e
    · subst hf
      exact ⟨hg.input, hg.eos⟩
    · rw [h.engines f hf]
      exact ⟨rfl, rfl⟩
  outIdx := fun f _ => by
    by_cases hf : f = e
    · subst hf
      exact hg.outIdx
    · rw [h.engines f hf]
  initialised := fun d hd => by
    by_cases hdc : d = c
    · subst hdc
      rw [h.context]
      exact hd
    · rwa [h.contexts d hdc]

theorem PartsFrame.streamRgb {i : Instr} {s t : State} {c : Idx} (h : PartsFrame i s t)
    (hc : contextOf i = some c) (p : Rgb) : PartsFrame i s (t.streamRgb c p) :=
  h.trans (PartsFrame.setCtx hc fun _ => by simp)

theorem PartsFrame.streamNir {i : Instr} {s t : State} {c : Idx} (h : PartsFrame i s t)
    (hc : contextOf i = some c) (v : Half) : PartsFrame i s (t.streamNir c v) :=
  h.trans (PartsFrame.setCtx hc fun _ => by simp)

theorem work_partsFrame {i : Instr} {s t : State} (h : work i s = .ok t) : PartsFrame i s t := by
  cases i <;> simp only [work, attempt_bind_eq_ok, Except.ok.injEq, Prod.exists] at h
  case nop =>
    subst h
    exact PartsFrame.refl _ _
  case encInit e =>
    subst h
    exact PartsFrame.setEng rfl rfl rfl fun hi => absurd rfl hi
  case encDone e =>
    obtain ⟨g, hg, rfl⟩ := h
    obtain ⟨g', hf, rfl⟩ := flushWith_frame hg
    obtain ⟨hin, heos, hidx⟩ := hf.sameHostSide
    exact PartsFrame.setEng rfl hin heos fun _ => hidx
  case decInit e =>
    obtain ⟨g, hg, rfl⟩ := h
    obtain ⟨g', hf, rfl⟩ := startDecoder_frame hg
    obtain ⟨hin, heos, hidx⟩ := hf.sameHostSide
    exact PartsFrame.setEng rfl hin heos fun _ => hidx
  case decDone e =>
    subst h
    exact PartsFrame.setEng rfl rfl rfl fun _ => rfl
  case initPoint c =>
    subst h
    exact PartsFrame.setCtx rfl fun _ => by simp [seedContext]
  case writeRgb c e =>
    obtain ⟨u, hu, rfl⟩ := h
    obtain ⟨hc, hg⟩ := encodeAll_onlyCoded (P := fun _ => True) (fun _ _ => trivial) hu
    exact ((PartsFrame.coded rfl rfl hc hg.sameHostSide).streamRgb rfl _).congr rfl rfl
  case readRgb c e =>
    obtain ⟨m, p, u, hu, rfl⟩ := h
    obtain ⟨hc, hg⟩ := decodeRgb_onlyCoded hu
    exact ((PartsFrame.coded rfl rfl hc hg.sameHostSide).streamRgb rfl _).congr rfl rfl
  case writeNir c e =>
    obtain ⟨u, hu, rfl⟩ := h
    obtain ⟨hc, hg⟩ := encodeAll_onlyCoded (P := fun _ => True) (fun _ _ => trivial) hu
    exact ((PartsFrame.coded rfl rfl hc hg.sameHostSide).streamNir rfl _).congr rfl rfl
  case readNir c e =>
    obtain ⟨m, v, u, hu, rfl⟩ := h
    obtain ⟨hc, hg⟩ := decodeNir_onlyCoded hu
    exact ((PartsFrame.coded rfl rfl hc hg.sameHostSide).streamNir rfl _).congr rfl rfl
  case modelInit c j =>
    subst h
    exact PartsFrame.setCtx rfl fun hx => hx
  case encSymbol c j e k =>
    obtain ⟨hc, hg⟩ := encodeSymbol_onlyCoded h
    exact PartsFrame.coded rfl rfl hc hg.sameHostSide
  case decSymbol c j e =>
    obtain ⟨k, u, hu, rfl⟩ := h
    obtain ⟨hc, hg⟩ := decodeSymbol_onlyCoded hu
    exact (PartsFrame.coded rfl rfl hc hg.sameHostSide).congr rfl rfl

/-! ### Registers a command writes -/

/-- What command `i` may have changed of the registers between `s` and `t`. -/
structure RegisterFrame (i : Instr) (s t : State) : Prop where
  others : t = { s with
    res0 := t.res0, resR := t.resR, resG := t.resG, resB := t.resB, resN := t.resN
    engs := t.engs, ctxs := t.ctxs }
  res0 : writesRes0 i = false → t.res0 = s.res0
  resRgb : (∀ c e, i ≠ .readRgb c e) → t.resR = s.resR ∧ t.resG = s.resG ∧ t.resB = s.resB
  resN : (∀ c e, i ≠ .readNir c e) → t.resN = s.resN

/-- A command that writes engines and contexts only. -/
theorem RegisterFrame.of_parts {i : Instr} {s t : State} (h : t = { s with engs := t.engs, ctxs := t.ctxs }) :
    RegisterFrame i s t := by
  rw [h]
  exact ⟨rfl, fun _ => rfl, fun _ => ⟨rfl, rfl, rfl⟩, fun _ => rfl⟩

theorem work_registerFrame {i : Instr} {s t : State} (h : work i s = .ok t) : RegisterFrame i s t := by
  cases i <;> simp only [work, attempt_bind_eq_ok, Except.ok.injEq, Prod.exists] at h
  case nop | encInit | decDone | initPoint | modelInit =>
    subst h
    exact RegisterFrame.of_parts rfl
  case encDone e | decInit e =>
    obtain ⟨g, -, rfl⟩ := h
    exact RegisterFrame.of_parts rfl
  case writeRgb c e | writeNir c e =>
    obtain ⟨u, hu, rfl⟩ := h
    rw [(encodeAll_onlyCoded (P := fun _ => True) (fun _ _ => trivial) hu).1.registers]
    exact ⟨rfl, fun hr => by simp [writesRes0] at hr, fun _ => ⟨rfl, rfl, rfl⟩, fun _ => rfl⟩
  case readRgb c e =>
    obtain ⟨m, p, u, hu, rfl⟩ := h
    rw [(decodeRgb_onlyCoded hu).1.registers]
    exact ⟨rfl, fun hr => by simp [writesRes0] at hr, fun hi => absurd rfl (hi c e), fun _ => rfl⟩
  case readNir c e =>
    obtain ⟨m, v, u, hu, rfl⟩ := h
    rw [(decodeNir_onlyCoded hu).1.registers]
    exact ⟨rfl, fun hr => by simp [writesRes0] at hr, fun _ => ⟨rfl, rfl, rfl⟩, fun hi => absurd rfl (hi c e)⟩
  case encSymbol c j e k =>
    exact RegisterFrame.of_parts (encodeSymbol_onlyCoded h).1.registers
  case decSymbol c j e =>
    obtain ⟨k, u, hu, rfl⟩ := h
    rw [(decodeSymbol_onlyCoded hu).1.registers]
    exact ⟨rfl, fun hr => by simp [writesRes0] at hr, fun _ => ⟨rfl, rfl, rfl⟩, fun _ => rfl⟩

/-! ### The commands -/

/-- Everything a command can leave: its work done, an error recorded, or itself held. -/
theorem exec_next_cases {i : Instr} {s t : State} (h : exec i s = .next t) :
    (∃ u, firstError i s = none ∧ work i s = .ok u ∧ t = { u with held := none })
    ∨ (∃ x, attempt i s = .error (.error x) ∧ t = errorState x s)
    ∨ (attempt i s = .error .hold ∧ t = { s with held := some (latchOf s) }) := by
  rw [exec_eq_finish_attempt] at h
  refine (finish_next_cases h).imp_left fun ⟨u, hu, ht⟩ => ?_
  obtain ⟨hchecks, hwork⟩ := attempt_eq_ok.mp hu
  exact ⟨u, hchecks, hwork, ht⟩

theorem exec_partsFrame {i : Instr} {s t : State} (h : exec i s = .next t) : PartsFrame i s t := by
  rcases exec_next_cases h with ⟨u, -, hu, rfl⟩ | ⟨x, -, rfl⟩ | ⟨-, rfl⟩
  · exact (work_partsFrame hu).congr rfl rfl
  · exact (PartsFrame.refl i s).congr rfl rfl
  · exact (PartsFrame.refl i s).congr rfl rfl

/-- Settles O45: a command completes as its work, whose writes are those of R47 to R49, or else leaves every one of
these registers. -/
theorem commandsWriteOnlyTheirRegisters : Obligations.CommandsWriteOnlyTheirRegisters := by
  intro i s t h
  rcases exec_next_cases h with ⟨u, -, hu, rfl⟩ | ⟨x, -, rfl⟩ | ⟨-, rfl⟩
  · obtain ⟨others, res0, resRgb, resN⟩ := work_registerFrame hu
    refine ⟨?_, ?_, ?_, ?_, ?_, ?_, ?_, ?_, ?_, res0, resRgb, resN⟩ <;> rw [others]
  · simp [errorState]
  · simp

/-- Settles O46, by the frame of every command's work. -/
theorem commandsTouchOnlyWhatTheyName : Obligations.CommandsTouchOnlyWhatTheyName := fun _ _ _ h =>
  have frame := exec_partsFrame h
  ⟨frame.engines, frame.contexts, frame.input, frame.outIdx⟩

end Sys2Proof.Machine
end

