-- ==== Sys2Proof/Proofs/Streaming.lean ====
section
/-! SEEDED against STREAMING (10_state.md R54). No command tells them apart: every operation on a state commutes with
`asStreaming`, up to the phase that the operation itself writes. -/

namespace Sys2Proof.Machine

/-! ### Attempts on a changed state -/

/-- Two runs stay related by `g` when their first parts differ by `f` only and so do the rests. -/
theorem attempt_bind_commutes {α β : Type} {f : α → α} {g : β → β} {a a' : Attempt α} {k k' : α → Attempt β}
    (ha : a' = a.map f) (hk : ∀ x, k' (f x) = (k x).map g) : (a' >>= k') = (a >>= k).map g := by
  subst ha
  cases a with
  | ok x => exact hk x
  | error y => rfl

/-- The same with rests that agree only after `g`. -/
theorem attempt_bind_agrees {α β γ : Type} {f : α → α} {g : β → γ} {a a' : Attempt α} {k k' : α → Attempt β}
    (ha : a' = a.map f) (hk : ∀ x, (k' (f x)).map g = (k x).map g) : (a' >>= k').map g = (a >>= k).map g := by
  subst ha
  cases a with
  | ok x => exact hk x
  | error y => rfl

theorem attempt_map_id {α : Type} (a : Attempt α) : a = a.map id :=
  (congrFun Except.map_id a).symm

/-- Decoding a symbol of engine `e` through context `c` commutes with the change `φ` of the state. -/
def DecodingCommutes (c e : Idx) (φ : State → State) : Prop :=
  ∀ σ s, decodeSymbol c e σ (φ s) = (decodeSymbol c e σ s).map (Prod.map id φ)

section
variable {c e : Idx} {φ : State → State}

theorem encodeAll_commutes (h : ∀ σ k s, encodeSymbol c e σ k (φ s) = (encodeSymbol c e σ k s).map φ)
    (syms : List (Slot × Byte)) (s : State) : encodeAll c e syms (φ s) = (encodeAll c e syms s).map φ := by
  induction syms generalizing s with
  | nil => rfl
  | cons x rest ih => exact attempt_bind_commutes (h x.1 x.2 s) ih

theorem decodeHalf_commutes (h : DecodingCommutes c e φ) (on : Bool) (σ : Slot) (basis last : Byte)
    (s : State) :
    decodeHalf c e on σ basis last (φ s) = (decodeHalf c e on σ basis last s).map (Prod.map id φ) := by
  cases on with
  | false => rfl
  | true => exact attempt_bind_commutes (h σ s) fun _ => rfl

theorem decodeChroma_commutes (h : DecodingCommutes c e φ) (pr : Profile) (m : Byte) (l : Rgb) (r : Half)
    (s : State) :
    decodeChroma c e pr m l r (φ s) = (decodeChroma c e pr m l r s).map (Prod.map id φ) := by
  cases pr with
  | doc | laszip =>
    exact attempt_bind_commutes (decodeHalf_commutes h _ _ _ _ _) fun _ =>
      attempt_bind_commutes (decodeHalf_commutes h _ _ _ _ _) fun _ =>
      attempt_bind_commutes (decodeHalf_commutes h _ _ _ _ _) fun _ =>
      attempt_bind_commutes (decodeHalf_commutes h _ _ _ _ _) fun _ => rfl

theorem decodeRgb_commutes (h : DecodingCommutes c e φ) (pr : Profile) (l : Rgb) (s : State) :
    decodeRgb c e pr l (φ s) = (decodeRgb c e pr l s).map (Prod.map id (Prod.map id φ)) := by
  refine attempt_bind_commutes (h 0 s) fun ⟨m, t⟩ => ?_
  refine attempt_bind_commutes (decodeHalf_commutes h _ _ _ _ _) fun _ => ?_
  refine attempt_bind_commutes (decodeHalf_commutes h _ _ _ _ _) fun _ => ?_
  dsimp only [Prod.map, id]
  split
  · exact attempt_bind_commutes (decodeChroma_commutes h _ _ _ _ _) fun _ => rfl
  · rfl

theorem decodeNir_commutes (h : DecodingCommutes c e φ) (l : Half) (s : State) :
    decodeNir c e l (φ s) = (decodeNir c e l s).map (Prod.map id (Prod.map id φ)) :=
  attempt_bind_commutes (h 7 s) fun _ =>
    attempt_bind_commutes (decodeHalf_commutes h _ _ _ _ _) fun _ =>
    attempt_bind_commutes (decodeHalf_commutes h _ _ _ _ _) fun _ => rfl

end

/-! ### `asStreaming` -/

theorem State.ctx_asStreaming_same (s : State) (c : Idx) :
    (s.asStreaming c).ctx c = { s.ctx c with phase := .streaming } :=
  s.ctx_setCtx_same c _

theorem State.ctx_asStreaming_ne (s : State) {c d : Idx} (h : d ≠ c) : (s.asStreaming c).ctx d = s.ctx d :=
  s.ctx_setCtx_ne _ h

/-- Only the phase of the context changes. -/
theorem State.ctx_asStreaming (s : State) (c d : Idx) :
    (s.asStreaming c).ctx d = { s.ctx d with phase := ((s.asStreaming c).ctx d).phase } := by
  by_cases h : d = c
  · subst h
    simp [s.ctx_asStreaming_same]
  · simp [s.ctx_asStreaming_ne h]

theorem State.model_asStreaming (s : State) (c d : Idx) (σ : Slot) :
    (s.asStreaming c).model d σ = s.model d σ := by
  rw [State.model, s.ctx_asStreaming]
  rfl

theorem State.lastRgb_asStreaming (s : State) (c d : Idx) : (s.asStreaming c).lastRgb d = s.lastRgb d := by
  rw [State.lastRgb, s.ctx_asStreaming]
  rfl

theorem State.lastN_asStreaming (s : State) (c d : Idx) : ((s.asStreaming c).ctx d).lastN = (s.ctx d).lastN := by
  rw [s.ctx_asStreaming]

/-- Two states that differ in no more than contexts are equal when every context is. -/
theorem State.eq_of_ctx {s t : State} (h : s = { t with ctxs := s.ctxs }) (hc : ∀ d, s.ctx d = t.ctx d) :
    s = t := by
  rw [h, State.ctxs_ext hc]

/-- Writing contexts that agree but for a phase `asStreaming` overwrites. -/
theorem State.setCtx_asStreaming (s : State) {c d : Idx} {x y : Context}
    (h : x = { y with phase := x.phase }) (hne : d ≠ c → x.phase = y.phase) :
    ((s.asStreaming c).setCtx d x).asStreaming c = (s.setCtx d y).asStreaming c := by
  refine State.eq_of_ctx rfl fun b => ?_
  by_cases hbc : b = c
  · subst hbc
    rw [ctx_asStreaming_same, ctx_asStreaming_same]
    by_cases hbd : b = d
    · subst hbd
      rw [ctx_setCtx_same, ctx_setCtx_same, h]
    · rw [ctx_setCtx_ne _ _ hbd, ctx_setCtx_ne _ _ hbd, ctx_asStreaming_same]
  · rw [ctx_asStreaming_ne _ hbc, ctx_asStreaming_ne _ hbc]
    by_cases hbd : b = d
    · subst hbd
      rw [ctx_setCtx_same, ctx_setCtx_same, h, hne hbc]
    · rw [ctx_setCtx_ne _ _ hbd, ctx_setCtx_ne _ _ hbd, ctx_asStreaming_ne _ hbc]

theorem State.asStreaming_eq_self {s : State} {c : Idx} (h : (s.ctx c).phase = .streaming) :
    s.asStreaming c = s := by
  refine State.eq_of_ctx rfl fun b => ?_
  by_cases hbc : b = c
  · subst hbc
    rw [ctx_asStreaming_same, ← h]
  · rw [ctx_asStreaming_ne _ hbc]

@[simp] theorem State.phase_asStreaming (s : State) (c : Idx) : ((s.asStreaming c).ctx c).phase = .streaming := by
  rw [ctx_asStreaming_same]

theorem State.asStreaming_asStreaming (s : State) (c : Idx) :
    (s.asStreaming c).asStreaming c = s.asStreaming c :=
  asStreaming_eq_self (s.phase_asStreaming c)

theorem State.phase_setModel (s : State) (c d : Idx) (σ : Slot) (m : Model) :
    ((s.setModel d σ m).ctx c).phase = (s.ctx c).phase := by
  by_cases h : c = d
  · subst h
    simp
  · rw [s.ctx_setModel_ne σ m h]

theorem State.setModel_asStreaming (s : State) (c d : Idx) (σ : Slot) (m : Model) :
    (s.asStreaming c).setModel d σ m = (s.setModel d σ m).asStreaming c :=
  calc (s.asStreaming c).setModel d σ m
      = ((s.asStreaming c).setModel d σ m).asStreaming c :=
        (asStreaming_eq_self ((phase_setModel ..).trans (s.phase_asStreaming c))).symm
    _ = (s.setModel d σ m).asStreaming c := by
        refine s.setCtx_asStreaming ?_ fun hne => ?_
        · rw [s.ctx_asStreaming]
          rfl
        · rw [s.ctx_asStreaming_ne hne]

theorem State.streamRgb_asStreaming (s : State) (c d : Idx) (p : Rgb) :
    ((s.asStreaming c).streamRgb d p).asStreaming c = (s.streamRgb d p).asStreaming c :=
  s.setCtx_asStreaming (by rw [s.ctx_asStreaming]) fun _ => rfl

theorem State.streamNir_asStreaming (s : State) (c d : Idx) (v : Half) :
    ((s.asStreaming c).streamNir d v).asStreaming c = (s.streamNir d v).asStreaming c :=
  s.setCtx_asStreaming (by rw [s.ctx_asStreaming]) fun _ => rfl

/-- Writing other fields keeps two states equal but for the phase. -/
theorem State.asStreaming_congr {s t : State} {c : Idx} (h : s.asStreaming c = t.asStreaming c)
    (f : State → State) (hf : ∀ u, (f u).asStreaming c = f (u.asStreaming c)) :
    (f s).asStreaming c = (f t).asStreaming c := by
  rw [hf, hf, h]

/-- Seeding a context overwrites its phase. -/
theorem seedContext_of_phase (p : Profile) (k : Kind) (rgb : Rgb) (nir : Half) (x : Context) (ph : Phase) :
    seedContext p k rgb nir { x with phase := ph } = seedContext p k rgb nir x := by
  cases k <;> rfl

/-! ### Symbols and commands on `asStreaming` -/

theorem encodeSymbol_asStreaming (c d e : Idx) (σ : Slot) (k : Byte) (s : State) :
    encodeSymbol d e σ k (s.asStreaming c) = (encodeSymbol d e σ k s).map (·.asStreaming c) := by
  unfold encodeSymbol
  rw [s.model_asStreaming]
  exact attempt_bind_commutes (attempt_map_id _) fun ⟨g, m⟩ =>
    congrArg Except.ok ((s.setEng e g).setModel_asStreaming c d σ m)

theorem decodeSymbol_asStreaming (c d e : Idx) : DecodingCommutes d e (·.asStreaming c) := fun σ s => by
  unfold decodeSymbol
  rw [s.model_asStreaming]
  exact attempt_bind_commutes (attempt_map_id _) fun ⟨k, g, m⟩ =>
    congrArg (fun t => Except.ok (k, t)) ((s.setEng e g).setModel_asStreaming c d σ m)

theorem firstError_asStreaming {s : State} {c : Idx} (h : (s.ctx c).phase ≠ .uninit) (i : Instr) :
    firstError i (s.asStreaming c) = firstError i s := by
  have uninit_eq : namesUninit (s.asStreaming c) i = namesUninit s i := by
    unfold namesUninit
    cases contextOf i with
    | none => rfl
    | some d =>
      by_cases hd : d = c
      · subst hd
        simpa using h
      · simp only [s.ctx_asStreaming_ne hd]
  unfold firstError
  rw [uninit_eq]
  rfl

/-- What a command does to `asStreaming` and to the state itself differs in that phase only. -/
theorem work_asStreaming (i : Instr) (s : State) (c : Idx) :
    (work i (s.asStreaming c)).map (·.asStreaming c) = (work i s).map (·.asStreaming c) := by
  cases i with
  | nop => exact congrArg Except.ok (s.asStreaming_asStreaming c)
  | encInit e | decDone e => exact congrArg Except.ok ((s.setEng e _).asStreaming_asStreaming c)
  | encDone e | decInit e =>
    exact attempt_bind_agrees (attempt_map_id _) fun g =>
      congrArg Except.ok ((s.setEng e g).asStreaming_asStreaming c)
  | initPoint d =>
    refine congrArg Except.ok (s.setCtx_asStreaming ?_ fun _ => rfl)
    rw [s.ctx_asStreaming, seedContext_of_phase]
    rfl
  | writeRgb d e =>
    simp only [work, s.lastRgb_asStreaming]
    exact attempt_bind_agrees (encodeAll_commutes (encodeSymbol_asStreaming c d e) _ s) fun t =>
      congrArg Except.ok (State.asStreaming_congr (t.streamRgb_asStreaming c d (argRgb s))
        (fun u => { u with res0 := _ }) fun _ => rfl)
  | readRgb d e =>
    simp only [work, s.lastRgb_asStreaming]
    exact attempt_bind_agrees (decodeRgb_commutes (decodeSymbol_asStreaming c d e) _ _ s) fun ⟨m, p, t⟩ =>
      congrArg Except.ok (State.asStreaming_congr (t.streamRgb_asStreaming c d p)
        (fun u => { u with resR := p.r, resG := p.g, resB := p.b, res0 := _ }) fun _ => rfl)
  | writeNir d e =>
    simp only [work, s.lastN_asStreaming]
    exact attempt_bind_agrees (encodeAll_commutes (encodeSymbol_asStreaming c d e) _ s) fun t =>
      congrArg Except.ok (State.asStreaming_congr (t.streamNir_asStreaming c d (argNir s))
        (fun u => { u with res0 := _ }) fun _ => rfl)
  | readNir d e =>
    simp only [work, s.lastN_asStreaming]
    exact attempt_bind_agrees (decodeNir_commutes (decodeSymbol_asStreaming c d e) _ s) fun ⟨m, v, t⟩ =>
      congrArg Except.ok (State.asStreaming_congr (t.streamNir_asStreaming c d v)
        (fun u => { u with resN := v, res0 := _ }) fun _ => rfl)
  | modelInit d j =>
    refine congrArg Except.ok (s.setCtx_asStreaming ?_ fun hne => ?_)
    · rw [s.ctx_asStreaming]
      rfl
    · rw [s.ctx_asStreaming_ne hne]
      rfl
  | encSymbol d j e k =>
    rw [work, work, encodeSymbol_asStreaming]
    cases encodeSymbol d e (slotNamed j) k s with
    | ok t => exact congrArg Except.ok (t.asStreaming_asStreaming c)
    | error y => rfl
  | decSymbol d j e =>
    exact attempt_bind_agrees (decodeSymbol_asStreaming c d e _ s) fun ⟨k, t⟩ =>
      congrArg Except.ok (State.asStreaming_congr (t.asStreaming_asStreaming c)
        (fun u => { u with res0 := res0Symbol k }) fun _ => rfl)

theorem finish_asStreaming {s t : State} {c : Idx} {a a' : Attempt State}
    (h : a'.map (·.asStreaming c) = a.map (·.asStreaming c)) (ht : finish s a = .next t) :
    ∃ t', finish (s.asStreaming c) a' = .next t' ∧ t'.asStreaming c = t.asStreaming c := by
  rcases finish_next_cases ht with ⟨u, rfl, rfl⟩ | ⟨x, rfl, rfl⟩ | ⟨rfl, rfl⟩
  · cases a' with
    | ok u' =>
      have hu : u'.asStreaming c = u.asStreaming c := Except.ok.inj h
      exact ⟨_, rfl, congrArg (fun v : State => { v with held := none }) hu⟩
    | error y => cases h
  · cases a' with
    | ok u' => cases h
    | error y =>
      cases h
      exact ⟨_, rfl, (errorState x s).asStreaming_asStreaming c⟩
  · cases a' with
    | ok u' => cases h
    | error y =>
      cases h
      exact ⟨_, rfl, { s with held := some (latchOf s) }.asStreaming_asStreaming c⟩

/-- Settles O47: the frame keeps every context initialised, and checks and work alike do not tell SEEDED from
STREAMING. -/
theorem seededBehavesAsStreaming : Obligations.SeededBehavesAsStreaming := by
  refine ⟨fun i s t c h => (exec_partsFrame h).initialised c, fun i s t c hc h => ?_⟩
  have hne : (s.ctx c).phase ≠ .uninit := by simp [hc]
  rw [exec_eq_finish_attempt] at h ⊢
  refine finish_asStreaming ?_ h
  unfold attempt
  rw [firstError_asStreaming hne]
  cases firstError i s with
  | some x => rfl
  | none => exact work_asStreaming i s c

end Sys2Proof.Machine
end

