-- ==== Sys2Proof/Proofs/ModelInvariant.lean ====
section
/-! The adaptive model keeps its invariant (40_model.md R143 to R146): an update is read in integers, its sums bounded
so that no 32-bit operation wraps. -/

namespace Sys2Proof.Machine

/-! ### Sums of counts -/

theorem countTotal_append (cs ds : List Word) : countTotal (cs ++ ds) = countTotal cs + countTotal ds := by
  simp [countTotal]

theorem length_le_countTotal {cs : List Word} (h : ∀ x ∈ cs, 1 ≤ x.toNat) : cs.length ≤ countTotal cs := by
  induction cs with
  | nil => simp
  | cons c cs ih =>
    simp only [List.mem_cons, forall_eq_or_imp] at h
    have := ih h.2
    simp only [List.length_cons, countTotal_cons]
    omega

theorem toNat_le_countTotal {cs : List Word} {x : Word} (h : x ∈ cs) : x.toNat ≤ countTotal cs :=
  List.le_sum_of_mem (List.mem_map_of_mem h)

/-- Replacing one count moves the sum by the difference. -/
theorem countTotal_set {cs : List Word} {k : Nat} (h : k < cs.length) (x : Word) :
    countTotal (cs.set k x) + (cs.getD k 0).toNat = countTotal cs + x.toNat := by
  induction cs generalizing k with
  | nil => simp at h
  | cons c cs ih =>
    cases k with
    | zero =>
      simp only [List.set_cons_zero, countTotal_cons, List.getD_cons_zero]
      omega
    | succ k =>
      have := ih (Nat.lt_of_succ_lt_succ h)
      simp only [List.set_cons_succ, countTotal_cons, List.getD_cons_succ]
      omega

theorem toNat_sumCounts {cs : List Word} (h : countTotal cs < 2 ^ 32) : (sumCounts cs).toNat = countTotal cs := by
  induction cs with
  | nil => rfl
  | cons c cs ih =>
    rw [countTotal_cons] at h
    rw [sumCounts, BitVec.toNat_add, ih (by omega), Nat.mod_eq_of_lt h, countTotal_cons]

/-- One count halved, rounding up. -/
theorem toNat_halveCount {c : Word} (h : c.toNat < 2 ^ 20) : ((c + 1) >>> 1).toNat = (c.toNat + 1) / 2 := by
  have h1 : (c + 1).toNat = c.toNat + 1 := by bv_omega
  rw [BitVec.toNat_ushiftRight, h1, Nat.shiftRight_eq_div_pow, Nat.pow_one]

theorem halveCounts_pos {cs : List Word} (hb : countTotal cs < 2 ^ 20) (hp : ∀ x ∈ cs, 1 ≤ x.toNat) :
    ∀ x ∈ halveCounts cs, 1 ≤ x.toNat := by
  intro x hx
  obtain ⟨c, hc, rfl⟩ := List.mem_map.mp hx
  have := hp c hc
  have := toNat_le_countTotal hc
  rw [toNat_halveCount (by omega)]
  omega

/-- Halving loses at most the rounding of each count. -/
theorem two_mul_countTotal_halveCounts_le {cs : List Word} (hb : countTotal cs < 2 ^ 20) :
    2 * countTotal (halveCounts cs) ≤ countTotal cs + cs.length := by
  induction cs with
  | nil => simp [halveCounts]
  | cons c cs ih =>
    rw [countTotal_cons] at hb
    have := ih (by omega)
    have := toNat_halveCount (c := c) (by omega)
    simp only [halveCounts, List.map_cons, countTotal_cons, List.length_cons] at *
    omega

/-! ### The table -/

theorem cumulative_getD (scale sum : Word) (cs : List Word) {k : Nat} (h : k < cs.length) :
    (cumulative scale sum cs).getD k 0 = (scale * (sum + sumCounts (cs.take k))) >>> 16 := by
  induction cs generalizing sum k with
  | nil => simp at h
  | cons c cs ih =>
    cases k with
    | zero => simp [cumulative, sumCounts]
    | succ k =>
      rw [cumulative, List.getD_cons_succ, ih (sum + c) (Nat.lt_of_succ_lt_succ h), List.take_succ_cons, sumCounts,
        BitVec.add_assoc]

theorem countTotal_take_succ {cs : List Word} {k : Nat} (h : k < cs.length) :
    countTotal (cs.take (k + 1)) = countTotal (cs.take k) + cs[k].toNat := by
  rw [← List.take_concat_get' cs k h, countTotal_append]
  simp

theorem countTotal_take_le (cs : List Word) (k : Nat) : countTotal (cs.take k) ≤ countTotal cs := by
  conv => rhs; rw [← List.take_append_drop k cs, countTotal_append]
  omega

/-- A model whose counts and total an update has settled: what the table and the period are made from. -/
structure Model.Settled (n : Nat) (m : Model) : Prop where
  countLength : m.count.length = n
  countPos : ∀ x ∈ m.count, 1 ≤ x.toNat
  totalEq : m.total.toNat = countTotal m.count
  totalLe : m.total.toNat ≤ 2 ^ 15

/-- An entry of the table (R144), in integers: the scale times a sum of the first counts does not wrap. -/
theorem Model.Settled.toNat_distAt {n k : Nat} {m : Model} (h : m.Settled n) (hk : k < n) :
    ((Model.retable n m).distAt k).toNat = 2 ^ 31 / countTotal m.count * countTotal (m.count.take k) / 2 ^ 16 := by
  obtain ⟨hlen, -, htot, hle⟩ := h
  have htake := countTotal_take_le m.count k
  have hscale : 2 ^ 31 / countTotal m.count * countTotal (m.count.take k) < 2 ^ 32 := by
    have := Nat.div_mul_le_self (2 ^ 31) (countTotal m.count)
    have := Nat.mul_le_mul_left (2 ^ 31 / countTotal m.count) htake
    omega
  rw [Model.distAt, Model.retable_dist, cumulative_getD _ _ _ (by omega), BitVec.toNat_ushiftRight, BitVec.toNat_mul,
    BitVec.toNat_udiv, htot, zero_add, toNat_sumCounts (by omega), Nat.shiftRight_eq_div_pow]
  exact congrArg (· / 2 ^ 16) (Nat.mod_eq_of_lt hscale)

/-! ### The update -/

theorem toNat_nextCycle {n : Nat} {cycle : Word} (hn : n ≤ 256) (hc : cycle.toNat ≤ 2 ^ 20) :
    (nextCycle n cycle).toNat = min (5 * cycle.toNat / 4) (8 * (n + 6)) := by
  have hgrown : ((5 * cycle) >>> 2).toNat = 5 * cycle.toNat / 4 := by
    rw [BitVec.toNat_ushiftRight, BitVec.toNat_mul, Nat.shiftRight_eq_div_pow]
    exact congrArg (· / 2 ^ 2) (Nat.mod_eq_of_lt (by simp; omega))
  have hcap : ((BitVec.ofNat 32 n + 6) <<< 3).toNat = 8 * (n + 6) := by
    have h6 : (BitVec.ofNat 32 n + 6).toNat = n + 6 := by
      rw [BitVec.toNat_add, BitVec.toNat_ofNat, Nat.mod_eq_of_lt (by omega : n < 2 ^ 32)]
      exact Nat.mod_eq_of_lt (by simp; omega)
    rw [BitVec.toNat_shiftLeft, h6, Nat.shiftLeft_eq]
    omega
  simp only [nextCycle, gt_iff_lt, BitVec.lt_def, hgrown, hcap]
  split
  · rw [hcap]
    omega
  · rw [hgrown]
    omega

theorem Model.Settled.retable_ok {n : Nat} {m : Model} (h : m.Settled n) (h1 : 1 ≤ n) (hn : n ≤ 256)
    (hc : 1 ≤ m.cycle.toNat) (hc' : m.cycle.toNat ≤ (n + 6) * 8) : (Model.retable n m).Ok n := by
  have hcycle : (nextCycle n m.cycle).toNat = min (5 * m.cycle.toNat / 4) (8 * (n + 6)) :=
    toNat_nextCycle hn (by omega)
  have dist (k : Nat) (hk : k < n) := h.toNat_distAt hk
  obtain ⟨hlen, hpos, htot, hle⟩ := h
  have hsum : n ≤ countTotal m.count := hlen ▸ length_le_countTotal hpos
  have hscale : 2 ^ 16 ≤ 2 ^ 31 / countTotal m.count := by
    rw [Nat.le_div_iff_mul_le (by omega)]
    omega
  have count_at (k : Nat) (hk : k < n) : countTotal (m.count.take k) + 1 ≤ countTotal (m.count.take (k + 1)) := by
    rw [countTotal_take_succ (by omega)]
    exact Nat.add_le_add_left (hpos _ (List.getElem_mem _)) _
  exact {
    countLength := hlen
    distLength := by rw [Model.retable_dist, cumulative_length, hlen]
    countPos := hpos
    distZero := BitVec.eq_of_toNat_eq (by simp [dist 0 (by omega)])
    distIncreasing := fun k hk => by
      rw [BitVec.lt_def, dist k (by omega), dist (k + 1) hk]
      have := Nat.mul_le_mul_left (2 ^ 31 / countTotal m.count) (count_at k (by omega))
      rw [Nat.mul_add, Nat.mul_one] at this
      omega
    distBelow := fun k hk => by
      rw [dist k hk]
      have := Nat.div_mul_le_self (2 ^ 31) (countTotal m.count)
      have := Nat.mul_le_mul_left (2 ^ 31 / countTotal m.count)
        ((count_at k hk).trans (countTotal_take_le m.count (k + 1)))
      rw [Nat.mul_add, Nat.mul_one] at this
      omega
    totalLe := hle
    untilPos := by rw [Model.retable_untilUpdate, hcycle]; omega
    untilLe := Nat.le_refl _
    cycleLe := by rw [Model.retable_cycle, hcycle]; omega
    countSum := by
      rw [Model.retable_count, Model.retable_total, Model.retable_untilUpdate, Model.retable_cycle, htot] }

theorem Model.rescale_settled {n : Nat} {m : Model} (hn : n ≤ 256) (hlen : m.count.length = n)
    (hpos : ∀ x ∈ m.count, 1 ≤ x.toNat) (htot : m.total.toNat = countTotal m.count)
    (hle : countTotal m.count ≤ 2 ^ 16 - 256) : m.rescale.Settled n := by
  unfold Model.rescale
  split
  · have half := two_mul_countTotal_halveCounts_le (cs := m.count) (by omega)
    have total : (sumCounts (halveCounts m.count)).toNat = countTotal (halveCounts m.count) :=
      toNat_sumCounts (by omega)
    exact ⟨by rw [halveCounts_length, hlen], halveCounts_pos (by omega) hpos, total, by rw [total]; omega⟩
  · rename_i h
    exact ⟨hlen, hpos, htot, by simpa [dmMaxCount, BitVec.lt_def] using h⟩

/-- An update of sound counts leaves a sound model (R144 to R146). -/
theorem Model.update_ok {n : Nat} {m : Model} (h1 : 1 ≤ n) (hn : n ≤ 256) (hlen : m.count.length = n)
    (hpos : ∀ x ∈ m.count, 1 ≤ x.toNat) (hsum : countTotal m.count = m.total.toNat + m.cycle.toNat)
    (htot : m.total.toNat ≤ 2 ^ 15) (hc : 1 ≤ m.cycle.toNat) (hc' : m.cycle.toNat ≤ (n + 6) * 8) :
    (Model.update n m).Ok n := by
  have hadd : (m.total + m.cycle).toNat = countTotal m.count := by
    rw [BitVec.toNat_add, hsum]
    omega
  have settled : (Model.rescale { m with total := m.total + m.cycle }).Settled n :=
    Model.rescale_settled hn hlen hpos hadd (by simp only; omega)
  exact settled.retable_ok h1 hn (by simpa using hc) (by simpa using hc')

/-- Counting a symbol adds one to the sum and keeps every count at least one. -/
theorem Model.Ok.counted {n k : Nat} {m : Model} (h : m.Ok n) (hn : n ≤ 256) (hk : k < n) :
    countTotal (m.count.set k (m.countAt k + 1)) = countTotal m.count + 1
    ∧ ∀ x ∈ m.count.set k (m.countAt k + 1), 1 ≤ x.toNat := by
  have hlt : k < m.count.length := h.countLength ▸ hk
  have hmem : m.countAt k ∈ m.count := by
    rw [Model.countAt, List.getD_eq_getElem _ _ hlt]
    exact List.getElem_mem hlt
  have hbound : (m.countAt k).toNat ≤ 2 ^ 16 := by
    have := toNat_le_countTotal hmem
    have := h.countSum
    have := h.totalLe
    have := h.cycleLe
    omega
  have hplus : (m.countAt k + 1).toNat = (m.countAt k).toNat + 1 := by bv_omega
  constructor
  · have := countTotal_set hlt (m.countAt k + 1)
    rw [hplus] at this
    change _ + (m.countAt k).toNat = _ at this
    omega
  · intro x hx
    rcases List.mem_or_eq_of_mem_set hx with hx | rfl
    · exact h.countPos x hx
    · omega

/-- Adapting to a symbol of the alphabet keeps a model sound (R146). -/
theorem Model.Ok.adapt {n k : Nat} {m : Model} (h : m.Ok n) (hn : n ≤ 256) (hk : k < n) :
    (Model.adapt n m k).Ok n := by
  obtain ⟨hsum, hpos⟩ := h.counted hn hk
  have hlen : (m.count.set k (m.countAt k + 1)).length = n := by rw [List.length_set, h.countLength]
  have hinv := h.countSum
  rcases Model.adapt_cases n m k with ⟨hu, heq⟩ | ⟨hu, heq⟩ <;> rw [heq]
  · have hone := h.untilPos
    have huntil : (m.untilUpdate - 1).toNat = m.untilUpdate.toNat - 1 ∧ 2 ≤ m.untilUpdate.toNat := by
      bv_omega
    exact { h with
      countLength := hlen
      countPos := hpos
      untilPos := by simp only; omega
      untilLe := by have := h.untilLe; simp only; omega
      countSum := by simp only; omega }
  · have hu' : m.untilUpdate.toNat = 1 := by rw [hu]; rfl
    exact Model.update_ok (by omega) hn hlen hpos (by simp only; omega) h.totalLe
      (hu' ▸ h.untilLe) h.cycleLe

end Sys2Proof.Machine
end

