-- ==== Sys2Proof/Proofs/CoderInvariant.lean ====
section
/-! The coder keeps a sound engine (10_state.md R67; 20_memory.md R85; 41_coder.md R180 to R191). A narrowing stays
inside the interval and leaves at least `2^9` of it, so every renormalisation ends within its rounds; and the
interval of an encoder stays below the number its bytes can carry into, so a carry always finds room. -/

namespace Sys2Proof.Machine

/-- The ways a command may stop on a sound state: never with a carry out of the buffer or a renormalisation without
end, and with a hold only where `hold` allows one. -/
structure SafeStop (hold : Bool) (y : Stop) : Prop where
  noCarryOut : y ≠ .error .internalCarry
  ends : y ≠ .diverge
  mayHold : y = .hold → hold = true

theorem safeStop_outOverflow (hold : Bool) : SafeStop hold (.error .outOverflow) :=
  ⟨by simp, by simp, by simp⟩

theorem safeStop_hold : SafeStop true .hold := ⟨by simp, by simp, fun _ => rfl⟩

/-! ### Narrowing -/

theorem toNat_quotLength (g : Engine) : (quotLength g).toNat = g.length.toNat / 2 ^ 15 := by
  rw [quotLength, BitVec.toNat_ushiftRight, Nat.shiftRight_eq_div_pow]

/-- The start of a symbol's share, as a number: the product does not wrap. -/
theorem toNat_shareStart {n j : Nat} {m : Model} (hm : m.Ok n) (hj : j < n) (g : Engine) :
    (m.distAt j * quotLength g).toNat = (m.distAt j).toNat * (quotLength g).toNat := by
  have hd := hm.distBelow j hj
  have hq := toNat_quotLength g
  have hlen := g.length.isLt
  have hle := Nat.mul_le_mul_right (quotLength g).toNat hd.le
  rw [BitVec.toNat_mul]
  exact Nat.mod_eq_of_lt (by omega)

/-- A symbol's share of a sound interval lies inside it and is at least `2^9` wide (R181). -/
theorem narrow_bounds {n k : Nat} {m : Model} {g : Engine} (hm : m.Ok n) (hk : k < n)
    (hg : acMinLength ≤ g.length) :
    2 ^ 9 ≤ (narrowLength n m k g (m.distAt k * quotLength g)).toNat
    ∧ (m.distAt k * quotLength g).toNat + (narrowLength n m k g (m.distAt k * quotLength g)).toNat
      ≤ g.length.toNat := by
  have hstart := toNat_shareStart hm hk g
  have hbelow := hm.distBelow k hk
  have hq := toNat_quotLength g
  have hmin : 2 ^ 24 ≤ g.length.toNat := hg
  have hq9 : 2 ^ 9 ≤ (quotLength g).toNat := by omega
  have hqlen : 2 ^ 15 * (quotLength g).toNat ≤ g.length.toNat := by omega
  unfold narrowLength
  split
  · have hroom : (m.distAt k).toNat * (quotLength g).toNat + (quotLength g).toNat
        ≤ 2 ^ 15 * (quotLength g).toNat := by nlinarith
    rw [BitVec.toNat_sub_of_le (by rw [BitVec.le_def]; omega), hstart]
    omega
  · have hk' : k + 1 < n := by omega
    have hnext := toNat_shareStart hm hk' g
    have hinc : (m.distAt k).toNat < (m.distAt (k + 1)).toNat := hm.distIncreasing k hk'
    have hbelow' := hm.distBelow (k + 1) hk'
    have hwidth : (m.distAt k).toNat * (quotLength g).toNat + (quotLength g).toNat
        ≤ (m.distAt (k + 1)).toNat * (quotLength g).toNat := by nlinarith
    have hend : (m.distAt (k + 1)).toNat * (quotLength g).toNat ≤ 2 ^ 15 * (quotLength g).toNat := by nlinarith
    rw [BitVec.toNat_sub_of_le (by rw [BitVec.le_def]; omega), hstart, hnext]
    omega

/-! ### Carries -/

theorem bytesValue_carryReversed {bs cs : List Byte} (h : carryReversed bs = some cs) :
    bytesValue cs.reverse = bytesValue bs.reverse + 1 := by
  induction bs generalizing cs with
  | nil => simp [carryReversed] at h
  | cons b rest ih =>
    unfold carryReversed at h
    split at h
    · rename_i hb
      obtain ⟨ds, hd, rfl⟩ := Option.map_eq_some_iff.mp h
      rw [List.reverse_cons, List.reverse_cons, bytesValue_append, bytesValue_append, ih hd, hb]
      simp
      omega
    · rename_i hb
      cases h
      have : (b + 1).toNat = b.toNat + 1 := by bv_omega
      rw [List.reverse_cons, List.reverse_cons, bytesValue_append, bytesValue_append, this]
      omega

/-- Bytes that are all `0xFF` stand for the greatest number of their length. -/
theorem bytesValue_of_all_ff {bs : List Byte} (h : ∀ b ∈ bs, b = 0xFF) :
    bytesValue bs + 1 = 256 ^ bs.length := by
  induction bs using List.reverseRecOn with
  | nil => rfl
  | append_singleton bs b ih =>
    have hb : b = 0xFF := h b (by simp)
    have := ih fun x hx => h x (by simp [hx])
    rw [bytesValue_append, List.length_append, List.length_singleton, Nat.pow_succ, ← this, hb]
    simp
    omega

/-- `StreamCarry` adds one, unless every byte is `0xFF` (20_memory.md R85). -/
theorem streamCarry_value_cases (g : Engine) :
    (∃ bs, streamCarry g = .ok { g with out := bs } ∧ bs.length = g.out.length
      ∧ bytesValue bs = bytesValue g.out + 1)
    ∨ (streamCarry g = .error (.error .internalCarry) ∧ bytesValue g.out + 1 = 256 ^ g.out.length) := by
  unfold streamCarry
  cases h : carryReversed g.out.reverse with
  | none => exact .inr ⟨rfl, bytesValue_of_all_ff (by simpa using carryReversed_eq_none.mp h)⟩
  | some cs =>
    exact .inl ⟨cs.reverse, rfl, by simpa using carryReversed_length h, by simpa using bytesValue_carryReversed h⟩

/-- The interval of an encoder ends within the numbers its bytes can carry into. -/
def Engine.Room (g : Engine) : Prop := g.lowEnd + g.length.toNat ≤ 2 ^ 32 * 256 ^ g.out.length

/-- Moving the low end up inside the interval: a wrapped addition has a byte to carry into. -/
theorem carryIfWrapped_meets {g : Engine} {x w : Word} (hroom : g.Room) (hw : 1 ≤ w.toNat)
    (hxw : x.toNat + w.toNat ≤ g.length.toNat) :
    Meets (carryIfWrapped g.base { g with base := g.base + x, length := w })
      (fun h => h.length = w ∧ h.out.length = g.out.length ∧ h.Room) (SafeStop false) := by
  have hx := x.isLt
  have hb := g.base.isLt
  have hadd := BitVec.toNat_add g.base x
  unfold Engine.Room Engine.lowEnd at hroom
  unfold carryIfWrapped
  split
  · rename_i hwrap
    have hwrap' : (g.base + x).toNat < g.base.toNat := hwrap
    have hsum : g.base.toNat + x.toNat = (g.base + x).toNat + 2 ^ 32 := by omega
    rcases streamCarry_value_cases { g with base := g.base + x, length := w } with
      ⟨bs, hc, hlen, hval⟩ | ⟨hc, hfull⟩
    · rw [hc]
      refine ⟨rfl, hlen, ?_⟩
      simp only [Engine.Room, Engine.lowEnd, hlen, hval]
      linarith
    · have hfull : bytesValue g.out + 1 = 256 ^ g.out.length := hfull
      rw [← hfull] at hroom
      omega
  · rename_i hwrap
    have hwrap' : g.base.toNat ≤ (g.base + x).toNat := BitVec.not_lt.mp hwrap
    have hsum : (g.base + x).toNat = g.base.toNat + x.toNat := by omega
    refine ⟨rfl, rfl, ?_⟩
    simp only [Engine.Room, Engine.lowEnd, hsum]
    omega

/-! ### Renormalising an encoder -/

/-- The output fits its capacity. -/
def Engine.Fits (cap : Option Nat) (g : Engine) : Prop := ∀ n, cap = some n → g.out.length ≤ n

theorem streamAppend_meets (cap : Option Nat) (b : Byte) (g : Engine) :
    Meets (streamAppend cap b g) (fun h => h = { g with out := g.out ++ [b] } ∧ h.Fits cap) (SafeStop false) := by
  rcases streamAppend_cases cap b g with ⟨hc, hlt⟩ | ⟨hc, -⟩ <;> rw [hc]
  · exact ⟨rfl, fun n hn => by simpa using hlt n hn⟩
  · exact safeStop_outOverflow _

/-- One round: a byte of the low end moves to the output, and the interval is scaled by 256. -/
theorem room_of_shift {g : Engine} (hroom : g.Room) (hlow : g.length < acMinLength) :
    (g.length <<< 8).toNat = 256 * g.length.toNat
    ∧ Engine.Room
      { g with out := g.out ++ [topByte g.base], base := g.base <<< 8, length := g.length <<< 8 } := by
  have hlow' : g.length.toNat < 2 ^ 24 := hlow
  have hb := g.base.isLt
  have hlen : (g.length <<< 8).toNat = 256 * g.length.toNat := by
    rw [BitVec.toNat_shiftLeft, Nat.shiftLeft_eq]
    omega
  have hbase : (topByte g.base).toNat * 2 ^ 32 + (g.base <<< 8).toNat = 256 * g.base.toNat := by
    rw [topByte, BitVec.extractLsb'_toNat, Nat.shiftRight_eq_div_pow, BitVec.toNat_shiftLeft, Nat.shiftLeft_eq]
    omega
  refine ⟨hlen, ?_⟩
  unfold Engine.Room Engine.lowEnd at *
  simp only [bytesValue_append, List.length_append, List.length_singleton, Nat.pow_succ, hlen]
  linarith

/-- A round that scales the width uses up one of the rounds left. -/
theorem fuel_of_shift {w fuel : Nat} (h : 2 ^ 24 ≤ w * 256 ^ (fuel + 1)) : 2 ^ 24 ≤ 256 * w * 256 ^ fuel :=
  h.trans_eq (by ring)

theorem renormEncLoop_meets {cap : Option Nat} {fuel : Nat} {g : Engine} (hroom : g.Room)
    (hlow : g.length < acMinLength) (hfuel : 2 ^ 24 ≤ g.length.toNat * 256 ^ fuel) :
    Meets (renormEncLoop cap fuel g) (fun h => h.EncOk ∧ h.Fits cap) (SafeStop false) := by
  induction fuel generalizing g with
  | zero =>
    have hlow' : g.length.toNat < 2 ^ 24 := hlow
    omega
  | succ fuel ih =>
    obtain ⟨hlen, hroom'⟩ := room_of_shift hroom hlow
    refine (streamAppend_meets cap (topByte g.base) g).bind fun h ⟨hh, hfits⟩ => ?_
    subst hh
    dsimp only
    split
    · rename_i hlow'
      exact ih hroom' hlow' (hlen ▸ fuel_of_shift hfuel)
    · rename_i hge
      exact ⟨⟨BitVec.not_lt.mp hge, hroom'⟩, hfits⟩

/-- A width of at least `2^9` needs fewer rounds than there are. -/
theorem fuel_of_width {w : Nat} (h : 2 ^ 9 ≤ w) : 2 ^ 24 ≤ w * 256 ^ renormRounds := by
  simp only [renormRounds]
  omega

theorem renormEncIfLow_meets {cap : Option Nat} {g : Engine} (hroom : g.Room) (hfits : g.Fits cap)
    (hw : 2 ^ 9 ≤ g.length.toNat) :
    Meets (renormEncIfLow cap g) (fun h => h.EncOk ∧ h.Fits cap) (SafeStop false) := by
  unfold renormEncIfLow
  split
  · rename_i hlow
    exact renormEncLoop_meets hroom hlow (fuel_of_width hw)
  · rename_i hge
    exact ⟨⟨BitVec.not_lt.mp hge, hroom⟩, hfits⟩

/-! ### Encoding on a sound engine -/

theorem EncoderFrame.ok {outCap inCap : Option Nat} {g h : Engine} (hf : EncoderFrame g h)
    (hg : g.Ok outCap inCap) (hm : g.mode = .enc) (henc : h.EncOk) (hfits : h.Fits outCap) :
    h.Ok outCap inCap ∧ h.mode = .enc := by
  rw [EncoderFrame] at hf
  have hmode : h.mode = .enc := by rw [hf]; exact hm
  exact ⟨{
    encOk := fun _ => henc
    decLength := fun hd => by simp [hmode] at hd
    inPtrLe := by rw [hf]; exact hg.inPtrLe
    outFits := hfits
    inFits := by rw [hf]; exact hg.inFits }, hmode⟩

theorem encodeWith_meets {outCap inCap : Option Nat} {n k : Nat} {g : Engine} {m : Model} (hm : m.Ok n)
    (hn : n ≤ 256) (hk : k < n) (hg : g.Ok outCap inCap) (hmode : g.mode = .enc) :
    Meets (encodeWith outCap n k g m)
      (fun r => (r.1.Ok outCap inCap ∧ r.1.mode = .enc) ∧ r.2.Ok n) (SafeStop false) := by
  have henc := hg.encOk hmode
  obtain ⟨hw, hin⟩ := narrow_bounds hm hk henc.lengthGe
  have coded : Meets (encodeWith outCap n k g m) (fun r => r.1.EncOk ∧ r.1.Fits outCap) (SafeStop false) := by
    refine (carryIfWrapped_meets henc.room (by omega) hin).bind fun a ⟨hlen, hout, hroom⟩ => ?_
    have hfits : a.Fits outCap := fun c hc => hout ▸ hg.outFits c hc
    exact (renormEncIfLow_meets hroom hfits (hlen ▸ hw)).bind fun b hb => hb
  refine (coded.and_ok fun r hr => encodeWith_ok hr).mono fun r ⟨⟨hE, hF⟩, hadapt, hframe⟩ => ?_
  exact ⟨hframe.ok hg hmode hE hF, hadapt ▸ hm.adapt hn hk⟩

theorem appendZeros_meets {cap : Option Nat} {z : Nat} {g : Engine} (h : g.Fits cap) :
    Meets (appendZeros cap z g) (fun h => h.Fits cap) (SafeStop false) := by
  induction z generalizing g with
  | zero => exact h
  | succ z ih => exact (streamAppend_meets cap 0 g).bind fun _ hh => ih hh.2

/-- The last narrowing of a stream: where the value lies in what is left of the interval (R183). -/
theorem flushNarrow_eq (g : Engine) (hg : acMinLength ≤ g.length) : ∃ x w : Word,
    flushNarrow g = { g with base := g.base + x, length := w } ∧ x.toNat + w.toNat ≤ g.length.toNat
    ∧ 2 ^ 9 ≤ w.toNat ∧ w < acMinLength := by
  have hg' : 2 ^ 24 ≤ g.length.toNat := hg
  unfold flushNarrow
  split
  · rename_i hbig
    have hbig' : 2 ^ 25 < g.length.toNat := hbig
    refine ⟨acMinLength, acMinLength >>> 1, rfl, ?_, by decide, by decide⟩
    have : acMinLength.toNat + (acMinLength >>> 1).toNat ≤ 2 ^ 25 := by decide
    omega
  · refine ⟨acMinLength >>> 1, acMinLength >>> 9, rfl, ?_, by decide, by decide⟩
    have : (acMinLength >>> 1).toNat + (acMinLength >>> 9).toNat ≤ 2 ^ 24 := by decide
    omega

theorem flushWith_meets {outCap inCap : Option Nat} {g : Engine} (hg : g.Ok outCap inCap)
    (hmode : g.mode = .enc) : Meets (flushWith outCap g) (·.Ok outCap inCap) (SafeStop false) := by
  have henc := hg.encOk hmode
  obtain ⟨x, w, heq, hin, hw, hlow⟩ := flushNarrow_eq g henc.lengthGe
  have flushed : Meets (flushWith outCap g) (·.Fits outCap) (SafeStop false) := by
    unfold flushWith
    rw [heq]
    refine (carryIfWrapped_meets henc.room (by omega) hin).bind fun a ⟨hlen, hout, hroom⟩ => ?_
    refine (renormEncLoop_meets hroom (hlen ▸ hlow) (fuel_of_width (hlen ▸ hw))).bind fun b hb => ?_
    exact (appendZeros_meets hb.2).bind fun z hz => hz
  refine (flushed.and_ok fun h hh => flushWith_frame hh).mono fun h ⟨hfits, g', hf, hh⟩ => ?_
  rw [EncoderFrame] at hf
  subst hh
  exact {
    encOk := fun hm => by cases hm
    decLength := fun hm => by cases hm
    inPtrLe := by rw [hf]; exact hg.inPtrLe
    outFits := hfits
    inFits := by rw [hf]; exact hg.inFits }

theorem startEncoder_ok {outCap inCap : Option Nat} {g : Engine} (hg : g.Ok outCap inCap) :
    (startEncoder g).Ok outCap inCap where
  encOk := fun _ =>
    ⟨(by decide : acMinLength ≤ acMaxLength), by simp [startEncoder, Engine.lowEnd, bytesValue, acMaxLength]⟩
  decLength := fun hm => by cases hm
  inPtrLe := hg.inPtrLe
  outFits := fun _ _ => Nat.zero_le _
  inFits := hg.inFits

theorem idle_ok {outCap inCap : Option Nat} {g : Engine} (hg : g.Ok outCap inCap) :
    ({ g with mode := .idle } : Engine).Ok outCap inCap where
  encOk := fun hm => by cases hm
  decLength := fun hm => by cases hm
  inPtrLe := hg.inPtrLe
  outFits := hg.outFits
  inFits := hg.inFits

/-! ### Decoding on a sound engine -/

/-- The next byte to read stands inside the input or at its end. -/
def Engine.PtrOk (g : Engine) : Prop := g.inPtr.toNat ≤ g.input.length

theorem streamRead_meets (e : Idx) {g : Engine} (h : g.PtrOk) :
    Meets (streamRead e g) (fun r => r.2.PtrOk ∧ r.2.length = g.length) (SafeStop true) := by
  rcases streamRead_cases e g with ⟨hlt, hc⟩ | ⟨-, -, hc⟩ | ⟨-, -, hc⟩ <;> rw [hc]
  · refine ⟨?_, rfl⟩
    have : (g.inPtr + 1).toNat ≤ g.inPtr.toNat + 1 := by
      rw [BitVec.toNat_add]
      exact Nat.mod_le _ _
    exact this.trans hlt
  · exact ⟨h, rfl⟩
  · exact safeStop_hold

theorem renormDecLoop_meets (e : Idx) {fuel : Nat} {g : Engine} (hptr : g.PtrOk) (hlow : g.length < acMinLength)
    (hfuel : 2 ^ 24 ≤ g.length.toNat * 256 ^ fuel) :
    Meets (renormDecLoop e fuel g) (fun h => acMinLength ≤ h.length ∧ h.PtrOk) (SafeStop true) := by
  have hlow' : g.length.toNat < 2 ^ 24 := hlow
  induction fuel generalizing g with
  | zero => omega
  | succ fuel ih =>
    refine (streamRead_meets e hptr).bind fun ⟨b, h⟩ ⟨hp, hl⟩ => ?_
    have hlen : (h.length <<< 8).toNat = 256 * g.length.toNat := by
      rw [hl, BitVec.toNat_shiftLeft, Nat.shiftLeft_eq]
      omega
    dsimp only
    split
    · rename_i hlow
      exact ih hp hlow (hlen ▸ fuel_of_shift hfuel) hlow
    · rename_i hge
      exact ⟨BitVec.not_lt.mp hge, hp⟩

theorem renormDecIfLow_meets (e : Idx) {g : Engine} (hptr : g.PtrOk) (hw : 2 ^ 9 ≤ g.length.toNat) :
    Meets (renormDecIfLow e g) (fun h => acMinLength ≤ h.length ∧ h.PtrOk) (SafeStop true) := by
  unfold renormDecIfLow
  split
  · rename_i hlow
    exact renormDecLoop_meets e hptr hlow (fuel_of_width hw)
  · rename_i hge
    exact ⟨BitVec.not_lt.mp hge, hptr⟩

theorem readBytes_meets (e : Idx) {n : Nat} {v : Word} {g : Engine} (h : g.PtrOk) :
    Meets (readBytes e n v g) (fun r => r.2.PtrOk) (SafeStop true) := by
  induction n generalizing v g with
  | zero => exact h
  | succ n ih => exact (streamRead_meets e h).bind fun _ hh => ih hh.1

theorem DecoderFrame.ok {outCap inCap : Option Nat} {g h : Engine} (hf : DecoderFrame g h)
    (hg : g.Ok outCap inCap) (hm : g.mode = .dec) (hlen : acMinLength ≤ h.length) (hptr : h.PtrOk) :
    h.Ok outCap inCap ∧ h.mode = .dec := by
  rw [DecoderFrame] at hf
  have hmode : h.mode = .dec := by rw [hf]; exact hm
  exact ⟨{
    encOk := fun he => by simp [hmode] at he
    decLength := fun _ => hlen
    inPtrLe := hptr
    outFits := by rw [hf]; exact hg.outFits
    inFits := by rw [hf]; exact hg.inFits }, hmode⟩

theorem decodeWith_meets (e : Idx) {outCap inCap : Option Nat} {n : Nat} {g : Engine} {m : Model} (hm : m.Ok n)
    (h1 : 1 ≤ n) (hn : n ≤ 256) (hg : g.Ok outCap inCap) (hmode : g.mode = .dec) :
    Meets (decodeWith e n g m)
      (fun r => (r.2.1.Ok outCap inCap ∧ r.2.1.mode = .dec) ∧ r.2.2.Ok n) (SafeStop true) := by
  have hk : findSymbol m (quotLength g) g.value (n - 1) < n := by
    have := findSymbol_le m (quotLength g) g.value (n - 1)
    omega
  obtain ⟨hw, -⟩ := narrow_bounds hm hk (hg.decLength hmode)
  have coded : Meets (decodeWith e n g m) (fun r => acMinLength ≤ r.2.1.length ∧ r.2.1.PtrOk) (SafeStop true) :=
    (renormDecIfLow_meets e (g := { g with value := _, length := narrowLength n m _ g _ }) hg.inPtrLe hw).bind
      fun b hb => hb
  have framed : ∀ r, decodeWith e n g m = .ok r → DecoderFrame g r.2.1 ∧ r.2.2.Ok n := fun ⟨_, _, _⟩ hr => by
    obtain ⟨-, hadapt, hframe⟩ := decodeWith_ok hr
    exact ⟨hframe, hadapt ▸ hm.adapt hn hk⟩
  exact (coded.and_ok framed).mono fun r ⟨⟨hlen, hptr⟩, hframe, hok⟩ =>
    ⟨hframe.ok hg hmode hlen hptr, hok⟩

theorem startDecoder_meets (e : Idx) {outCap inCap : Option Nat} {g : Engine} (hg : g.Ok outCap inCap) :
    Meets (startDecoder e g) (·.Ok outCap inCap) (SafeStop true) := by
  have read : Meets (startDecoder e g) Engine.PtrOk (SafeStop true) :=
    (readBytes_meets e (g := { g with underrun := false }) hg.inPtrLe).bind fun _ h => h
  refine (read.and_ok fun h hh => startDecoder_frame hh).mono fun h ⟨hptr, g', hf, hh⟩ => ?_
  rw [DecoderFrame] at hf
  subst hh
  exact {
    encOk := fun hm => by cases hm
    decLength := fun _ => (by decide : acMinLength ≤ acMaxLength)
    inPtrLe := hptr
    outFits := by rw [hf]; exact hg.outFits
    inFits := by rw [hf]; exact hg.inFits }

end Sys2Proof.Machine
end

