-- ==== Sys2Proof/Proofs/StepInvariant.lean ====
section
/-! Every step keeps the invariant of the machine (10_state.md R66, R67; 20_memory.md R85; 40_model.md R146): the
work of a command on sound engines and contexts, then the end of a command, then each host access. -/

namespace Sys2Proof.Machine

/-! ### Engines and contexts together -/

/-- Every context and every engine is sound: the part of the invariant that commands work on. -/
structure State.PartsOk (s : State) : Prop where
  ctxOk : ∀ c, (s.ctx c).Ok s.build.profile (s.build.kind c)
  engOk : ∀ e, (s.eng e).Ok (s.build.outCapOf e) (s.build.inCapOf e)

theorem State.Inv.partsOk {s : State} (h : s.Inv) : s.PartsOk := ⟨h.ctxOk, h.engOk⟩

/-- Soundness speaks of the build, the engines and the contexts only. -/
theorem State.PartsOk.congr {s t : State} (h : s.PartsOk) (hb : t.build = s.build) (he : t.engs = s.engs)
    (hc : t.ctxs = s.ctxs) : t.PartsOk where
  ctxOk := fun c => by simpa only [State.ctx, hb, hc] using h.ctxOk c
  engOk := fun e => by simpa only [State.eng, hb, he] using h.engOk e

theorem State.PartsOk.setEng {s : State} (h : s.PartsOk) {e : Idx} {g : Engine}
    (hg : g.Ok (s.build.outCapOf e) (s.build.inCapOf e)) : (s.setEng e g).PartsOk where
  ctxOk := h.ctxOk
  engOk := fun f => by
    by_cases hf : f = e
    · subst hf
      simpa using hg
    · simpa [s.eng_setEng_ne g hf] using h.engOk f

theorem State.PartsOk.setCtx {s : State} (h : s.PartsOk) {c : Idx} {x : Context}
    (hx : x.Ok s.build.profile (s.build.kind c)) : (s.setCtx c x).PartsOk where
  ctxOk := fun d => by
    by_cases hd : d = c
    · subst hd
      simpa using hx
    · simpa [s.ctx_setCtx_ne x hd] using h.ctxOk d
  engOk := h.engOk

theorem Context.Ok.setModel {p : Profile} {k : Kind} {x : Context} (h : x.Ok p k) (σ : Slot) {m : Model}
    (hm : m.Ok (slotSyms p σ)) : (x.setModel σ m).Ok p k where
  models := fun hphase τ hτ => by
    by_cases hστ : τ = σ
    · subst hστ
      simpa using hm
    · simpa [x.model_setModel_ne m hστ] using h.models hphase τ hτ
  unusedIff := h.unusedIff

/-- An initialised context stays sound when a point replaces its last one. -/
theorem Context.Ok.stream {p : Profile} {k : Kind} {x : Context} (h : x.Ok p k) (hx : x.phase ≠ .uninit)
    (r g b n : Half) :
    ({ x with lastR := r, lastG := g, lastB := b, lastN := n, phase := .streaming } : Context).Ok p k where
  models := fun _ => h.models hx
  unusedIff := by
    have : x.unused = false := by simpa [hx] using h.unusedIff
    simp [this]

/-! ### Symbols on a sound machine -/

/-- A sound machine of build `b` that can code symbols through context `c` on engine `e` in mode `md`. -/
structure Coding (b : Build) (c e : Idx) (md : Mode) (s : State) : Prop where
  build : s.build = b
  parts : s.PartsOk
  mode : (s.eng e).mode = md
  init : (s.ctx c).phase ≠ .uninit

theorem Coding.write {b : Build} {c e : Idx} {md : Mode} {s : State} (h : Coding b c e md s) {σ : Slot}
    {g : Engine} {m : Model} (hg : g.Ok (b.outCapOf e) (b.inCapOf e)) (hmode : g.mode = md)
    (hm : m.Ok (slotSyms b.profile σ)) : Coding b c e md ((s.setEng e g).setModel c σ m) := by
  obtain ⟨rfl, parts, -, init⟩ := h
  exact ⟨rfl, (parts.setEng hg).setCtx ((parts.ctxOk c).setModel σ hm), by simpa using hmode, by simpa using init⟩

theorem Coding.modelOk {b : Build} {c e : Idx} {md : Mode} {s : State} (h : Coding b c e md s) {σ : Slot}
    (hσ : σ.val < slotCount (b.kind c)) : (s.model c σ).Ok (slotSyms b.profile σ) := by
  obtain ⟨rfl, parts, -, init⟩ := h
  exact (parts.ctxOk c).models init σ hσ

theorem slotSyms_bounds (p : Profile) (σ : Slot) : 1 ≤ slotSyms p σ ∧ slotSyms p σ ≤ 256 := by
  revert σ
  cases p <;> decide

theorem encodeSymbol_keeps {b : Build} {c e : Idx} {s : State} (h : Coding b c e .enc s) {σ : Slot} {k : Byte}
    (hσ : σ.val < slotCount (b.kind c)) (hk : k.toNat < slotSyms b.profile σ) :
    Meets (encodeSymbol c e σ k s) (Coding b c e .enc) (SafeStop false) := by
  have hm := h.modelOk hσ
  have hg := h.parts.engOk e
  unfold encodeSymbol
  rw [h.build] at hg ⊢
  exact (encodeWith_meets hm (slotSyms_bounds _ σ).2 hk hg h.mode).bind fun _ ⟨⟨hok, hmode⟩, hadapt⟩ =>
    h.write hok hmode hadapt

theorem decodeSymbol_keeps (b : Build) (c e : Idx) :
    DecodingKeeps c e (·.val < slotCount (b.kind c)) (Coding b c e .dec) (SafeStop true) := fun σ hσ s h => by
  have hm := h.modelOk hσ
  have hg := h.parts.engOk e
  have hn := slotSyms_bounds b.profile σ
  unfold decodeSymbol
  rw [h.build] at hg ⊢
  exact (decodeWith_meets e hm hn.1 hn.2 hg h.mode).bind fun _ ⟨⟨hok, hmode⟩, hadapt⟩ =>
    h.write hok hmode hadapt

/-! ### The symbols of a point are in their alphabets -/

theorem toNat_colorMask_lt (l p : Rgb) : (colorMask l p).toNat < 128 := by
  have (b0 b1 b2 b3 b4 b5 b6 : Bool) : (byteBit b0 0 ||| byteBit b1 1 ||| byteBit b2 2 ||| byteBit b3 3
      ||| byteBit b4 4 ||| byteBit b5 5 ||| byteBit b6 6).toNat < 128 := by
    revert b0 b1 b2 b3 b4 b5 b6
    decide
  exact this ..

theorem toNat_nirMask_lt (l n : Half) : (nirMask l n).toNat < 4 := by
  have (b0 b1 : Bool) : (byteBit b0 0 ||| byteBit b1 1).toNat < 4 := by
    revert b0 b1
    decide
  exact this ..

/-- Every slot but those of the two masks codes whole bytes. -/
theorem toNat_lt_slotSyms {p : Profile} {σ : Slot} (h0 : σ ≠ 0) (h7 : σ ≠ 7) (k : Byte) :
    k.toNat < slotSyms p σ := by
  unfold slotSyms
  rw [if_neg h0, if_neg h7]
  exact k.isLt

theorem rgbSymbols_lt {pr : Profile} {l p : Rgb} {x : Slot × Byte} (h : x ∈ rgbSymbols pr l p) :
    x.2.toNat < slotSyms pr x.1 := by
  simp only [rgbSymbols, List.cons_append, List.append_assoc, List.mem_cons, List.mem_append, mem_symbolIf] at h
  rcases h with rfl | ⟨-, rfl⟩ | ⟨-, rfl⟩ | h
  · exact toNat_colorMask_lt l p
  · exact toNat_lt_slotSyms (σ := 1) (by decide) (by decide) _
  · exact toNat_lt_slotSyms (σ := 2) (by decide) (by decide) _
  · split at h
    · have : ∃ σ k, x = (σ, k) ∧ σ ≠ 0 ∧ σ ≠ 7 := by
        cases pr <;> simp only [chromaSymbols, List.append_assoc, List.mem_append, mem_symbolIf] at h <;>
          rcases h with ⟨-, rfl⟩ | ⟨-, rfl⟩ | ⟨-, rfl⟩ | ⟨-, rfl⟩ <;> exact ⟨_, _, rfl, by decide, by decide⟩
      obtain ⟨σ, k, rfl, h0, h7⟩ := this
      exact toNat_lt_slotSyms h0 h7 k
    · cases h

theorem nirSymbols_lt (p : Profile) {l v : Half} {x : Slot × Byte} (h : x ∈ nirSymbols l v) :
    x.2.toNat < slotSyms p x.1 := by
  simp only [nirSymbols, List.cons_append, List.mem_cons, List.mem_append, mem_symbolIf] at h
  rcases h with rfl | ⟨-, rfl⟩ | ⟨-, rfl⟩
  · have := toNat_nirMask_lt l v
    cases p with
    | doc => exact this.trans (by decide : 4 < 128)
    | laszip => exact this
  · exact toNat_lt_slotSyms (σ := 8) (by decide) (by decide) _
  · exact toNat_lt_slotSyms (σ := 9) (by decide) (by decide) _

/-! ### The work of a command -/

theorem seven_le_slotCount (k : Kind) : 7 ≤ slotCount k := by
  cases k <;> decide

/-- The checks that a command has passed, as facts of its engine and its context. -/
theorem engine_mode_of_checked {i : Instr} {s : State} {e : Idx} {m : Mode} (h : firstError i s = none)
    (he : engineOf i = some e) (hm : needsMode i = some m) : (s.eng e).mode = m := by
  obtain ⟨-, -, -, hmode, -⟩ := firstError_eq_none.mp h
  simpa [namesWrongMode, he, hm] using hmode

theorem context_init_of_checked {i : Instr} {s : State} {c : Idx} (h : firstError i s = none)
    (hc : contextOf i = some c) (hi : needsInit i = true) : (s.ctx c).phase ≠ .uninit := by
  obtain ⟨-, -, hinit, -, -⟩ := firstError_eq_none.mp h
  simpa [namesUninit, hc, hi] using hinit

theorem context_nir_of_checked {i : Instr} {s : State} {c : Idx} (h : firstError i s = none)
    (hc : contextOf i = some c) (hn : needsNir i = true) : slotCount (s.build.kind c) = 10 := by
  obtain ⟨-, hkind, -, -, -⟩ := firstError_eq_none.mp h
  have hne : s.build.kind c ≠ .color := by simpa [namesColor, hc, hn] using hkind
  cases hk : s.build.kind c with
  | color => exact absurd hk hne
  | colorNir => rfl

theorem slotNamed_lt_of_hasSlot {b : Build} {c i : Idx} (h : b.hasSlot c i = true) :
    (slotNamed i).val < slotCount (b.kind c) := by
  rw [← slotOf_isSome_eq_hasSlot, Option.isSome_iff_exists] at h
  obtain ⟨σ, hσ⟩ := h
  obtain ⟨hi, hlt⟩ := slotOf_eq_some.mp hσ
  simpa [slotNamed, hi] using hlt

theorem Coding.of_checked {i : Instr} {s : State} {c e : Idx} {m : Mode} (h : firstError i s = none)
    (hs : s.PartsOk) (hc : contextOf i = some c) (he : engineOf i = some e) (hm : needsMode i = some m)
    (hi : needsInit i = true) : Coding s.build c e m s :=
  ⟨rfl, hs, engine_mode_of_checked h he hm, context_init_of_checked h hc hi⟩

theorem Coding.streamRgb {b : Build} {c e : Idx} {md : Mode} {s : State} (h : Coding b c e md s) (p : Rgb) :
    (s.streamRgb c p).PartsOk :=
  h.parts.setCtx ((h.parts.ctxOk c).stream h.init p.r p.g p.b _)

theorem Coding.streamNir {b : Build} {c e : Idx} {md : Mode} {s : State} (h : Coding b c e md s) (v : Half) :
    (s.streamNir c v).PartsOk :=
  h.parts.setCtx ((h.parts.ctxOk c).stream h.init _ _ _ v)

/-- The work of a command that has passed its checks keeps engines and contexts sound, or stops safely. -/
theorem work_meets {i : Instr} {s : State} (h : firstError i s = none) (hs : s.PartsOk) :
    Meets (work i s) State.PartsOk (SafeStop (mayHold i)) := by
  cases i with
  | nop => exact hs
  | encInit e => exact hs.setEng (startEncoder_ok (hs.engOk e))
  | encDone e =>
    exact (flushWith_meets (hs.engOk e) (engine_mode_of_checked h rfl rfl)).bind fun _ hg => hs.setEng hg
  | decInit e => exact (startDecoder_meets e (hs.engOk e)).bind fun _ hg => hs.setEng hg
  | decDone e => exact hs.setEng (idle_ok (hs.engOk e))
  | initPoint c => exact hs.setCtx (seedContext_ok ..)
  | modelInit c j =>
    exact hs.setCtx ((hs.ctxOk c).setModel _ (Model.fresh_ok ..))
  | writeRgb c e =>
    refine (encodeAll_keeps (fun x hx t ht => encodeSymbol_keeps ht ?_ (rgbSymbols_lt hx))
      (Coding.of_checked h hs rfl rfl rfl rfl)).bind fun t ht => (ht.streamRgb _).congr rfl rfl rfl
    exact (rgbSymbols_slot hx).trans_le (seven_le_slotCount _)
  | readRgb c e =>
    exact (decodeRgb_keeps (decodeSymbol_keeps s.build c e) (fun σ hσ => hσ.trans_le (seven_le_slotCount _)) _ _
      (Coding.of_checked h hs rfl rfl rfl rfl)).bind fun x hx => (hx.streamRgb _).congr rfl rfl rfl
  | writeNir c e =>
    refine (encodeAll_keeps (fun x hx t ht => encodeSymbol_keeps ht ?_ (nirSymbols_lt _ hx))
      (Coding.of_checked h hs rfl rfl rfl rfl)).bind fun t ht => (ht.streamNir _).congr rfl rfl rfl
    exact x.1.isLt.trans_eq (context_nir_of_checked h rfl rfl).symm
  | readNir c e =>
    exact (decodeNir_keeps (decodeSymbol_keeps s.build c e)
      (fun σ _ => σ.isLt.trans_eq (context_nir_of_checked h rfl rfl).symm) _
      (Coding.of_checked h hs rfl rfl rfl rfl)).bind fun x hx => (hx.streamNir _).congr rfl rfl rfl
  | encSymbol c j e k =>
    obtain ⟨hwf, -, -, -, hsym⟩ := firstError_eq_none.mp h
    have hslot : s.build.hasSlot c j = true := (Bool.and_eq_true_iff.mp hwf).2
    have hk : k.toNat < slotSyms s.build.profile (slotNamed j) := by
      simpa [hsym] using symbolOutside_encSymbol hslot s.build.profile e k
    exact (encodeSymbol_keeps (Coding.of_checked h hs rfl rfl rfl rfl) (slotNamed_lt_of_hasSlot hslot) hk).mono
      fun _ ht => ht.parts
  | decSymbol c j e =>
    obtain ⟨hwf, -, -, -, -⟩ := firstError_eq_none.mp h
    have hslot : s.build.hasSlot c j = true := (Bool.and_eq_true_iff.mp hwf).2
    exact (decodeSymbol_keeps s.build c e _ (slotNamed_lt_of_hasSlot hslot) s
      (Coding.of_checked h hs rfl rfl rfl rfl)).bind fun x hx => hx.parts.congr rfl rfl rfl

/-! ### The error record -/

/-- The error registers (10_state.md R44 to R46). -/
def State.errorRecord (s : State) : Bool × BitVec 12 × BitVec 8 × BitVec 8 × BitVec 16 × Word :=
  (s.err, s.errBits, s.errFirst, s.errLast, s.errCount, s.errData)

/-- Soundness of the record speaks of the error registers only. -/
theorem State.ErrorsOk.congr {s t : State} (h : s.ErrorsOk) (hr : t.errorRecord = s.errorRecord) :
    t.ErrorsOk := by
  simp only [State.errorRecord, Prod.mk.injEq] at hr
  obtain ⟨herr, hbits, hfirst, hlast, hcount, hdata⟩ := hr
  exact {
    clean := by simpa only [herr, hbits, hfirst, hlast, hcount, hdata] using h.clean
    recorded := by simpa only [herr, hcount] using h.recorded
    firstCode := by simpa only [hbits, hfirst, hcount] using h.firstCode
    lastCode := by simpa only [hbits, hlast, hcount] using h.lastCode
    noInternalCarry := by simpa only [hbits] using h.noInternalCarry }

theorem ErrCode.code_bounds (x : ErrCode) : 1 ≤ x.code ∧ x.code ≤ 12 := by
  cases x <;> decide

theorem ErrCode.code_eq_nine {x : ErrCode} : x.code = 9 → x = .internalCarry := by
  cases x <;> decide

theorem ErrCode.toNat_code (x : ErrCode) : (BitVec.ofNat 8 x.code).toNat = x.code := by
  cases x <;> rfl

/-- Recording sets the bit of the code and leaves the others. -/
theorem getLsbD_errBits_recordError (x : ErrCode) (i : Word) (s : State) (k : Nat) :
    (recordError x i s).errBits.getLsbD k = (s.errBits.getLsbD k || decide (k = x.code - 1)) := by
  have hx := x.code_bounds
  have hbit : (1#12 <<< (x.code - 1)).getLsbD k = decide (k = x.code - 1) := by
    rw [← BitVec.twoPow_eq, BitVec.getLsbD_twoPow]
    have : x.code - 1 < 12 := by omega
    simp [this, eq_comm]
  rw [← hbit, ← BitVec.getLsbD_or]
  rfl

theorem errCount_recordError_ne_zero (x : ErrCode) (i : Word) (s : State) : (recordError x i s).errCount ≠ 0 := by
  simp only [recordError]
  split
  · decide
  · bv_omega

theorem State.ErrorsOk.recordError {s : State} (h : s.ErrorsOk) {x : ErrCode} (hx : x ≠ .internalCarry)
    (i : Word) : (recordError x i s).ErrorsOk := by
  have hcode := x.code_bounds
  have bit := getLsbD_errBits_recordError x i s
  have bit_code : (Machine.recordError x i s).errBits.getLsbD (x.code - 1) = true := by simp [bit]
  exact {
    clean := fun h0 => absurd h0 (errCount_recordError_ne_zero x i s)
    recorded := fun _ => rfl
    firstCode := fun _ => by
      by_cases h0 : s.errCount = 0
      · have : (Machine.recordError x i s).errFirst = BitVec.ofNat 8 x.code := if_pos h0
        rw [this, x.toNat_code]
        exact ⟨hcode.1, hcode.2, bit_code⟩
      · have : (Machine.recordError x i s).errFirst = s.errFirst := if_neg h0
        obtain ⟨h1, h12, hset⟩ := h.firstCode h0
        rw [this, bit, hset]
        exact ⟨h1, h12, rfl⟩
    lastCode := fun _ => by
      rw [recordError_errLast, x.toNat_code]
      exact ⟨hcode.1, hcode.2, bit_code⟩
    noInternalCarry := by
      have hne : 8 ≠ x.code - 1 := fun h8 => hx (ErrCode.code_eq_nine (by omega))
      rw [bit, h.noInternalCarry, decide_eq_false hne]
      rfl }

/-! ### The end of a command -/

theorem State.Inv.recordError {s : State} (h : s.Inv) {x : ErrCode} (hx : x ≠ .internalCarry) (i : Word) :
    (recordError x i s).Inv :=
  ⟨h.ctxOk, h.engOk, h.heldOk, h.errorsOk.recordError hx i⟩

/-- Dropping the held command keeps the invariant. -/
theorem State.Inv.release {s : State} (h : s.Inv) : { s with held := none }.Inv :=
  ⟨h.ctxOk, h.engOk, fun _ hl => (nomatch hl), h.errorsOk.congr rfl⟩

theorem State.Inv.errorState {s : State} (h : s.Inv) {x : ErrCode} (hx : x ≠ .internalCarry) :
    (errorState x s).Inv :=
  h.release.recordError hx _

theorem firstError_safe {i : Instr} {s : State} {x : ErrCode} (h : firstError i s = some x) :
    x ≠ .internalCarry := by
  unfold firstError at h
  split_ifs at h <;> cases h <;> decide

theorem attempt_meets (i : Instr) {s : State} (hs : s.PartsOk) :
    Meets (attempt i s) State.PartsOk (SafeStop (mayHold i)) := by
  cases hf : firstError i s with
  | none =>
    rw [attempt_of_checked hf]
    exact work_meets hf hs
  | some x =>
    rw [attempt_of_error hf]
    exact ⟨fun h => firstError_safe hf (by simpa using h), by simp, by simp⟩

theorem latchOf_word (s : State) : (latchOf s).word = commandWord s := by
  unfold latchOf commandWord
  cases s.held <;> rfl

/-- The word of the command being run is the one in `CMD`, held or not. -/
theorem State.HeldOk.commandWord_eq {s : State} (h : s.HeldOk) : commandWord s = s.cmd := by
  unfold commandWord
  cases hh : s.held with
  | none => rfl
  | some l => exact (h l hh).1

theorem exec_keeps_inv {i : Instr} {s t : State} (hs : s.Inv) (hi : decode (commandWord s) = .ok i)
    (h : exec i s = .next t) : t.Inv := by
  have hmeets := attempt_meets i hs.partsOk
  rcases exec_next_cases h with ⟨u, hc, hu, rfl⟩ | ⟨x, hx, rfl⟩ | ⟨hhold, rfl⟩
  · have parts : u.PartsOk := (work_meets hc hs.partsOk).of_ok hu
    have others := (work_registerFrame hu).others
    refine ⟨parts.ctxOk, parts.engOk, fun _ hl => (nomatch hl), ?_⟩
    rw [others]
    exact hs.errorsOk.congr rfl
  · exact hs.errorState fun hbad => (hmeets.of_error hx).noCarryOut (hbad ▸ rfl)
  · refine ⟨hs.ctxOk, hs.engOk, ?_, hs.errorsOk.congr rfl⟩
    rintro l ⟨⟩
    rw [latchOf_word]
    exact ⟨hs.heldOk.commandWord_eq, i, hi, (hmeets.of_error hhold).mayHold rfl⟩

theorem runWord_keeps_inv {s t : State} (hs : s.Inv) (h : runWord (commandWord s) s = .next t) : t.Inv := by
  unfold runWord at h
  split at h
  · rename_i i hi
    exact exec_keeps_inv hs hi h
  · rename_i x hx
    rw [finish_error] at h
    cases h
    exact hs.errorState (by cases x <;> decide)

/-! ### Host accesses -/

theorem issue_keeps_inv {w : Word} {s t : State} (hs : s.Inv) (h : issue w s = .next t) : t.Inv := by
  unfold issue at h
  split at h
  · cases h
    exact hs.recordError (by decide) _
  · rename_i hnone
    have hword : commandWord { s with cmd := w } = w := by simp [commandWord, hnone]
    have hs' : { s with cmd := w }.Inv :=
      ⟨hs.ctxOk, hs.engOk, fun l hl => by simp [hnone] at hl, hs.errorsOk.congr rfl⟩
    rw [← hword] at h
    exact runWord_keeps_inv hs' (by rwa [hword] at h ⊢)

theorem reattempt_keeps_inv {s t : State} (hs : s.Inv) (h : reattempt s = .next t) : t.Inv := by
  cases hh : s.held with
  | none =>
    rw [reattempt_of_none hh] at h
    cases h
    exact hs
  | some l =>
    have hword : commandWord s = l.word := by simp [commandWord, hh]
    rw [reattempt_of_some hh, ← hword] at h
    exact runWord_keeps_inv hs h

theorem State.Inv.setEng {s : State} (h : s.Inv) {e : Idx} {g : Engine}
    (hg : g.Ok (s.build.outCapOf e) (s.build.inCapOf e)) : (s.setEng e g).Inv :=
  have parts := h.partsOk.setEng hg
  ⟨parts.ctxOk, parts.engOk, h.heldOk, h.errorsOk.congr rfl⟩

/-- What the host writes to the stream side of an engine keeps it sound while the input fits. -/
theorem Engine.Ok.hostSide {outCap inCap : Option Nat} {g h : Engine} (hg : g.Ok outCap inCap)
    (hh : h = { g with outIdx := h.outIdx, input := h.input, inPtr := h.inPtr, eos := h.eos })
    (hptr : h.inPtr.toNat ≤ h.input.length) (hin : ∀ n, inCap = some n → h.input.length ≤ n) :
    h.Ok outCap inCap where
  encOk := by
    rw [hh]
    exact fun hm => ⟨(hg.encOk hm).lengthGe, (hg.encOk hm).room⟩
  decLength := by
    rw [hh]
    exact hg.decLength
  inPtrLe := hptr
  outFits := by
    rw [hh]
    exact hg.outFits
  inFits := hin

/-- Everything `IN_PUSH` can do to the buffer. -/
theorem pushByte_cases (e : Idx) (off : BitVec 12) (v : Word) (s : State) :
    pushByte e off v s = recordError .inOverflow (off.setWidth 32) s
    ∨ (pushByte e off v s
        = s.setEng e { s.eng e with input := (s.eng e).input ++ [v.extractLsb' 0 8] }
      ∧ ∀ n, s.build.inCapOf e = some n → (s.eng e).input.length < n) := by
  unfold pushByte
  cases hc : s.build.inCapOf e with
  | none => exact .inr ⟨rfl, by simp⟩
  | some n =>
    by_cases hn : n ≤ (s.eng e).input.length
    · exact .inl (if_pos (decide_eq_true hn))
    · refine .inr ⟨if_neg (by simpa using hn), fun m hm => ?_⟩
      cases hm
      exact Nat.lt_of_not_le hn

theorem pushByte_keeps_inv {e : Idx} {off : BitVec 12} {v : Word} {s : State} (hs : s.Inv) :
    (pushByte e off v s).Inv := by
  rcases pushByte_cases e off v s with h | ⟨h, hroom⟩ <;> rw [h]
  · exact hs.recordError (by decide) _
  · have hptr := (hs.engOk e).inPtrLe
    exact hs.setEng ((hs.engOk e).hostSide rfl (by simp; omega) fun n hn => by simpa using hroom n hn)

theorem controlInput_ok {outCap inCap : Option Nat} {g : Engine} (hg : g.Ok outCap inCap) (v : Word) :
    (controlInput v g).Ok outCap inCap := by
  rw [controlInput_eq]
  cases v.getLsbD 1 with
  | false => exact hg.hostSide rfl hg.inPtrLe hg.inFits
  | true => exact hg.hostSide rfl (Nat.le_refl _) fun _ _ => Nat.zero_le _

theorem writeReg_keeps_inv {r : Reg} {off : BitVec 12} {v : Word} {s t : State} (hs : s.Inv)
    (h : writeReg r off v s = .next t) : t.Inv := by
  unfold writeReg at h
  split at h
  case h_1 => exact issue_keeps_inv hs h
  case h_8 e => exact reattempt_keeps_inv (pushByte_keeps_inv hs) h
  case h_9 e => exact reattempt_keeps_inv (hs.setEng (controlInput_ok (hs.engOk e) v)) h
  all_goals cases h
  case h_7 e => exact hs.setEng ((hs.engOk e).hostSide rfl (hs.engOk e).inPtrLe (hs.engOk e).inFits)
  case h_10 => exact hs.recordError (by decide) _
  all_goals exact ⟨hs.ctxOk, hs.engOk, hs.heldOk, hs.errorsOk.congr rfl⟩

theorem hostWrite_keeps_inv {off : BitVec 12} {width : Width} {v : Word} {s t : State} (hs : s.Inv)
    (h : hostWrite off width v s = .next t) : t.Inv := by
  unfold hostWrite at h
  split at h
  · split at h
    · exact writeReg_keeps_inv hs h
    · cases h
      exact hs.recordError (by decide) _
  · cases h
    exact hs.recordError (by decide) _

theorem hostRead_keeps_inv {off : BitVec 12} {width : Width} {s : State} (hs : s.Inv) :
    (hostRead off width s).Inv := by
  have keep (w : Word) : { s with readData := w }.Inv :=
    ⟨hs.ctxOk, hs.engOk, hs.heldOk, hs.errorsOk.congr rfl⟩
  unfold hostRead
  split
  · exact keep _
  · exact (keep 0).recordError (by decide) _

theorem resetBlock_inv (s : State) : (resetBlock s).Inv where
  ctxOk := fun c => by
    have : (resetBlock s).ctx c = Context.reset := State.resetOf_ctx s.build c
    rw [this]
    exact reset_context_ok _ _
  engOk := fun e => by
    have : (resetBlock s).eng e = resetEngine (s.eng e) := by simp [resetBlock, State.eng]
    rw [this]
    have hreset := reset_engine_ok (s.build.outCapOf e) (s.build.inCapOf e)
    exact ⟨fun h => (nomatch h), fun h => (nomatch h), hreset.inPtrLe, hreset.outFits, hreset.inFits⟩
  heldOk := fun _ hl => (nomatch hl)
  errorsOk := ⟨fun _ => ⟨rfl, rfl, rfl, rfl, rfl⟩, fun h => absurd rfl h, fun h => absurd rfl h,
    fun h => absurd rfl h, BitVec.getLsbD_zero⟩

theorem perform_keeps_inv {a : Access} {s t : State} (hs : s.Inv) (h : perform a s = .next t) : t.Inv := by
  cases a with
  | reset =>
    cases h
    exact resetBlock_inv s
  | read addr width =>
    simp only [perform] at h
    split at h <;> cases h
    · exact hostRead_keeps_inv hs
    · exact hs
  | write addr width v =>
    simp only [perform] at h
    split at h
    · exact hostWrite_keeps_inv hs h
    · cases h
      exact hs

/-- Settles O58: whichever access the step makes, it keeps the invariant. -/
theorem stepKeepsTheInvariant : Obligations.StepKeepsTheInvariant := by
  intro s t hs h
  unfold step at h
  split at h
  · cases h
    exact hs
  · refine perform_keeps_inv ?_ h
    exact ⟨hs.ctxOk, hs.engOk, hs.heldOk, hs.errorsOk.congr rfl⟩

end Sys2Proof.Machine
end

