-- ==== Sys2Proof/Proofs/Registers.lean ====
section
/-! What the registers read: words built by `|||` from fields that do not overlap, read once bit by bit or as sums
(10_state.md R42 to R51, R61, R62). -/

namespace Sys2Proof.Machine

/-! ### Words made of fields -/

/-- A field above the bits of the rest adds its place value. -/
theorem toNat_or_shiftLeft {x y : Word} {k : Nat} (hx : x.toNat < 2 ^ k) (hy : y.toNat * 2 ^ k < 2 ^ 32) :
    (x ||| y <<< k).toNat = x.toNat + y.toNat * 2 ^ k := by
  rw [BitVec.toNat_or, BitVec.toNat_shiftLeft, Nat.shiftLeft_eq, Nat.mod_eq_of_lt hy, Nat.or_comm,
    ← Nat.shiftLeft_eq, ← Nat.shiftLeft_add_eq_or_of_lt hx, Nat.shiftLeft_eq, Nat.add_comm]

theorem toNat_or_wordBit {x : Word} {k : Nat} (hx : x.toNat < 2 ^ k) (hk : k < 32) (b : Bool) :
    (x ||| wordBit b k).toNat = x.toNat + if b then 2 ^ k else 0 := by
  cases b with
  | false => simp [wordBit]
  | true =>
    have hpow : 1 * 2 ^ k < 2 ^ 32 := by simpa using Nat.pow_lt_pow_right (by decide) hk
    simpa [wordBit] using toNat_or_shiftLeft (y := 1#32) hx hpow

theorem toNat_append_eq_add {m n : Nat} (x : BitVec m) (y : BitVec n) :
    (x ++ y).toNat = x.toNat * 2 ^ n + y.toNat := by
  rw [BitVec.toNat_append, ← Nat.shiftLeft_add_eq_or_of_lt y.isLt, Nat.shiftLeft_eq]

theorem getLsbD_wordBit (b : Bool) (k i : Nat) :
    (wordBit b k).getLsbD i = (b && decide (k < 32) && decide (k = i)) := by
  cases b with
  | false => simp [wordBit]
  | true => rw [wordBit, if_pos rfl, ← BitVec.twoPow_eq, BitVec.getLsbD_twoPow, Bool.true_and]

/-- The row of bits built so far: the first `n` of them. -/
theorem getLsbD_foldl_wordBit (f : Idx → Bool) {n : Nat} (hn : n ≤ 32) (i : Nat) :
    ((List.range n).foldl (fun w i => w ||| wordBit (f (BitVec.ofNat 4 i)) i) (0 : Word)).getLsbD i
      = (decide (i < n) && f (BitVec.ofNat 4 i)) := by
  induction n with
  | zero => simp
  | succ n ih =>
    rw [List.range_succ, List.foldl_append, List.foldl_cons, List.foldl_nil, BitVec.getLsbD_or, ih (by omega),
      getLsbD_wordBit]
    by_cases h : n = i
    · subst h
      simp
      omega
    · have : i < n + 1 ↔ i < n := by omega
      simp [h, this]

theorem getLsbD_bits16 (f : Idx → Bool) (i : Nat) :
    (bits16 f).getLsbD i = (decide (i < 16) && f (BitVec.ofNat 4 i)) :=
  getLsbD_foldl_wordBit f (by decide) i

/-! ### STATUS, ERRINFO, CONFIG -/

theorem getLsbD_statusWord {b : Build} {busy err : Bool} {errBits : BitVec 12} {underrun : Idx → Bool} {i : Nat}
    (hi : i < 32) : (statusWord b busy err errBits underrun).getLsbD i
      = (busy && decide (0 = i) || err && decide (1 = i) || !decide (i < 2) && errBits.getLsbD (i - 2)
        || !decide (i < 16) && (b.hasEng (BitVec.ofNat 4 (i - 16)) && underrun (BitVec.ofNat 4 (i - 16)))) := by
  have h2 : i - 2 < 32 := by omega
  have h16 : i - 16 < 16 := by omega
  simp only [statusWord, BitVec.getLsbD_or, getLsbD_wordBit, getLsbD_bits16, BitVec.getLsbD_shiftLeft,
    BitVec.getLsbD_setWidth, hi, h2, h16, decide_true, Bool.and_true, Bool.true_and, engValid_eq_hasEng,
    Nat.reduceLT]

/-- The bits above `CONFIG`'s lower half: no field of that half reaches them. -/
theorem getLsbD_configWord_upper (b : Build) (c : Idx) :
    (configWord b).getLsbD (16 + c.toNat) = (b.hasCtx c && decide (b.kind c = .colorNir)) := by
  have hc := c.isLt
  have hctx : b.nctxM1.getLsbD (16 + c.toNat) = false := BitVec.getLsbD_of_ge _ _ (by omega)
  have heng : b.nengM1.getLsbD (16 + c.toNat - 4) = false := BitVec.getLsbD_of_ge _ _ (by omega)
  have hprofile : ¬ 8 = 16 + c.toNat := by omega
  have h32 : 16 + c.toNat < 32 := by omega
  have h16 : ¬ 16 + c.toNat < 16 := by omega
  simp only [configWord, BitVec.getLsbD_or, getLsbD_wordBit, getLsbD_bits16, BitVec.getLsbD_shiftLeft,
    BitVec.getLsbD_setWidth, ctxValid_eq_hasCtx]
  simp [hctx, heng, hprofile, h32, h16, hc, beq_eq_decide]

theorem toNat_configWord_lower (b : Build) : (configWord b).toNat % 0x10000
    = b.nctxM1.toNat + b.nengM1.toNat * 2 ^ 4 + if b.profile = .laszip then 0x100 else 0 := by
  have hc := b.nctxM1.isLt
  have he := b.nengM1.isLt
  have hctx : (b.nctxM1.setWidth 32).toNat = b.nctxM1.toNat := by simp; omega
  have heng : (b.nengM1.setWidth 32).toNat = b.nengM1.toNat := by simp; omega
  have counts : (b.nctxM1.setWidth 32 ||| b.nengM1.setWidth 32 <<< 4).toNat
      = b.nctxM1.toNat + b.nengM1.toNat * 2 ^ 4 := by
    rw [toNat_or_shiftLeft (by omega) (by omega), hctx, heng]
  have upper (w : Word) : (w <<< 16).toNat % 2 ^ 16 = 0 := by
    rw [BitVec.toNat_shiftLeft, Nat.shiftLeft_eq]
    omega
  change _ % 2 ^ 16 = _
  rw [configWord, BitVec.toNat_or, Nat.or_mod_two_pow, upper, Nat.or_zero, toNat_or_wordBit (by omega) (by decide),
    counts]
  simp only [beq_iff_eq]
  split <;> omega

/-- Settles O55: each word is read at the place of each of its fields. -/
theorem statusWordsHaveTheirFields : Obligations.StatusWordsHaveTheirFields := by
  intro s
  refine ⟨?_, ?_, fun k hk => ?_, ?_, ?_, fun e => ?_, ?_, ?_, fun c => ?_⟩
  · rw [readReg, getLsbD_statusWord (by decide)]
    simp
  · rw [readReg, getLsbD_statusWord (by decide)]
    simp
  · rw [readReg, getLsbD_statusWord (by omega)]
    have h0 : ¬ 0 = 2 + k := by omega
    have h1 : ¬ 1 = 2 + k := by omega
    have h2 : ¬ 2 + k < 2 := by omega
    have h16 : 2 + k < 16 := by omega
    simp only [h0, h1, h2, h16, decide_true, decide_false, Bool.and_false, Bool.false_or, Nat.add_sub_cancel_left]
    simp
  · rw [readReg, getLsbD_statusWord (by decide)]
    simp
  · rw [readReg, getLsbD_statusWord (by decide)]
    simp
  · rw [readReg, getLsbD_statusWord (by omega)]
    have h0 : ¬ 0 = 16 + e.toNat := by omega
    have h1 : ¬ 1 = 16 + e.toNat := by omega
    have h12 : s.errBits.getLsbD (16 + e.toNat - 2) = false := BitVec.getLsbD_of_ge _ _ (by omega)
    have h16 : ¬ 16 + e.toNat < 16 := by omega
    simp [h0, h1, h12, h16]
  · rw [readReg, errInfoWord, toNat_append_eq_add, toNat_append_eq_add]
    omega
  · rw [readReg, toNat_configWord_lower]
    simp only [Build.numCtx, Build.numEng, Nat.add_sub_cancel]
    omega
  · exact getLsbD_configWord_upper s.build c

/-! ### The debug registers -/

/-- The fields of `DBG_SEL` (R50). -/
theorem dbgSel_fields {s : State} {c j : Idx} {k : Byte} (h : s.dbgSel = k ++ j ++ c) :
    dbgCtx s = c ∧ dbgSlot s = j ∧ dbgIndex s = k := by
  have hc := c.isLt
  have hj := j.isLt
  have hk := k.isLt
  have value : s.dbgSel.toNat = (k.toNat * 2 ^ 4 + j.toNat) * 2 ^ 4 + c.toNat := by
    rw [h, toNat_append_eq_add, toNat_append_eq_add]
  refine ⟨?_, ?_, ?_⟩ <;> apply BitVec.eq_of_toNat_eq <;>
    simp only [dbgCtx, dbgSlot, dbgIndex, BitVec.extractLsb'_toNat, value, Nat.shiftRight_eq_div_pow] <;> omega

/-- A slot is shown where the build has the context and the slot and the context is initialised (R51). -/
theorem dbgShown_isSome (s : State) : (dbgShown s).isSome = true ↔
    s.build.hasCtx (dbgCtx s) = true ∧ (s.ctx (dbgCtx s)).phase ≠ .uninit
      ∧ s.build.hasSlot (dbgCtx s) (dbgSlot s) = true := by
  rw [dbgShown, ctxValid_eq_hasCtx, ← slotOf_isSome_eq_hasSlot]
  split <;> simp_all

theorem dbgShown_val {s : State} {σ : Slot} (h : dbgShown s = some σ) : σ.val = (dbgSlot s).toNat := by
  rw [dbgShown] at h
  split at h
  · exact (slotOf_eq_some.mp h).1.symm
  · cases h

theorem dbgRead_of_none {s : State} (h : dbgShown s = none) (f : Nat → Nat → Model → Word) : dbgRead s f = 0 := by
  rw [dbgRead, h]

theorem dbgRead_of_some {s : State} {σ : Slot} (h : dbgShown s = some σ) (f : Nat → Nat → Model → Word) :
    dbgRead s f = f (slotSyms s.build.profile σ) (dbgIndex s).toNat (s.model (dbgCtx s) σ) := by
  rw [dbgRead, h]

/-- Settles O56: what each debug register reads where a slot is shown, and 0 where none is. -/
theorem debugRegistersShowTheSlot : Obligations.DebugRegistersShowTheSlot := by
  intro s c j k hsel
  obtain ⟨rfl, rfl, rfl⟩ := dbgSel_fields hsel
  rw [← dbgShown_isSome]
  constructor
  · intro hshown
    obtain ⟨σ, hσ⟩ := Option.isSome_iff_exists.mp hshown
    have hn := slotSyms_bounds s.build.profile σ
    simp only [readReg, dbgRead_of_some hσ]
    refine ⟨σ, dbgShown_val hσ, fun hk => ⟨if_pos hk, if_pos hk⟩, fun hk => ?_, rfl, rfl, rfl, ?_⟩
    · exact ⟨if_neg (Nat.not_lt.mpr hk), if_neg (Nat.not_lt.mpr hk)⟩
    · rw [BitVec.toNat_ofNat, Nat.mod_eq_of_lt (by omega)]
  · intro hnone r hr
    have read := dbgRead_of_none (Option.not_isSome_iff_eq_none.mp hnone)
    simp only [List.mem_cons, List.not_mem_nil, or_false] at hr
    rcases hr with rfl | rfl | rfl | rfl | rfl | rfl <;> rw [readReg, read]

/-! ### The registers of an engine and of a context -/

theorem toNat_engStatWord (g : Engine) : (engStatWord g).toNat
    = g.mode.code.toNat + (if g.eos then 4 else 0) + (if g.underrun then 8 else 0) := by
  have hmode : g.mode.code.toNat < 4 := by cases g.mode <;> decide
  have heos : (g.mode.code ||| wordBit g.eos 2).toNat = g.mode.code.toNat + if g.eos then 4 else 0 :=
    toNat_or_wordBit hmode (by decide) _
  rw [engStatWord, toNat_or_wordBit (by rw [heos]; split <;> omega) (by decide), heos]
  rfl

theorem toNat_ctxStatWord (k : Kind) (x : Context) : (ctxStatWord k x).toNat
    = x.phase.code.toNat + (if x.unused then 4 else 0) + (if k = .colorNir then 8 else 0) := by
  have hphase : x.phase.code.toNat < 4 := by cases x.phase <;> decide
  have hunused : (x.phase.code ||| wordBit x.unused 2).toNat = x.phase.code.toNat + if x.unused then 4 else 0 :=
    toNat_or_wordBit hphase (by decide) _
  rw [ctxStatWord, toNat_or_wordBit (by rw [hunused]; split <;> omega) (by decide), hunused]
  simp only [beq_iff_eq]
  rfl

/-- A register of a half reads it zero-extended. -/
theorem toNat_setWidth_half (v : Half) : (v.setWidth 32).toNat = v.toNat := by
  have := v.isLt
  simp
  omega

/-- Settles O60: each register of an engine and of a context, one by one. -/
theorem engineAndContextRegistersShowTheirFields : Obligations.EngineAndContextRegistersShowTheirFields := by
  refine ⟨fun s e => ⟨?_, ?_, rfl, fun b hb => ?_, fun hlen => ?_, ?_, rfl, rfl, rfl, rfl⟩,
    fun s c => ⟨?_, ?_, ?_, ?_, fun hk => ?_, fun hk => ?_⟩⟩
  · rw [readReg, readEng, toNat_engStatWord]
    cases (s.eng e).mode <;> rfl
  · exact BitVec.toNat_ofNat ..
  · have := b.isLt
    rw [readReg, readEng, List.getD_eq_getElem?_getD, hb]
    simp
    omega
  · rw [readReg, readEng, List.getD_eq_default _ _ hlen]
    rfl
  · exact BitVec.toNat_ofNat ..
  · rw [readReg, readCtx, toNat_ctxStatWord]
    cases (s.ctx c).phase <;> rfl
  · exact toNat_setWidth_half _
  · exact toNat_setWidth_half _
  · exact toNat_setWidth_half _
  · rw [readReg, hk]
    exact toNat_setWidth_half _
  · rw [readReg, hk]
    rfl

/-! ### Stored registers -/

/-- A proper write to a writable register of the block at its offset. -/
theorem step_writeReg {s : State} {off : BitVec 12} {v : Word} {r : Reg} {rest : List Access}
    (h : s.pending = .write (busAddr s.build off) .w32 v :: rest) (hp : properAccess off .w32 = true)
    (hr : regAt s.build off = some r) : step s = writeReg r off v { s with pending := rest } :=
  (step_write h).trans (hostWrite_proper hp hr)

/-- What is stored of a word reads back as its low half. -/
theorem toNat_stored (v : Word) : ((v.extractLsb' 0 16).setWidth 32).toNat = v.toNat % 0x10000 := by
  simp
  omega

/-- Settles O53: each of the five registers is one field, which no other register reads but, of `DBG_SEL`, the
debug registers. -/
theorem storedRegistersReadBack : Obligations.StoredRegistersReadBack := by
  intro s v rest off r hmem hpending
  simp only [List.mem_cons, Prod.mk.injEq, List.not_mem_nil, or_false] at hmem
  rcases hmem with ⟨rfl, rfl⟩ | ⟨rfl, rfl⟩ | ⟨rfl, rfl⟩ | ⟨rfl, rfl⟩ | ⟨rfl, rfl⟩ <;>
    refine ⟨_, step_writeReg hpending (by decide) rfl, toNat_stored v, fun r' hne hdbg => ?_, rfl, rfl, rfl⟩
  · cases r' with
    | argR => exact absurd rfl hne
    | _ => rfl
  · cases r' with
    | argG => exact absurd rfl hne
    | _ => rfl
  · cases r' with
    | argB => exact absurd rfl hne
    | _ => rfl
  · cases r' with
    | argN => exact absurd rfl hne
    | _ => rfl
  · cases r' with
    | dbgSel => exact absurd rfl hne
    | dbgCount | dbgDist | dbgTotal | dbgCycle | dbgUntil | dbgNsym => exact absurd (by simp) (hdbg rfl)
    | _ => rfl

end Sys2Proof.Machine
end

