-- ==== Sys2Proof/Proofs/Streams.lean ====
section
/-! The stream primitives (20_memory.md R84 to R86), from the lemmas that say once what each can do. -/

namespace Sys2Proof.Machine

/-! ### `StreamAppend` -/

theorem streamAppend_of_lt {n : Nat} {g : Engine} (h : g.out.length < n) (b : Byte) :
    streamAppend (some n) b g = .ok { g with out := g.out ++ [b] } :=
  if_neg (Nat.not_le.mpr h)

/-- A full bounded buffer takes no byte, and so does one past its capacity (log entry 8). -/
theorem streamAppend_of_le {n : Nat} {g : Engine} (h : n ≤ g.out.length) (b : Byte) :
    streamAppend (some n) b g = .error (.error .outOverflow) :=
  if_pos h

/-- Settles O15: an unbounded buffer, a full one, and one with room. -/
theorem streamAppendAtCapacityOverflows : Obligations.StreamAppendAtCapacityOverflows := fun b _ =>
  ⟨rfl, fun _ hfull => streamAppend_of_le hfull.ge b, fun _ hroom => streamAppend_of_lt hroom b⟩

/-! ### `StreamCarry` -/

/-- Settles O16: where every byte is `0xFF` the number is the greatest of its length, so a carry that completed would
leave one too great; where a byte is not, the one error of `StreamCarry` is excluded. -/
theorem streamCarryAddsOne : Obligations.StreamCarryAddsOne := by
  intro g
  refine ⟨fun hall => ?_, fun ⟨b, hb, hne⟩ => ?_⟩
  · rcases streamCarry_value_cases g with ⟨bs, -, hlen, hval⟩ | ⟨hc, -⟩
    · have hlt := bytesValue_lt bs
      rw [hval, hlen, bytesValue_of_all_ff hall] at hlt
      exact absurd hlt (Nat.lt_irrefl _)
    · exact hc
  · rcases streamCarry_value_cases g with hok | ⟨hc, -⟩
    · exact hok
    · rcases streamCarry_cases g with ⟨bs, hok, -⟩ | ⟨-, hall⟩
      · rw [hok] at hc
        cases hc
      · exact absurd (hall b hb) hne

/-! ### `StreamRead` -/

theorem streamRead_of_getElem? {g : Engine} {b : Byte} (h : g.input[g.inPtr.toNat]? = some b) (e : Idx) :
    streamRead e g = .ok (b, { g with inPtr := g.inPtr + 1 }) := by
  obtain ⟨hlt, -⟩ := List.getElem?_eq_some_iff.mp h
  rw [streamRead, if_pos hlt, List.getD_eq_getElem?_getD, h]
  rfl

/-- With no byte left and the end unmarked, a read holds (20_memory.md R87). -/
theorem streamRead_of_empty {g : Engine} (h : g.input.length ≤ g.inPtr.toNat) (heos : g.eos = false) (e : Idx) :
    streamRead e g = .error .hold := by
  rw [streamRead, if_neg (Nat.not_lt.mpr h), heos]
  rfl

/-- With no byte left and the end marked, a read gives a free value (00_scope.md R17). -/
theorem streamRead_of_marked {g : Engine} (h : g.input.length ≤ g.inPtr.toNat) (heos : g.eos = true) (e : Idx) :
    streamRead e g = .ok (Config.eosDraw e g.draws, { g with underrun := true, draws := g.draws + 1 }) := by
  rw [streamRead, if_neg (Nat.not_lt.mpr h), if_pos heos]

/-- Settles O17: a byte at hand, none with the end unmarked, none with the end marked. -/
theorem streamReadTakesHoldsOrDraws : Obligations.StreamReadTakesHoldsOrDraws := fun e _ =>
  ⟨fun _ hb => streamRead_of_getElem? hb e, fun hlen heos => streamRead_of_empty hlen heos e,
    fun hlen heos => ⟨_, streamRead_of_marked hlen heos e⟩⟩

end Sys2Proof.Machine
end

