-- ==== Sys2Proof/Proofs/RegisterMap.lean ====
section
/-! The register map (20_memory.md R92, R94) and the accesses that reach no register or may not write one (R90, R91,
R93, R95). -/

namespace Sys2Proof.Machine

/-! ### Where an offset lies -/

theorem toNat_engOffset (e : Idx) {off : BitVec 12} (h : off < 0x40) :
    (engOffset e off).toNat = 0x100 + 0x40 * e.toNat + off.toNat := by
  have := e.isLt
  unfold engOffset
  bv_omega

theorem toNat_ctxOffset (c : Idx) {off : BitVec 12} (h : off < 0x20) :
    (ctxOffset c off).toNat = 0x800 + 0x20 * c.toNat + off.toNat := by
  have := c.isLt
  unfold ctxOffset
  bv_omega

theorem regAt_block (b : Build) {off : BitVec 12} (h : off < 0x100) : regAt b off = blockRegAt off.toNat := by
  have h : off.toNat < 0x100 := h
  simp only [regAt, h, if_true]

/-- The offsets of an engine's block hold its registers, where the build has the engine. -/
theorem regAt_engOffset (b : Build) (e : Idx) {off : BitVec 12} (h : off < 0x40) : regAt b (engOffset e off)
    = if b.hasEng e then (engRegAt off.toNat).map (.eng e) else none := by
  have hoff : off.toNat < 0x40 := h
  have he := e.isLt
  have hquot : (0x100 + 0x40 * e.toNat + off.toNat - 0x100) / 0x40 = e.toNat := by omega
  have hrem : (0x100 + 0x40 * e.toNat + off.toNat - 0x100) % 0x40 = off.toNat := by omega
  rw [regAt, toNat_engOffset e h, if_neg (by omega), if_pos (by omega)]
  simp only [hquot, hrem, BitVec.ofNat_toNat, BitVec.setWidth_eq, engValid_eq_hasEng]

/-- The offsets of a context's block hold its registers, where the build has the context. -/
theorem regAt_ctxOffset (b : Build) (c : Idx) {off : BitVec 12} (h : off < 0x20) : regAt b (ctxOffset c off)
    = if b.hasCtx c then (ctxRegAt off.toNat).map (.ctx c) else none := by
  have hoff : off.toNat < 0x20 := h
  have hc := c.isLt
  have hquot : (0x800 + 0x20 * c.toNat + off.toNat - 0x800) / 0x20 = c.toNat := by omega
  have hrem : (0x800 + 0x20 * c.toNat + off.toNat - 0x800) % 0x20 = off.toNat := by omega
  rw [regAt, toNat_ctxOffset c h, if_neg (by omega), if_neg (by omega), if_neg (by omega), if_pos (by omega)]
  simp only [hquot, hrem, BitVec.ofNat_toNat, BitVec.setWidth_eq, ctxValid_eq_hasCtx]

/-! ### Reserved offsets -/

/-- Past the last register of the block as a whole. -/
theorem blockRegAt_of_ge {n : Nat} (h : 0x5C ≤ n) : blockRegAt n = none := by
  unfold blockRegAt
  split
  case h_23 => rfl
  all_goals omega

/-- Past the last register of an engine. -/
theorem engRegAt_of_ge {n : Nat} (h : 0x2C ≤ n) : engRegAt n = none := by
  unfold engRegAt
  split
  case h_12 => rfl
  all_goals omega

/-- Past the last register of a context. -/
theorem ctxRegAt_of_ge {n : Nat} (h : 0x14 ≤ n) : ctxRegAt n = none := by
  unfold ctxRegAt
  split
  case h_6 => rfl
  all_goals omega

/-- Between the engines and the contexts. -/
theorem regAt_middle (b : Build) {off : BitVec 12} (h : 0x500 ≤ off) (h' : off < 0x800) : regAt b off = none := by
  have h : 0x500 ≤ off.toNat := h
  have h' : off.toNat < 0x800 := h'
  rw [regAt, if_neg (by omega), if_neg (by omega), if_pos h']

/-- Past the contexts. -/
theorem regAt_end (b : Build) {off : BitVec 12} (h : 0xA00 ≤ off) : regAt b off = none := by
  have h : 0xA00 ≤ off.toNat := h
  rw [regAt, if_neg (by omega), if_neg (by omega), if_neg (by omega), if_neg (by omega)]

/-- The offsets of R92 that hold no register in any build. -/
theorem regAt_reserved (b : Build) {off : BitVec 12}
    (h : off = 0x01C ∨ (0x05C ≤ off ∧ off < 0x100) ∨ (0x500 ≤ off ∧ off < 0x800) ∨ 0xA00 ≤ off) :
    regAt b off = none := by
  rcases h with rfl | ⟨hge, hlt⟩ | ⟨hge, hlt⟩ | hge
  · rfl
  · rw [regAt_block b hlt, blockRegAt_of_ge hge]
  · exact regAt_middle b hge hlt
  · exact regAt_end b hge

/-! ### Outside the register space -/

theorem step_read_outside {s : State} {addr : Nat} {width : Width} {rest : List Access}
    (ha : addr < s.build.aceBase ∨ s.build.aceBase + 0x1000 ≤ addr) (h : s.pending = .read addr width :: rest) :
    step s = .next { s with pending := rest } := by
  simp only [step, h, perform, offsetAt_eq_none ha]

theorem step_write_outside {s : State} {addr : Nat} {width : Width} {v : Word} {rest : List Access}
    (ha : addr < s.build.aceBase ∨ s.build.aceBase + 0x1000 ≤ addr) (h : s.pending = .write addr width v :: rest) :
    step s = .next { s with pending := rest } := by
  simp only [step, h, perform, offsetAt_eq_none ha]

/-- Settles O50: each listed offset in turn, then the reserved ones, then the addresses outside. -/
theorem registerMapOfBlocks : Obligations.RegisterMapOfBlocks := by
  refine ⟨fun b e off r h => ?_, fun b c off r h => ?_, fun b off r h => ?_, fun b off => regAt_reserved b,
    fun b e off hge hlt => ?_, fun b c off hge hlt => ?_,
    fun s addr width rest ha => ⟨step_read_outside ha, fun v => step_write_outside ha⟩⟩
  · obtain ⟨hlt, hrow⟩ : off < 0x40 ∧ engRegAt off.toNat = some r :=
      (by decide : ∀ x ∈ (_ : List (BitVec 12 × EngReg)), x.1 < 0x40 ∧ engRegAt x.1.toNat = some x.2) (off, r) h
    rw [regAt_engOffset b e hlt, hrow]
    rfl
  · obtain ⟨hlt, hrow⟩ : off < 0x20 ∧ ctxRegAt off.toNat = some r :=
      (by decide : ∀ x ∈ (_ : List (BitVec 12 × CtxReg)), x.1 < 0x20 ∧ ctxRegAt x.1.toNat = some x.2) (off, r) h
    rw [regAt_ctxOffset b c hlt, hrow]
    rfl
  · obtain ⟨hlt, hrow⟩ : off < 0x100 ∧ blockRegAt off.toNat = some r :=
      (by decide : ∀ x ∈ (_ : List (BitVec 12 × Reg)), x.1 < 0x100 ∧ blockRegAt x.1.toNat = some x.2) (off, r) h
    rw [regAt_block b hlt, hrow]
  · rw [regAt_engOffset b e hlt, engRegAt_of_ge hge]
    split <;> rfl
  · rw [regAt_ctxOffset b c hlt, ctxRegAt_of_ge hge]
    split <;> rfl

/-! ### Proper and improper accesses -/

/-- A proper access is 32 bits wide at a multiple of 4 (R90). -/
theorem properAccess_eq_true {off : BitVec 12} {width : Width} :
    properAccess off width = true ↔ width = .w32 ∧ off.toNat % 4 = 0 := by
  have low : off.extractLsb' 0 2 = 0#2 ↔ off.toNat % 4 = 0 := by
    rw [← BitVec.toNat_inj, BitVec.extractLsb'_toNat]
    rfl
  rw [properAccess, Bool.and_eq_true, beq_iff_eq, beq_iff_eq, low]

theorem hostRead_proper {off : BitVec 12} {width : Width} (h : properAccess off width = true) (s : State) :
    hostRead off width s = { s with readData := readAt s off } :=
  if_pos h

theorem hostRead_improper {off : BitVec 12} {width : Width} (h : ¬ properAccess off width = true) (s : State) :
    hostRead off width s = recordError .hostAccess (off.setWidth 32) { s with readData := 0 } :=
  if_neg h

theorem hostWrite_improper {off : BitVec 12} {width : Width} (h : ¬ properAccess off width = true) (v : Word)
    (s : State) : hostWrite off width v s = .next (recordError .hostAccess (off.setWidth 32) s) :=
  if_neg h

theorem hostWrite_reserved {off : BitVec 12} {s : State} (h : regAt s.build off = none) (v : Word) :
    hostWrite off .w32 v s = .next (recordError .hostAccess (off.setWidth 32) s) := by
  unfold hostWrite
  rw [h]
  split <;> rfl

/-- A write to a read-only register changes nothing but the error record (R95). -/
theorem writeReg_readOnly {r : Reg} (h : readOnly r = true) (off : BitVec 12) (v : Word) (s : State) :
    writeReg r off v s = .next (recordError .hostAccess (off.setWidth 32) s) := by
  cases r with
  | cmd | argR | argG | argB | argN | dbgSel => cases h
  | eng e r =>
    cases r with
    | outIdx | inPush | inCtrl => cases h
    | _ => rfl
  | _ => rfl

theorem readAt_reserved {s : State} {off : BitVec 12} (h : regAt s.build off = none) : readAt s off = 0 := by
  rw [readAt, h]

theorem readAt_of_some {s : State} {off : BitVec 12} {r : Reg} (h : regAt s.build off = some r) :
    readAt s off = readReg s r := by
  rw [readAt, h]

/-- Settles O51: the read, the two ways a read gives 0, and the two ways a proper write is ignored. -/
theorem readsAreFreeAndBadWritesRecorded : Obligations.ReadsAreFreeAndBadWritesRecorded := by
  refine ⟨fun s off rest h hmul => ?_, fun s off h => ?_, fun s off v rest h hmul hbad => ?_⟩
  · rw [step_read h, hostRead_proper (properAccess_eq_true.mpr ⟨rfl, hmul⟩)]
    rfl
  · rcases h with h | ⟨e, h⟩ | ⟨e, h⟩
    · exact readAt_reserved h
    · exact readAt_of_some h
    · exact readAt_of_some h
  · rcases hbad with hnone | ⟨r, hr, hro⟩
    · exact (step_write h).trans (hostWrite_reserved (s := { s with pending := rest }) hnone v)
    · exact (step_writeReg h (properAccess_eq_true.mpr ⟨rfl, hmul⟩) hr).trans (writeReg_readOnly hro off v _)

/-- Settles O52: whichever way the access is improper, a read and a write record it. -/
theorem improperAccessIsRecorded : Obligations.ImproperAccessIsRecorded := by
  intro s off width rest h
  have himproper : ¬ properAccess off width = true := fun hp => by
    obtain ⟨hwidth, hmul⟩ := properAccess_eq_true.mp hp
    exact h.elim (· hwidth) (· hmul)
  refine ⟨fun hread => ?_, fun v hwrite => ?_⟩
  · rw [step_read hread, hostRead_improper himproper]
  · rw [step_write hwrite, hostWrite_improper himproper]

end Sys2Proof.Machine
end

