-- ==== Sys2Proof/Proofs/FinalOutput.lean ====
section
/-! The output of an engine that is not encoding (20_memory.md R88): what a step may do to it, access by access. -/

namespace Sys2Proof.Machine

/-- Between `g` and `h` the output stays, or a new stream was started. -/
def OutputKept (g h : Engine) : Prop := h.out = g.out ∨ (h.mode = .enc ∧ h.out = [])

theorem DecoderFrame.out_eq {g h : Engine} (hf : DecoderFrame g h) : h.out = g.out := by
  rw [hf]

/-- A command whose checks passed keeps the output of every engine that is not encoding: those that write one need the
engine in ENC, and `ENC_INIT` starts a new stream. -/
theorem work_outputKept {i : Instr} {s t : State} {e : Idx} (hc : firstError i s = none) (h : work i s = .ok t)
    (hm : (s.eng e).mode ≠ .enc) : OutputKept (s.eng e) (t.eng e) := by
  by_cases he : engineOf i = some e
  case neg => exact .inl (congrArg Engine.out ((work_partsFrame h).engines e he))
  have notEnc : needsMode i ≠ some .enc := fun hn => hm (engine_mode_of_checked hc he hn)
  cases i <;> simp only [engineOf, reduceCtorEq, Option.some.injEq] at he <;> subst he <;>
    simp only [work, attempt_bind_eq_ok, Except.ok.injEq, Prod.exists] at h
  case encDone | writeRgb | writeNir | encSymbol => exact absurd rfl notEnc
  case encInit =>
    subst h
    rw [State.eng_setEng_same]
    exact .inr ⟨rfl, rfl⟩
  case decInit =>
    obtain ⟨g, hg, rfl⟩ := h
    obtain ⟨g', hf, rfl⟩ := startDecoder_frame hg
    rw [State.eng_setEng_same]
    exact .inl hf.out_eq
  case decDone =>
    subst h
    rw [State.eng_setEng_same]
    exact .inl rfl
  case readRgb =>
    obtain ⟨m, p, u, hu, rfl⟩ := h
    exact .inl (decodeRgb_onlyCoded hu).2.out_eq
  case readNir =>
    obtain ⟨m, v, u, hu, rfl⟩ := h
    exact .inl (decodeNir_onlyCoded hu).2.out_eq
  case decSymbol =>
    obtain ⟨k, u, hu, rfl⟩ := h
    exact .inl (decodeSymbol_onlyCoded hu).2.out_eq

theorem exec_outputKept {i : Instr} {s t : State} {e : Idx} (h : exec i s = .next t) (hm : (s.eng e).mode ≠ .enc) :
    OutputKept (s.eng e) (t.eng e) := by
  rcases exec_next_cases h with ⟨u, hc, hu, rfl⟩ | ⟨x, -, rfl⟩ | ⟨-, rfl⟩
  · exact work_outputKept (t := u) hc hu hm
  · exact .inl rfl
  · exact .inl rfl

theorem runWord_outputKept {w : Word} {s t : State} {e : Idx} (h : runWord w s = .next t)
    (hm : (s.eng e).mode ≠ .enc) : OutputKept (s.eng e) (t.eng e) := by
  unfold runWord at h
  split at h
  · exact exec_outputKept h hm
  · rw [finish_error] at h
    cases h
    exact .inl rfl

theorem issue_outputKept {w : Word} {s t : State} {e : Idx} (h : issue w s = .next t) (hm : (s.eng e).mode ≠ .enc) :
    OutputKept (s.eng e) (t.eng e) := by
  unfold issue at h
  split at h
  · cases h
    exact .inl rfl
  · exact runWord_outputKept (s := { s with cmd := w }) h hm

/-- The host's own writes to an engine leave its mode and its output. -/
structure SameStream (g h : Engine) : Prop where
  mode : h.mode = g.mode
  out : h.out = g.out

theorem sameStream_setEng {s : State} {f : Idx} {g : Engine} (h : SameStream (s.eng f) g) (e : Idx) :
    SameStream (s.eng e) ((s.setEng f g).eng e) := by
  by_cases he : e = f
  · subst he
    rwa [State.eng_setEng_same]
  · rw [State.eng_setEng_ne _ _ he]
    exact ⟨rfl, rfl⟩

theorem sameStream_pushByte (f : Idx) (off : BitVec 12) (v : Word) (s : State) (e : Idx) :
    SameStream (s.eng e) ((pushByte f off v s).eng e) := by
  rcases pushByte_cases f off v s with h | ⟨h, -⟩ <;> rw [h]
  · exact ⟨rfl, rfl⟩
  · exact sameStream_setEng (g := { s.eng f with input := (s.eng f).input ++ [_] }) ⟨rfl, rfl⟩ e

theorem sameStream_controlInput (v : Word) (g : Engine) : SameStream g (controlInput v g) := by
  rw [controlInput_eq]
  exact ⟨rfl, rfl⟩

/-- A held command attempted again after the host's own write. -/
theorem reattempt_outputKept {s u t : State} {e : Idx} (hu : SameStream (s.eng e) (u.eng e))
    (h : reattempt u = .next t) (hm : (s.eng e).mode ≠ .enc) : OutputKept (s.eng e) (t.eng e) := by
  rw [OutputKept, ← hu.out]
  rw [← hu.mode] at hm
  cases hh : u.held with
  | none =>
    rw [reattempt_of_none hh] at h
    cases h
    exact .inl rfl
  | some l =>
    rw [reattempt_of_some hh] at h
    exact runWord_outputKept h hm

theorem writeReg_outputKept {r : Reg} {off : BitVec 12} {v : Word} {s t : State} {e : Idx}
    (h : writeReg r off v s = .next t) (hm : (s.eng e).mode ≠ .enc) : OutputKept (s.eng e) (t.eng e) := by
  unfold writeReg at h
  split at h
  case h_1 => exact issue_outputKept h hm
  case h_8 f => exact reattempt_outputKept (sameStream_pushByte f off v s e) h hm
  case h_9 f => exact reattempt_outputKept (sameStream_setEng (sameStream_controlInput v _) e) h hm
  all_goals cases h
  case h_7 f => exact .inl (sameStream_setEng (g := { s.eng f with outIdx := v }) ⟨rfl, rfl⟩ e).out
  all_goals exact .inl rfl

theorem hostWrite_outputKept {off : BitVec 12} {width : Width} {v : Word} {s t : State} {e : Idx}
    (h : hostWrite off width v s = .next t) (hm : (s.eng e).mode ≠ .enc) : OutputKept (s.eng e) (t.eng e) := by
  unfold hostWrite at h
  split at h
  · split at h
    · exact writeReg_outputKept h hm
    · cases h
      exact .inl rfl
  · cases h
    exact .inl rfl

theorem eng_hostRead (off : BitVec 12) (width : Width) (s : State) (e : Idx) :
    (hostRead off width s).eng e = s.eng e := by
  unfold hostRead
  split <;> rfl

theorem perform_outputKept {a : Access} {s t : State} {e : Idx} (ha : a ≠ .reset) (h : perform a s = .next t)
    (hm : (s.eng e).mode ≠ .enc) : OutputKept (s.eng e) (t.eng e) := by
  cases a with
  | reset => exact absurd rfl ha
  | read addr width =>
    simp only [perform] at h
    split at h <;> cases h
    · exact .inl (congrArg Engine.out (eng_hostRead ..))
    · exact .inl rfl
  | write addr width v =>
    simp only [perform] at h
    split at h
    · exact hostWrite_outputKept h hm
    · cases h
      exact .inl rfl

/-- Settles O48: an idle step leaves everything, and every access but reset keeps the output. -/
theorem finishedOutputIsFinal : Obligations.FinishedOutputIsFinal := by
  intro s t e h hm
  unfold step at h
  split at h
  · cases h
    exact .inl rfl
  · rename_i a rest hp
    by_cases ha : a = .reset
    · subst ha
      exact .inr (.inl (by rw [hp]; rfl))
    · have kept : OutputKept (s.eng e) (t.eng e) := perform_outputKept (s := { s with pending := rest }) ha h hm
      exact kept.imp_right .inr

end Sys2Proof.Machine
end

