-- ==== Sys2Proof/Proofs/Following.lean ====
section
/-! Two attempts side by side: the first does as the second unless it stops for one given reason that the second cannot
have. An encoder with a bounded buffer does as one with room until `OUT_OVERFLOW` (20_memory.md R103), and a decoder as
one whose input is marked as ended until it holds (R87). Also: when the checks of each coding command pass. -/

namespace Sys2Proof.Machine

/-! ### Attempts side by side -/

/-- Attempt `a` stops with `y`, or ends as `b` does: both complete, with results related by `R`, or both stop for the
same reason. -/
def FollowsUnless {α β : Type} (y : Stop) (R : α → β → Prop) (a : Attempt α) (b : Attempt β) : Prop :=
  a = .error y ∨ (∃ x z, a = .ok x ∧ b = .ok z ∧ R x z) ∨ ∃ w, a = .error w ∧ b = .error w

section
variable {α β α' β' : Type} {y : Stop} {R : α → β → Prop} {R' : α' → β' → Prop}

theorem FollowsUnless.stopped {b : Attempt β} : FollowsUnless y R (.error y) b := .inl rfl

theorem FollowsUnless.both_ok {x : α} {z : β} (h : R x z) : FollowsUnless y R (.ok x) (.ok z) :=
  .inr (.inl ⟨x, z, rfl, rfl, h⟩)

theorem FollowsUnless.both_error (w : Stop) : FollowsUnless y R (.error w) (.error w) :=
  .inr (.inr ⟨w, rfl, rfl⟩)

theorem FollowsUnless.bind {a : Attempt α} {b : Attempt β} {k : α → Attempt α'} {l : β → Attempt β'}
    (h : FollowsUnless y R a b) (hk : ∀ x z, R x z → FollowsUnless y R' (k x) (l z)) :
    FollowsUnless y R' (a >>= k) (b >>= l) := by
  rcases h with rfl | ⟨x, z, rfl, rfl, hR⟩ | ⟨w, rfl, rfl⟩
  · exact .stopped
  · exact hk x z hR
  · exact .both_error w

/-- Where the second attempt completes with what no result of the first is related to, the first stops with `y`. -/
theorem FollowsUnless.eq_stop {a : Attempt α} {b : Attempt β} {z : β} (h : FollowsUnless y R a b) (hb : b = .ok z)
    (hz : ∀ x, ¬ R x z) : a = .error y := by
  rcases h with h | ⟨x, z', -, hz', hR⟩ | ⟨w, -, hw⟩
  · exact h
  · cases hb.symm.trans hz'
    exact absurd hR (hz x)
  · cases hb.symm.trans hw

end

/-- Results that carry the same value and related states. -/
def SameAnd {α σ τ : Type} (R : σ → τ → Prop) (x : α × σ) (z : α × τ) : Prop := x.1 = z.1 ∧ R x.2 z.2

/-! ### Symbols, one after the other -/

/-- Decoding a symbol of engine `e` through context `c` follows between states related by `R`. -/
def DecodingFollows (c e : Idx) (y : Stop) (R : State → State → Prop) : Prop :=
  ∀ σ s t, R s t → FollowsUnless y (SameAnd R) (decodeSymbol c e σ s) (decodeSymbol c e σ t)

section
variable {c e : Idx} {y : Stop} {R : State → State → Prop}

theorem encodeAll_follows
    (h : ∀ σ k s t, R s t → FollowsUnless y R (encodeSymbol c e σ k s) (encodeSymbol c e σ k t))
    (syms : List (Slot × Byte)) {s t : State} (hR : R s t) :
    FollowsUnless y R (encodeAll c e syms s) (encodeAll c e syms t) := by
  induction syms generalizing s t with
  | nil => exact .both_ok hR
  | cons x rest ih => exact (h x.1 x.2 s t hR).bind fun _ _ hR' => ih hR'

theorem decodeHalf_follows (h : DecodingFollows c e y R) (on : Bool) (σ : Slot) (basis last : Byte) {s t : State}
    (hR : R s t) :
    FollowsUnless y (SameAnd R) (decodeHalf c e on σ basis last s) (decodeHalf c e on σ basis last t) := by
  cases on with
  | false => exact .both_ok ⟨rfl, hR⟩
  | true =>
    refine (h σ s t hR).bind ?_
    rintro ⟨k, s'⟩ ⟨_, t'⟩ ⟨rfl, hR'⟩
    exact .both_ok ⟨rfl, hR'⟩

theorem decodeChroma_follows (h : DecodingFollows c e y R) (pr : Profile) (m : Byte) (l : Rgb) (r : Half)
    {s t : State} (hR : R s t) :
    FollowsUnless y (SameAnd R) (decodeChroma c e pr m l r s) (decodeChroma c e pr m l r t) := by
  cases pr with
  | doc | laszip =>
    refine (decodeHalf_follows h _ _ _ _ hR).bind ?_
    rintro ⟨k1, s1⟩ ⟨_, t1⟩ ⟨rfl, h1⟩
    refine (decodeHalf_follows h _ _ _ _ h1).bind ?_
    rintro ⟨k2, s2⟩ ⟨_, t2⟩ ⟨rfl, h2⟩
    refine (decodeHalf_follows h _ _ _ _ h2).bind ?_
    rintro ⟨k3, s3⟩ ⟨_, t3⟩ ⟨rfl, h3⟩
    refine (decodeHalf_follows h _ _ _ _ h3).bind ?_
    rintro ⟨k4, s4⟩ ⟨_, t4⟩ ⟨rfl, h4⟩
    exact .both_ok ⟨rfl, h4⟩

theorem decodeRgb_follows (h : DecodingFollows c e y R) (pr : Profile) (l : Rgb) {s t : State} (hR : R s t) :
    FollowsUnless y (SameAnd (SameAnd R)) (decodeRgb c e pr l s) (decodeRgb c e pr l t) := by
  refine (h 0 s t hR).bind ?_
  rintro ⟨m, s1⟩ ⟨_, t1⟩ ⟨rfl, h1⟩
  refine (decodeHalf_follows h _ _ _ _ h1).bind ?_
  rintro ⟨rl, s2⟩ ⟨_, t2⟩ ⟨rfl, h2⟩
  refine (decodeHalf_follows h _ _ _ _ h2).bind ?_
  rintro ⟨rh, s3⟩ ⟨_, t3⟩ ⟨rfl, h3⟩
  dsimp only
  split
  · refine (decodeChroma_follows h _ _ _ _ h3).bind ?_
    rintro ⟨p, s4⟩ ⟨_, t4⟩ ⟨rfl, h4⟩
    exact .both_ok ⟨rfl, rfl, h4⟩
  · exact .both_ok ⟨rfl, rfl, h3⟩

theorem decodeNir_follows (h : DecodingFollows c e y R) (l : Half) {s t : State} (hR : R s t) :
    FollowsUnless y (SameAnd (SameAnd R)) (decodeNir c e l s) (decodeNir c e l t) := by
  refine (h 7 s t hR).bind ?_
  rintro ⟨m, s1⟩ ⟨_, t1⟩ ⟨rfl, h1⟩
  refine (decodeHalf_follows h _ _ _ _ h1).bind ?_
  rintro ⟨vl, s2⟩ ⟨_, t2⟩ ⟨rfl, h2⟩
  refine (decodeHalf_follows h _ _ _ _ h2).bind ?_
  rintro ⟨vh, s3⟩ ⟨_, t3⟩ ⟨rfl, h3⟩
  exact .both_ok ⟨rfl, rfl, h3⟩

end

/-! ### Commands whose checks pass -/

/-- The index of a slot names that slot. -/
theorem slotNamed_ofNat (σ : Slot) : slotNamed (BitVec.ofNat 4 σ.val) = σ := by
  revert σ
  decide

theorem hasSlot_ofNat {b : Build} {c : Idx} {σ : Slot} (h : σ.val < slotCount (b.kind c)) :
    b.hasSlot c (BitVec.ofNat 4 σ.val) = true := by
  have hσ : (BitVec.ofNat 4 σ.val).toNat = σ.val := by simp; omega
  rw [← slotOf_isSome_eq_hasSlot, slotOf_eq_some.mpr ⟨hσ, h⟩]
  rfl

section
variable {s : State} {c e : Idx}

theorem firstError_encDone (he : s.build.hasEng e = true) (hm : (s.eng e).mode = .enc) :
    firstError (.encDone e) s = none :=
  firstError_eq_none.mpr ⟨he, rfl, rfl, by simp [namesWrongMode, engineOf, needsMode, hm], rfl⟩

/-- A command on a context and an engine, of either kind: what is left to check is the command's own. -/
theorem firstError_coding {i : Instr} {m : Mode} (hi : i.wellFormed s.build = true) (hci : contextOf i = some c)
    (hei : engineOf i = some e) (hmi : needsMode i = some m) (hx : (s.ctx c).phase ≠ .uninit)
    (hm : (s.eng e).mode = m) (hk : needsNir i = true → s.build.kind c = .colorNir)
    (hs : symbolOutside s.build.profile i = false) : firstError i s = none := by
  refine firstError_eq_none.mpr ⟨hi, ?_, by simp [namesUninit, hci, hx], by simp [namesWrongMode, hei, hmi, hm], hs⟩
  cases hn : needsNir i with
  | false => rfl
  | true => simp [namesColor, hci, hk hn]

theorem firstError_writeRgb (hc : s.build.hasCtx c = true) (he : s.build.hasEng e = true)
    (hx : (s.ctx c).phase ≠ .uninit) (hm : (s.eng e).mode = .enc) : firstError (.writeRgb c e) s = none :=
  firstError_coding (by simp [Instr.wellFormed, hc, he]) rfl rfl rfl hx hm (fun h => nomatch h) rfl

theorem firstError_readRgb (hc : s.build.hasCtx c = true) (he : s.build.hasEng e = true)
    (hx : (s.ctx c).phase ≠ .uninit) (hm : (s.eng e).mode = .dec) : firstError (.readRgb c e) s = none :=
  firstError_coding (by simp [Instr.wellFormed, hc, he]) rfl rfl rfl hx hm (fun h => nomatch h) rfl

theorem firstError_writeNir (hc : s.build.hasCtx c = true) (he : s.build.hasEng e = true)
    (hk : s.build.kind c = .colorNir) (hx : (s.ctx c).phase ≠ .uninit) (hm : (s.eng e).mode = .enc) :
    firstError (.writeNir c e) s = none :=
  firstError_coding (by simp [Instr.wellFormed, hc, he]) rfl rfl rfl hx hm (fun _ => hk) rfl

theorem firstError_readNir (hc : s.build.hasCtx c = true) (he : s.build.hasEng e = true)
    (hk : s.build.kind c = .colorNir) (hx : (s.ctx c).phase ≠ .uninit) (hm : (s.eng e).mode = .dec) :
    firstError (.readNir c e) s = none :=
  firstError_coding (by simp [Instr.wellFormed, hc, he]) rfl rfl rfl hx hm (fun _ => hk) rfl

theorem firstError_encSymbol {σ : Slot} {k : Byte} (hc : s.build.hasCtx c = true) (he : s.build.hasEng e = true)
    (hσ : σ.val < slotCount (s.build.kind c)) (hx : (s.ctx c).phase ≠ .uninit) (hm : (s.eng e).mode = .enc)
    (hk : k.toNat < slotSyms s.build.profile σ) :
    firstError (.encSymbol c (BitVec.ofNat 4 σ.val) e k) s = none := by
  have hslot := hasSlot_ofNat hσ
  have hsym := symbolOutside_encSymbol hslot s.build.profile e k
  rw [slotNamed_ofNat, decide_eq_true hk, Bool.not_eq_true'] at hsym
  exact firstError_coding (by simp [Instr.wellFormed, hc, he, hslot]) rfl rfl rfl hx hm (fun h => nomatch h) hsym

theorem firstError_decSymbol {σ : Slot} (hc : s.build.hasCtx c = true) (he : s.build.hasEng e = true)
    (hσ : σ.val < slotCount (s.build.kind c)) (hx : (s.ctx c).phase ≠ .uninit) (hm : (s.eng e).mode = .dec) :
    firstError (.decSymbol c (BitVec.ofNat 4 σ.val) e) s = none :=
  firstError_coding (by simp [Instr.wellFormed, hc, he, hasSlot_ofNat hσ]) rfl rfl rfl hx hm (fun h => nomatch h) rfl

end

/-- A command whose checks pass and whose work stops ends as that stop says. -/
theorem exec_of_work_error {i : Instr} {s : State} {y : Stop} (hc : firstError i s = none)
    (hw : work i s = .error y) : exec i s = finish s (.error y) := by
  rw [exec_eq_finish_attempt, attempt_of_checked hc, hw]

end Sys2Proof.Machine
end

