-- ==== Sys2Proof/Proofs/Overflow.lean ====
section
/-! Encoding into a bounded buffer (20_memory.md R103, 60_exceptions.md R305). A symbol does with the buffer as it does
with an unbounded one, unless a byte finds no room; and `ENC_DONE` appends four bytes or overflows. -/

namespace Sys2Proof.Machine

/-! ### A bounded engine beside an unbounded one -/

/-- The two engines are one, and its output fits the capacity. -/
def SameFitting (cap : Option Nat) (g h : Engine) : Prop := h = g ∧ g.Fits cap

theorem streamAppend_follows (cap : Option Nat) (b : Byte) (g : Engine) :
    FollowsUnless (.error .outOverflow) (SameFitting cap) (streamAppend cap b g) (streamAppend none b g) := by
  rcases streamAppend_cases cap b g with ⟨hc, hlt⟩ | ⟨hc, -⟩ <;> rw [hc]
  · exact .both_ok ⟨rfl, fun n hn => by simpa using hlt n hn⟩
  · exact .stopped

theorem renormEncLoop_follows (cap : Option Nat) (fuel : Nat) (g : Engine) :
    FollowsUnless (.error .outOverflow) (SameFitting cap) (renormEncLoop cap fuel g)
      (renormEncLoop none fuel g) := by
  induction fuel generalizing g with
  | zero => exact .both_error _
  | succ fuel ih =>
    refine (streamAppend_follows cap _ g).bind ?_
    rintro h _ ⟨rfl, hfits⟩
    dsimp only
    split
    · exact ih _
    · exact .both_ok ⟨rfl, hfits⟩

theorem renormEncIfLow_follows {cap : Option Nat} {g : Engine} (hfits : g.Fits cap) :
    FollowsUnless (.error .outOverflow) (SameFitting cap) (renormEncIfLow cap g) (renormEncIfLow none g) := by
  unfold renormEncIfLow
  split
  · exact renormEncLoop_follows cap _ g
  · exact .both_ok ⟨rfl, hfits⟩

/-- A carry changes no length, and has one way to fail. -/
theorem carryIfWrapped_cases (b0 : Word) (g : Engine) :
    (∃ a, carryIfWrapped b0 g = .ok a ∧ a.out.length = g.out.length)
    ∨ carryIfWrapped b0 g = .error (.error .internalCarry) := by
  unfold carryIfWrapped
  split
  · rcases streamCarry_cases g with ⟨bs, hc, hlen⟩ | ⟨hc, -⟩
    · exact .inl ⟨_, hc, hlen⟩
    · exact .inr hc
  · exact .inl ⟨g, rfl, rfl⟩

theorem encodeWith_follows {cap : Option Nat} {g : Engine} (hfits : g.Fits cap) (n k : Nat) (m : Model) :
    FollowsUnless (.error .outOverflow) (fun x z => z = x ∧ x.1.Fits cap) (encodeWith cap n k g m)
      (encodeWith none n k g m) := by
  unfold encodeWith
  dsimp only
  rcases carryIfWrapped_cases g.base { g with
      base := g.base + m.distAt k * quotLength g
      length := narrowLength n m k g (m.distAt k * quotLength g) } with ⟨a, hc, hlen⟩ | hc <;> rw [hc]
  · have ha : a.Fits cap := fun c hcap => hlen.le.trans (hfits c hcap)
    refine (renormEncIfLow_follows ha).bind ?_
    rintro h _ ⟨rfl, hh⟩
    exact .both_ok ⟨rfl, hh⟩
  · exact .both_error _

/-! ### A bounded machine beside an unbounded one -/

@[simp] theorem State.outCapOf_unbounded (s : State) (e : Idx) : s.unbounded.build.outCapOf e = none := by
  simp [State.unbounded, Build.outCapOf]

/-- `t` is `s` but for unbounded output buffers, and the output of engine `e` fits the capacity it has in `s`. -/
structure FreeTwin (e : Idx) (cap : Option Nat) (s t : State) : Prop where
  twin : t = s.unbounded
  capacity : s.build.outCapOf e = cap
  fits : (s.eng e).Fits cap

theorem encodeSymbol_follows {c e : Idx} {cap : Option Nat} (σ : Slot) (k : Byte) (s t : State)
    (h : FreeTwin e cap s t) :
    FollowsUnless (.error .outOverflow) (FreeTwin e cap) (encodeSymbol c e σ k s) (encodeSymbol c e σ k t) := by
  obtain ⟨rfl, hcap, hfits⟩ := h
  unfold encodeSymbol
  rw [State.outCapOf_unbounded, hcap]
  refine (encodeWith_follows hfits _ _ _).bind ?_
  rintro ⟨g, m⟩ _ ⟨rfl, hg⟩
  exact .both_ok ⟨rfl, hcap, by simpa using hg⟩

/-- A state whose output is past the capacity has no twin that fits. -/
theorem FreeTwin.not_past {e : Idx} {n : Nat} {u : State} (h : n < (u.eng e).out.length) (s : State) :
    ¬ FreeTwin e (some n) s u := by
  rintro ⟨rfl, -, hfits⟩
  exact absurd (hfits n rfl) (Nat.not_le.mpr h)

theorem FreeTwin.start {s : State} {e : Idx} {n : Nat} (hcap : s.build.outCapOf e = some n)
    (hlen : (s.eng e).out.length ≤ n) : FreeTwin e (some n) s s.unbounded :=
  ⟨rfl, hcap, fun _ hm => by cases hm; exact hlen⟩

/-- Symbols that fill an unbounded buffer past the capacity overflow the bounded one. -/
theorem encodeAll_overflows {s u : State} {c e : Idx} {n : Nat} {syms : List (Slot × Byte)}
    (hcap : s.build.outCapOf e = some n) (hlen : (s.eng e).out.length ≤ n)
    (hu : encodeAll c e syms s.unbounded = .ok u) (hpast : n < (u.eng e).out.length) :
    encodeAll c e syms s = .error (.error .outOverflow) :=
  (encodeAll_follows encodeSymbol_follows syms (.start hcap hlen)).eq_stop hu (FreeTwin.not_past hpast)

/-! ### `ENC_DONE` -/

/-- A byte is appended and fits, or it overflows. -/
theorem streamAppend_fits (cap : Option Nat) (b : Byte) (g : Engine) :
    Meets (streamAppend cap b g) (fun h => h = { g with out := g.out ++ [b] } ∧ h.Fits cap)
      (· = .error .outOverflow) := by
  rcases streamAppend_cases cap b g with ⟨hc, hlt⟩ | ⟨hc, -⟩ <;> rw [hc]
  · exact ⟨rfl, fun n hn => by simpa using hlt n hn⟩
  · rfl

theorem le_mul_pow_byte (w r : Nat) : w ≤ w * 256 ^ r := Nat.le_mul_of_pos_right w (Nat.pow_pos (by decide))

/-- A renormalisation that needs `r + 1` rounds appends as many bytes, or overflows. -/
theorem renormEncLoop_appends {cap : Option Nat} {r fuel : Nat} {g : Engine} (hr : r < fuel)
    (hlow : g.length.toNat * 256 ^ r < 2 ^ 24) (hge : 2 ^ 24 ≤ g.length.toNat * 256 ^ (r + 1)) :
    Meets (renormEncLoop cap fuel g) (fun h => h.out.length = g.out.length + (r + 1) ∧ h.Fits cap)
      (· = .error .outOverflow) := by
  induction fuel generalizing r g with
  | zero => omega
  | succ fuel ih =>
    have hlen : (g.length <<< 8).toNat = g.length.toNat * 256 := by
      have := le_mul_pow_byte g.length.toNat r
      rw [BitVec.toNat_shiftLeft, Nat.shiftLeft_eq]
      omega
    have hshift (j : Nat) : (g.length <<< 8).toNat * 256 ^ j = g.length.toNat * 256 ^ (j + 1) := by
      rw [hlen, Nat.pow_succ', Nat.mul_assoc]
    refine (streamAppend_fits cap (topByte g.base) g).bind fun a ⟨ha, hfits⟩ => ?_
    subst ha
    dsimp only
    cases r with
    | zero =>
      rw [if_neg (BitVec.not_lt.mpr (hge.trans_eq hlen.symm))]
      exact ⟨by simp, hfits⟩
    | succ r =>
      have hlow' : g.length <<< 8 < acMinLength :=
        Nat.lt_of_le_of_lt (le_mul_pow_byte _ r) ((hshift r).trans_lt hlow)
      rw [if_pos hlow']
      refine (ih (r := r) (Nat.lt_of_succ_lt_succ hr) (by rwa [hshift]) (by rwa [hshift])).mono ?_
      rintro h ⟨hout, hh⟩
      refine ⟨?_, hh⟩
      rw [hout, List.length_append, List.length_singleton]
      omega

theorem appendZeros_appends {cap : Option Nat} {z : Nat} {g : Engine} (hfits : g.Fits cap) :
    Meets (appendZeros cap z g) (fun h => h.out.length = g.out.length + z ∧ h.Fits cap)
      (· = .error .outOverflow) := by
  induction z generalizing g with
  | zero => exact ⟨rfl, hfits⟩
  | succ z ih =>
    refine (streamAppend_fits cap 0 g).bind fun a ⟨ha, hfits'⟩ => (ih hfits').mono ?_
    subst ha
    rintro h ⟨hout, hh⟩
    refine ⟨?_, hh⟩
    rw [hout, List.length_append, List.length_singleton]
    omega

/-- The bytes of the last renormalisation and the zeros after it are four in all (41_coder.md R183). -/
theorem flush_rounds (g : Engine) : ∃ r, r < renormRounds ∧ r + 1 + flushZeros g = 4
    ∧ (flushNarrow g).length.toNat * 256 ^ r < 2 ^ 24 ∧ 2 ^ 24 ≤ (flushNarrow g).length.toNat * 256 ^ (r + 1) := by
  unfold flushZeros flushNarrow
  split
  · exact ⟨0, by decide, rfl, by simp [acMinLength], by simp [acMinLength]⟩
  · exact ⟨1, by decide, rfl, by simp [acMinLength], by simp [acMinLength]⟩

/-- On a sound encoder the carry of the last narrowing completes. -/
theorem flush_carry (g : Engine) (h : g.EncOk) : ∃ a, carryIfWrapped g.base (flushNarrow g) = .ok a
    ∧ a.length = (flushNarrow g).length ∧ a.out.length = g.out.length := by
  obtain ⟨x, w, heq, hin, hw, -⟩ := flushNarrow_eq g h.lengthGe
  have carried := carryIfWrapped_meets h.room (by omega) hin
  rw [heq]
  rcases carryIfWrapped_cases g.base { g with base := g.base + x, length := w } with ⟨a, hc, -⟩ | hc
  · obtain ⟨hlen, hout, -⟩ := carried.of_ok hc
    exact ⟨a, hc, hlen, hout⟩
  · exact absurd rfl (carried.of_error hc).noCarryOut

theorem flushWith_appends (cap : Option Nat) {g : Engine} (h : g.EncOk) :
    Meets (flushWith cap g) (fun h => h.out.length = g.out.length + 4 ∧ h.Fits cap)
      (· = .error .outOverflow) := by
  obtain ⟨a, hc, hlen, hout⟩ := flush_carry g h
  obtain ⟨r, hr, hsum, hlow, hge⟩ := flush_rounds g
  rw [← hlen] at hlow hge
  unfold flushWith
  rw [hc]
  refine (renormEncLoop_appends (cap := cap) hr hlow hge).bind fun b ⟨hb, hfits⟩ => ?_
  refine (appendZeros_appends hfits).bind fun z ⟨hz, hz'⟩ => ?_
  exact ⟨by rw [hz, hb, hout]; omega, hz'⟩

/-- Four bytes that do not fit overflow. -/
theorem flushWith_overflows {g : Engine} {n : Nat} (h : g.EncOk) (hn : n < g.out.length + 4) :
    flushWith (some n) g = .error (.error .outOverflow) := by
  have flushed := flushWith_appends (some n) h
  cases hf : flushWith (some n) g with
  | ok h' =>
    obtain ⟨hlen, hfits⟩ := flushed.of_ok hf
    have := hfits n rfl
    omega
  | error y => rw [flushed.of_error hf]

/-! ### The commands -/

/-- A command whose checks pass and whose work overflows records that and nothing else. -/
theorem exec_overflows {i : Instr} {s : State} (hc : firstError i s = none)
    (hw : work i s = .error (.error .outOverflow)) : exec i s = .next (errorState .outOverflow s) :=
  (exec_of_work_error hc hw).trans (finish_error s _)

/-- Settles O22: each command's work is its bytes first, and they overflow. -/
theorem encDoneWithoutRoomOverflows : Obligations.EncDoneWithoutRoomOverflows := by
  refine ⟨fun s e n he hm henc hcap hn => ?_, fun s u c e σ k n hc he hσ hx hm hk hcap hlen hu hpast => ?_,
    fun s u c e n hc he hx hm hcap hlen hu hpast => ?_, fun s u c e n hc he hkind hx hm hcap hlen hu hpast => ?_⟩
  · refine exec_overflows (firstError_encDone he hm) ?_
    rw [work, hcap, flushWith_overflows henc hn]
    rfl
  · refine exec_overflows (firstError_encSymbol hc he hσ hx hm hk) ?_
    rw [work, slotNamed_ofNat]
    exact (encodeSymbol_follows σ k _ _ (.start hcap hlen)).eq_stop hu (FreeTwin.not_past hpast)
  · refine exec_overflows (firstError_writeRgb hc he hx hm) ?_
    rw [work, encodeAll_overflows hcap hlen hu hpast]
    rfl
  · refine exec_overflows (firstError_writeNir hc he hkind hx hm) ?_
    rw [work, encodeAll_overflows hcap hlen hu hpast]
    rfl

end Sys2Proof.Machine
end

