-- ==== Sys2Proof/Proofs/Holding.lean ====
section
/-! Decoding without a byte (20_memory.md R87, 41_coder.md R188, 42_color_context.md R226, 43_nir_context.md R256). A
decoder whose input's end is unmarked does as it would with the end marked, unless it holds; and the end marked, it
would underrun, so it holds. -/

namespace Sys2Proof.Machine

/-! ### An engine beside itself with its input's end marked -/

/-- `h` is `g` with its input's end marked and nothing yet missed; in `g` the end is unmarked. -/
structure EndMarked (g h : Engine) : Prop where
  marked : h = { g with eos := true, underrun := false }
  unmarked : g.eos = false

theorem streamRead_follows (e : Idx) {g h : Engine} (hR : EndMarked g h) :
    FollowsUnless .hold (SameAnd EndMarked) (streamRead e g) (streamRead e h) := by
  obtain ⟨rfl, heos⟩ := hR
  rcases streamRead_cases e g with ⟨hlt, hc⟩ | ⟨-, hmarked, -⟩ | ⟨-, -, hc⟩
  · have hc' : streamRead e { g with eos := true, underrun := false } = .ok (g.input.getD g.inPtr.toNat 0,
        { g with eos := true, underrun := false, inPtr := g.inPtr + 1 }) := if_pos hlt
    rw [hc, hc']
    exact .both_ok ⟨rfl, rfl, heos⟩
  · rw [heos] at hmarked
    cases hmarked
  · rw [hc]
    exact .stopped

theorem renormDecLoop_follows (e : Idx) (fuel : Nat) {g h : Engine} (hR : EndMarked g h) :
    FollowsUnless .hold EndMarked (renormDecLoop e fuel g) (renormDecLoop e fuel h) := by
  induction fuel generalizing g h with
  | zero => exact .both_error _
  | succ fuel ih =>
    refine (streamRead_follows e hR).bind ?_
    rintro ⟨b, g'⟩ ⟨_, _⟩ ⟨rfl, rfl, heos⟩
    dsimp only
    split
    · exact ih ⟨rfl, heos⟩
    · exact .both_ok ⟨rfl, heos⟩

theorem renormDecIfLow_follows (e : Idx) {g h : Engine} (hR : EndMarked g h) :
    FollowsUnless .hold EndMarked (renormDecIfLow e g) (renormDecIfLow e h) := by
  have hlength : h.length = g.length := by rw [hR.marked]
  unfold renormDecIfLow
  rw [hlength]
  split
  · exact renormDecLoop_follows e _ hR
  · exact .both_ok hR

/-- The engine narrowed to the symbol that `DecodeSymbol` finds (41_coder.md R188). -/
def narrowed (n : Nat) (m : Model) (g : Engine) : Engine :=
  let k := findSymbol m (quotLength g) g.value (n - 1)
  { g with
    value := g.value - m.distAt k * quotLength g
    length := narrowLength n m k g (m.distAt k * quotLength g) }

/-- `DecodeSymbol` narrows, renormalises and adapts. -/
theorem decodeWith_eq (e : Idx) (n : Nat) (g : Engine) (m : Model) :
    decodeWith e n g m = (renormDecIfLow e (narrowed n m g) >>= fun g' =>
      let k := findSymbol m (quotLength g) g.value (n - 1)
      .ok (BitVec.ofNat 8 k, g', Model.adapt n m k)) := rfl

theorem EndMarked.narrowed {g h : Engine} (hR : EndMarked g h) (n : Nat) (m : Model) :
    EndMarked (narrowed n m g) (narrowed n m h) := by
  obtain ⟨rfl, heos⟩ := hR
  exact ⟨rfl, heos⟩

theorem decodeWith_follows (e : Idx) (n : Nat) (m : Model) {g h : Engine} (hR : EndMarked g h) :
    FollowsUnless .hold (fun x z => x.1 = z.1 ∧ EndMarked x.2.1 z.2.1 ∧ x.2.2 = z.2.2) (decodeWith e n g m)
      (decodeWith e n h m) := by
  rw [decodeWith_eq, decodeWith_eq]
  refine (renormDecIfLow_follows e (hR.narrowed n m)).bind fun _ _ hR' => ?_
  obtain ⟨rfl, -⟩ := hR
  exact .both_ok ⟨rfl, hR', rfl⟩

/-! ### A machine beside itself with the end of one input marked -/

/-- `t` is `s` with the end of engine `e`'s input marked, which in `s` it is not. -/
structure MarkedTwin (e : Idx) (s t : State) : Prop where
  twin : t = s.markedEnd e
  unmarked : (s.eng e).eos = false

theorem State.setEng_setEng (s : State) (e : Idx) (g h : Engine) : (s.setEng e g).setEng e h = s.setEng e h := by
  simp [State.setEng]

theorem decodeSymbol_follows (c e : Idx) : DecodingFollows c e .hold (MarkedTwin e) := by
  rintro σ s _ ⟨rfl, heos⟩
  have hR : EndMarked (s.eng e) ((s.markedEnd e).eng e) := ⟨State.eng_setEng_same .., heos⟩
  refine (decodeWith_follows e _ (s.model c σ) hR).bind ?_
  rintro ⟨k, g, m⟩ ⟨_, _, _⟩ ⟨rfl, ⟨rfl, hg⟩, rfl⟩
  refine .both_ok ⟨rfl, ?_, by simpa using hg⟩
  dsimp only
  rw [State.markedEnd, State.markedEnd, State.setEng_setEng, State.eng_setModel, State.eng_setEng_same]
  exact congrArg (State.setModel · c σ m) (State.setEng_setEng ..).symm

/-- A state whose engine has missed a byte is no such twin. -/
theorem MarkedTwin.not_underrun {e : Idx} {u : State} (h : (u.eng e).underrun = true) (s : State) :
    ¬ MarkedTwin e s u := by
  rintro ⟨rfl, -⟩
  simp [State.markedEnd] at h

/-! ### `DEC_SYMBOL` that renormalises -/

theorem decodeWith_of_renorm_error {e : Idx} {n : Nat} {g : Engine} {m : Model} {y : Stop}
    (hlow : (narrowed n m g).length < acMinLength) (h : renormDec e (narrowed n m g) = .error y) :
    decodeWith e n g m = .error y := by
  have hstop : renormDecIfLow e (narrowed n m g) = .error y := (if_pos hlow).trans h
  rw [decodeWith_eq, hstop]
  rfl

theorem decodeSymbol_of_error {c e : Idx} {σ : Slot} {s : State} {y : Stop}
    (h : decodeWith e (slotSyms s.build.profile σ) (s.eng e) (s.model c σ) = .error y) :
    decodeSymbol c e σ s = .error y := by
  rw [decodeSymbol, h]
  rfl

/-- The first round finds no byte. -/
theorem renormDecLoop_of_empty (e : Idx) {fuel : Nat} {g : Engine} (h : g.input.length ≤ g.inPtr.toNat)
    (heos : g.eos = false) : renormDecLoop e (fuel + 1) g = .error .hold := by
  rw [renormDecLoop, streamRead_of_empty h heos]
  rfl

/-- The first round finds at most one byte, and the second none. -/
theorem renormDecLoop_of_one (e : Idx) {fuel : Nat} {g : Engine} (h : g.input.length ≤ g.inPtr.toNat + 1)
    (hshort : g.input.length < 2 ^ 32) (heos : g.eos = false) (hlow : g.length.toNat * 256 < acMinLength.toNat) :
    renormDecLoop e (fuel + 2) g = .error .hold := by
  rcases streamRead_cases e g with ⟨hlt, hc⟩ | ⟨-, hmarked, -⟩ | ⟨hle, -, -⟩
  · have hptr : (g.inPtr + 1).toNat = g.inPtr.toNat + 1 := by
      rw [BitVec.toNat_add]
      exact Nat.mod_eq_of_lt (Nat.lt_of_le_of_lt hlt hshort)
    have hlow' : g.length <<< 8 < acMinLength := by
      rw [BitVec.lt_def, BitVec.toNat_shiftLeft, Nat.shiftLeft_eq]
      exact Nat.lt_of_le_of_lt (Nat.mod_le _ _) hlow
    rw [renormDecLoop, hc]
    simp only [attempt_ok_bind, hlow', if_true]
    exact renormDecLoop_of_empty e (by simpa only [hptr] using h) heos
  · rw [heos] at hmarked
    cases hmarked
  · exact renormDecLoop_of_empty e hle heos

/-! ### The commands -/

/-- A command whose checks pass and whose work holds makes no write but the latch. -/
theorem exec_holds {i : Instr} {s : State} (hc : firstError i s = none) (hw : work i s = .error .hold) :
    exec i s = .next { s with held := some (latchOf s) } :=
  (exec_of_work_error hc hw).trans (finish_hold s)

theorem work_decSymbol_of_error {c e : Idx} {σ : Slot} {s : State} {y : Stop}
    (h : decodeSymbol c e σ s = .error y) : work (.decSymbol c (BitVec.ofNat 4 σ.val) e) s = .error y := by
  rw [work, slotNamed_ofNat, h]
  rfl

/-- Settles O26: a renormalisation that runs out of bytes, then each command beside itself with the end marked. -/
theorem decSymbolWithoutInputHolds : Obligations.DecSymbolWithoutInputHolds := by
  refine ⟨fun s c e σ k hc he hσ hx hm hk hlow hlen heos => ?_,
    fun s c e σ k hc he hσ hx hm hk hlow hlen hshort heos => ?_,
    fun s u c e σ k hc he hσ hx hm heos hu hunder => ?_,
    fun s u c e m p hc he hx hm heos hu hunder => ?_,
    fun s u c e m v hc he hkind hx hm heos hu hunder => ?_⟩
  · subst hk
    refine exec_holds (firstError_decSymbol hc he hσ hx hm) (work_decSymbol_of_error (decodeSymbol_of_error ?_))
    exact decodeWith_of_renorm_error hlow (renormDecLoop_of_empty e hlen heos)
  · subst hk
    refine exec_holds (firstError_decSymbol hc he hσ hx hm) (work_decSymbol_of_error (decodeSymbol_of_error ?_))
    have hlow' := Nat.lt_of_le_of_lt (Nat.le_mul_of_pos_right _ (by decide)) hlow
    exact decodeWith_of_renorm_error hlow' (renormDecLoop_of_one e hlen hshort heos hlow)
  · refine exec_holds (firstError_decSymbol hc he hσ hx hm) (work_decSymbol_of_error ?_)
    exact (decodeSymbol_follows c e σ s _ ⟨rfl, heos⟩).eq_stop hu fun x hR => MarkedTwin.not_underrun hunder _ hR.2
  · refine exec_holds (firstError_readRgb hc he hx hm) ?_
    have hold := (decodeRgb_follows (decodeSymbol_follows c e) s.build.profile (s.lastRgb c) ⟨rfl, heos⟩).eq_stop hu
      fun x hR => MarkedTwin.not_underrun hunder _ hR.2.2
    rw [work, hold]
    rfl
  · refine exec_holds (firstError_readNir hc he hkind hx hm) ?_
    have hold := (decodeNir_follows (decodeSymbol_follows c e) (s.ctx c).lastN ⟨rfl, heos⟩).eq_stop hu
      fun x hR => MarkedTwin.not_underrun hunder _ hR.2.2
    rw [work, hold]
    rfl

end Sys2Proof.Machine
end

