-- ==== Sys2Proof/Proofs/Encoding.lean ====
section
/-! The command word (30_encoding.md R110 to R116). A word whose opcode is that of a command `i` decodes to `i` with
the operands the word holds (`Instr.withOperandsOf`), if it spells the opcode under its mask; and the encoder writes
the match of the opcode with exactly those operand bits. Hence decoding and encoding are inverse to each other. -/

namespace Sys2Proof

/-! ### The fields of a word -/

section
variable (op : BitVec 8) (c e s : Idx) (k : Byte)

/-- The bits above the opcode, as a word of their own. -/
theorem extractLsb'_pack_above_op (start len : Nat) :
    (pack op c e s k).extractLsb' (8 + start) len = (0#4 ++ k ++ s ++ e ++ c).extractLsb' start len :=
  (BitVec.extractLsb'_append_eq_of_le (by omega)).trans (by rw [Nat.add_sub_cancel_left])

@[simp] theorem fieldOp_pack : fieldOp (pack op c e s k) = op :=
  BitVec.extractLsb'_append_eq_right

@[simp] theorem fieldCtx_pack : fieldCtx (pack op c e s k) = c :=
  (extractLsb'_pack_above_op op c e s k 0 4).trans BitVec.extractLsb'_append_eq_right

@[simp] theorem fieldEng_pack : fieldEng (pack op c e s k) = e :=
  (extractLsb'_pack_above_op op c e s k 4 4).trans <|
    (BitVec.extractLsb'_append_eq_of_le (by decide)).trans BitVec.extractLsb'_append_eq_right

@[simp] theorem fieldSlot_pack : fieldSlot (pack op c e s k) = s :=
  (extractLsb'_pack_above_op op c e s k 8 4).trans <|
    (BitVec.extractLsb'_append_eq_of_le (by decide)).trans <|
    (BitVec.extractLsb'_append_eq_of_le (by decide)).trans BitVec.extractLsb'_append_eq_right

@[simp] theorem fieldSym_pack : fieldSym (pack op c e s k) = k :=
  (extractLsb'_pack_above_op op c e s k 12 8).trans <|
    (BitVec.extractLsb'_append_eq_of_le (by decide)).trans <|
    (BitVec.extractLsb'_append_eq_of_le (by decide)).trans <|
    (BitVec.extractLsb'_append_eq_of_le (by decide)).trans BitVec.extractLsb'_append_eq_right

/-- An opcode put under operands. -/
theorem opcode_or_operands : pack op 0 0 0 0 ||| pack 0 c e s k = pack op c e s k :=
  BitVec.or_append.trans (congrArg₂ (· ++ ·) BitVec.zero_or BitVec.or_zero)

end

/-- A word is its five fields under its four reserved bits. -/
theorem fields_append (w : Word) :
    w.extractLsb' 28 4 ++ fieldSym w ++ fieldSlot w ++ fieldEng w ++ fieldCtx w ++ fieldOp w = w := by
  unfold fieldSym fieldSlot fieldEng fieldCtx fieldOp
  rw [BitVec.extractLsb'_append_extractLsb'_eq_extractLsb' (by rfl),
    BitVec.extractLsb'_append_extractLsb'_eq_extractLsb' (by rfl),
    BitVec.extractLsb'_append_extractLsb'_eq_extractLsb' (by rfl),
    BitVec.extractLsb'_append_extractLsb'_eq_extractLsb' (by rfl),
    BitVec.extractLsb'_append_extractLsb'_eq_extractLsb' (by rfl)]
  simp

/-- A mask selects from each field of a word. -/
theorem and_pack (w : Word) (op : BitVec 8) (c e s : Idx) (k : Byte) :
    w &&& pack op c e s k
      = pack (op &&& fieldOp w) (c &&& fieldCtx w) (e &&& fieldEng w) (s &&& fieldSlot w) (k &&& fieldSym w) := by
  have hfields := Laws.EncodeFitsRow.pack_and op (fieldOp w) c e s (fieldCtx w) (fieldEng w) (fieldSlot w) k
    (fieldSym w) (w.extractLsb' 28 4)
  rwa [fields_append, BitVec.and_comm] at hfields

/-- A field that a command uses, or zero in its place (30_encoding.md R112). -/
def ifUsed {n : Nat} (used : Bool) (x : BitVec n) : BitVec n := bif used then x else 0#n

theorem ifUsed_allOnes_and {n : Nat} (used : Bool) (x : BitVec n) :
    ifUsed used (BitVec.allOnes n) &&& x = ifUsed used x := by
  cases used <;> simp [ifUsed]

/-- An opcode with the used fields of a word: the opcode, and of the word what a mask of the other bits leaves. -/
theorem pack_ifUsed (w : Word) (op : BitVec 8) (c e s k : Bool) :
    pack op (ifUsed c (fieldCtx w)) (ifUsed e (fieldEng w)) (ifUsed s (fieldSlot w)) (ifUsed k (fieldSym w))
      = pack op 0 0 0 0 ||| (w &&& ~~~(~~~pack 0#8 (ifUsed c (BitVec.allOnes 4)) (ifUsed e (BitVec.allOnes 4))
          (ifUsed s (BitVec.allOnes 4)) (ifUsed k (BitVec.allOnes 8)))) := by
  rw [BitVec.not_not, and_pack, BitVec.zero_and, ifUsed_allOnes_and, ifUsed_allOnes_and, ifUsed_allOnes_and,
    ifUsed_allOnes_and]
  exact (opcode_or_operands ..).symm

/-! ### The operands of a word -/

/-- The command of the opcode of `i` with the operands that stand in the fields of `w`. -/
def Instr.withOperandsOf (w : Word) : Instr → Instr
  | .nop => .nop
  | .encInit _ => .encInit (fieldEng w)
  | .encDone _ => .encDone (fieldEng w)
  | .decInit _ => .decInit (fieldEng w)
  | .decDone _ => .decDone (fieldEng w)
  | .initPoint _ => .initPoint (fieldCtx w)
  | .writeRgb _ _ => .writeRgb (fieldCtx w) (fieldEng w)
  | .readRgb _ _ => .readRgb (fieldCtx w) (fieldEng w)
  | .writeNir _ _ => .writeNir (fieldCtx w) (fieldEng w)
  | .readNir _ _ => .readNir (fieldCtx w) (fieldEng w)
  | .modelInit _ _ => .modelInit (fieldCtx w) (fieldSlot w)
  | .encSymbol _ _ _ _ => .encSymbol (fieldCtx w) (fieldSlot w) (fieldEng w) (fieldSym w)
  | .decSymbol _ _ _ => .decSymbol (fieldCtx w) (fieldSlot w) (fieldEng w)

@[simp] theorem rowOf_withOperandsOf (w : Word) (i : Instr) : rowOf (i.withOperandsOf w) = rowOf i := by
  cases i <;> rfl

@[simp] theorem fieldOp_encode_withOperandsOf (w : Word) (i : Instr) :
    fieldOp (encode (i.withOperandsOf w)) = fieldOp (encode i) := by
  cases i <;> simp [encode, Instr.withOperandsOf]

/-- The word of a command holds the command's own operands. -/
@[simp] theorem withOperandsOf_encode (i : Instr) : i.withOperandsOf (encode i) = i := by
  cases i <;> simp [encode, Instr.withOperandsOf]

/-- The word of an opcode with the operands of `w`: the opcode's match, and of `w` what the mask leaves free. -/
theorem encode_withOperandsOf (w : Word) (i : Instr) :
    encode (i.withOperandsOf w) = (rowOf i).1 ||| (w &&& ~~~(rowOf i).2) := by
  cases i with
  | nop => exact pack_ifUsed w 0x00 false false false false
  | encInit => exact pack_ifUsed w 0x01 false true false false
  | encDone => exact pack_ifUsed w 0x02 false true false false
  | decInit => exact pack_ifUsed w 0x03 false true false false
  | decDone => exact pack_ifUsed w 0x04 false true false false
  | initPoint => exact pack_ifUsed w 0x10 true false false false
  | writeRgb => exact pack_ifUsed w 0x11 true true false false
  | readRgb => exact pack_ifUsed w 0x12 true true false false
  | writeNir => exact pack_ifUsed w 0x13 true true false false
  | readNir => exact pack_ifUsed w 0x14 true true false false
  | modelInit => exact pack_ifUsed w 0x20 true false true false
  | encSymbol => exact pack_ifUsed w 0x21 true true true true
  | decSymbol => exact pack_ifUsed w 0x22 true true true false

/-! ### Words that spell an opcode -/

/-- Every command's word spells its opcode. -/
theorem encode_fits_row (i : Instr) : encode i &&& (rowOf i).2 = (rowOf i).1 := by
  cases i with
  | nop => exact Laws.EncodeFitsRow.nop
  | encInit e => exact Laws.EncodeFitsRow.encInit e
  | encDone e => exact Laws.EncodeFitsRow.encDone e
  | decInit e => exact Laws.EncodeFitsRow.decInit e
  | decDone e => exact Laws.EncodeFitsRow.decDone e
  | initPoint c => exact Laws.EncodeFitsRow.initPoint c
  | writeRgb c e => exact Laws.EncodeFitsRow.writeRgb c e
  | readRgb c e => exact Laws.EncodeFitsRow.readRgb c e
  | writeNir c e => exact Laws.EncodeFitsRow.writeNir c e
  | readNir c e => exact Laws.EncodeFitsRow.readNir c e
  | modelInit c s => exact Laws.EncodeFitsRow.modelInit c s
  | encSymbol c s e k => exact Laws.EncodeFitsRow.encSymbol c s e k
  | decSymbol c s e => exact Laws.EncodeFitsRow.decSymbol c s e

/-- A word spells an opcode iff it is the word of that opcode with its own operands. -/
theorem spells_iff_encode (w : Word) (i : Instr) :
    w &&& (rowOf i).2 = (rowOf i).1 ↔ encode (i.withOperandsOf w) = w := by
  constructor
  · intro h
    rw [encode_withOperandsOf, ← h, ← BitVec.and_or_distrib_left, BitVec.or_not_self, BitVec.and_allOnes]
  · intro h
    have hfits := encode_fits_row (i.withOperandsOf w)
    rwa [h, rowOf_withOperandsOf] at hfits

theorem fieldOp_of_spells {w : Word} {i : Instr} (h : w &&& (rowOf i).2 = (rowOf i).1) :
    fieldOp w = fieldOp (encode i) := by
  rw [← fieldOp_encode_withOperandsOf w i, (spells_iff_encode w i).mp h]

/-! ### The decoder -/

/-- A word with the opcode of `i` is held against that opcode's row. -/
theorem decode_of_opcode {w : Word} {i : Instr} (h : fieldOp w = fieldOp (encode i)) :
    decode w = decodeChecked w (rowOf i).2 (rowOf i).1 (i.withOperandsOf w) := by
  unfold decode
  rw [h]
  cases i <;> rw [encode, fieldOp_pack] <;> rfl

theorem decode_of_spells {w : Word} {i : Instr} (h : w &&& (rowOf i).2 = (rowOf i).1) :
    decode w = .ok (i.withOperandsOf w) :=
  (decode_of_opcode (fieldOp_of_spells h)).trans (if_pos h)

theorem decode_of_not_spells {w : Word} {i : Instr} (hop : fieldOp w = fieldOp (encode i))
    (h : w &&& (rowOf i).2 ≠ (rowOf i).1) : decode w = .error .reservedField :=
  (decode_of_opcode hop).trans (if_neg h)

/-- The opcodes of the commands (30_encoding.md R114). -/
def assignedOpcodes : List Nat :=
  [0x00, 0x01, 0x02, 0x03, 0x04, 0x10, 0x11, 0x12, 0x13, 0x14, 0x20, 0x21, 0x22]

/-- The assigned opcodes are those of the commands' words. -/
theorem mem_assignedOpcodes_iff (w : Word) :
    (fieldOp w).toNat ∈ assignedOpcodes ↔ ∃ i, fieldOp w = fieldOp (encode i) := by
  constructor
  · intro h
    have command : ∀ n ∈ assignedOpcodes, ∃ i, n = (fieldOp (encode i)).toNat := by
      simp only [assignedOpcodes, List.forall_mem_cons, List.not_mem_nil, false_implies, implies_true, and_true]
      exact ⟨⟨.nop, rfl⟩, ⟨.encInit 0, rfl⟩, ⟨.encDone 0, rfl⟩, ⟨.decInit 0, rfl⟩, ⟨.decDone 0, rfl⟩,
        ⟨.initPoint 0, rfl⟩, ⟨.writeRgb 0 0, rfl⟩, ⟨.readRgb 0 0, rfl⟩, ⟨.writeNir 0 0, rfl⟩, ⟨.readNir 0 0, rfl⟩,
        ⟨.modelInit 0 0, rfl⟩, ⟨.encSymbol 0 0 0 0, rfl⟩, ⟨.decSymbol 0 0 0, rfl⟩⟩
    obtain ⟨i, hi⟩ := command _ h
    exact ⟨i, BitVec.eq_of_toNat_eq hi⟩
  · rintro ⟨i, hi⟩
    rw [hi]
    cases i <;> rw [encode, fieldOp_pack] <;> decide

theorem decode_of_unassigned {w : Word} (h : (fieldOp w).toNat ∉ assignedOpcodes) :
    decode w = .error .illegalOp := by
  unfold decode
  split
  case h_14 => rfl
  all_goals
    rename_i hop
    rw [hop] at h
    exact absurd (by decide) h

/-- Everything the decoder can do with a word (30_encoding.md R116 steps 1 and 2). -/
theorem decode_cases (w : Word) :
    ((fieldOp w).toNat ∉ assignedOpcodes ∧ decode w = .error .illegalOp)
    ∨ (∃ i, decode w = .error .reservedField ∧ fieldOp w = fieldOp (encode i) ∧ w &&& (rowOf i).2 ≠ (rowOf i).1)
    ∨ ∃ i, decode w = .ok i ∧ encode i = w := by
  by_cases hop : (fieldOp w).toNat ∈ assignedOpcodes
  · obtain ⟨i, hi⟩ := (mem_assignedOpcodes_iff w).mp hop
    by_cases h : w &&& (rowOf i).2 = (rowOf i).1
    · exact .inr (.inr ⟨_, decode_of_spells h, (spells_iff_encode w i).mp h⟩)
    · exact .inr (.inl ⟨i, decode_of_not_spells hi h, hi, h⟩)
  · exact .inl ⟨hop, decode_of_unassigned hop⟩

/-- Decoding and encoding are inverse to each other. -/
theorem decode_eq_ok_iff {w : Word} {i : Instr} : decode w = .ok i ↔ encode i = w := by
  constructor
  · intro h
    rcases decode_cases w with ⟨-, hw⟩ | ⟨_, hw, -⟩ | ⟨j, hw, hj⟩ <;> rw [hw] at h <;> cases h
    exact hj
  · rintro rfl
    rw [decode_of_spells (encode_fits_row i), withOperandsOf_encode]

theorem decode_eq_illegalOp_iff (w : Word) :
    decode w = .error .illegalOp ↔ (fieldOp w).toNat ∉ assignedOpcodes := by
  refine ⟨fun h hop => ?_, decode_of_unassigned⟩
  rcases decode_cases w with ⟨hn, -⟩ | ⟨_, hw, -⟩ | ⟨_, hw, -⟩
  · exact hn hop
  · rw [hw] at h
    cases h
  · rw [hw] at h
    cases h

/-! ### The obligations -/

/-- Settles O1: the word of a command spells its opcode and holds its operands. -/
theorem decodeOfEncode : Obligations.DecodeOfEncode := fun _ => decode_eq_ok_iff.mpr rfl

/-- Settles O2: a word that spells an opcode is that opcode's match with the word's own operands. -/
theorem encodeOfDecode : Obligations.EncodeOfDecode := fun _ _ => decode_eq_ok_iff.mp

/-- Settles O3: a word that decodes is a command's word, which spells its opcode; a word that spells an opcode decodes
to it with the word's own operands. -/
theorem wordSpellsOpcodeUnderMask : Obligations.WordSpellsOpcodeUnderMask := by
  intro i w
  constructor
  · rintro ⟨j, hj, hrow⟩
    rw [← hrow, ← decode_eq_ok_iff.mp hj]
    exact encode_fits_row j
  · intro h
    exact ⟨i.withOperandsOf w, decode_of_spells h, rowOf_withOperandsOf w i⟩

/-- Settles O4: each word is what the encoder writes for its command. -/
theorem workedEncodingsDecode : Obligations.WorkedEncodingsDecode := by
  unfold Obligations.WorkedEncodingsDecode
  simp only [decode_eq_ok_iff]
  decide

end Sys2Proof

namespace Sys2Proof.Machine

/-- A word that does not decode, written to `CMD` while nothing is held, is latched, and its error recorded. -/
theorem issue_of_decode_error {s : State} {w : Word} {x : DecodeError} (hheld : s.held = none)
    (hx : decode w = .error x) : issue w s = .next (recordError (decodeErrCode x) w { s with cmd := w }) := by
  simp only [issue, hheld, runWord, hx, finish_error, errorState, commandWord]

/-- Settles O5: the decoder's two errors, and the `CMD` write that records one. -/
theorem undecodableWordsAreNamedErrors : Obligations.UndecodableWordsAreNamedErrors := by
  refine ⟨decode_eq_illegalOp_iff, fun _ _ => decode_of_not_spells, fun s w rest x hpending hheld hx => ?_⟩
  have hissue := issue_of_decode_error (s := { s with pending := rest }) hheld hx
  refine (step_writeReg (r := .cmd) hpending (by decide) rfl).trans (hissue.trans ?_)
  cases x <;> rfl

end Sys2Proof.Machine
end

