-- ==== Sys2Proof/Proofs/AdaptiveModel.lean ====
section
/-! The adaptive model and `MODEL_INIT` (40_model.md R141 to R146, R150). The update is read in integers for any counts
of a bounded sum, so that the uniform table of a fresh model is one case of it. -/

namespace Sys2Proof.Machine

/-! ### The rescaler -/

theorem toNat_halveCount_of_lt {c : Word} (h : c.toNat + 1 < 2 ^ 32) : ((c + 1) >>> 1).toNat = (c.toNat + 1) / 2 := by
  rw [BitVec.toNat_ushiftRight, BitVec.toNat_add, Nat.shiftRight_eq_div_pow]
  exact congrArg (· / 2 ^ 1) (Nat.mod_eq_of_lt h)

/-- The halved counts as integers (R145). -/
theorem map_toNat_halveCounts {cs : List Word} (h : countTotal cs + 1 < 2 ^ 32) :
    (halveCounts cs).map BitVec.toNat = cs.map fun x : Word => (x.toNat + 1) / 2 := by
  rw [halveCounts, List.map_map]
  refine List.map_congr_left fun c hc => toNat_halveCount_of_lt ?_
  have := toNat_le_countTotal hc
  omega

theorem countTotal_halveCounts_le {cs : List Word} (h : countTotal cs + 1 < 2 ^ 32) :
    countTotal (halveCounts cs) ≤ countTotal cs := by
  rw [countTotal, map_toNat_halveCounts h, countTotal]
  exact List.sum_le_sum fun c _ => by omega

/-- Up to `DM_MAX_COUNT` the rescaler leaves the model. -/
theorem Model.rescale_of_le {m : Model} (h : m.total.toNat ≤ 2 ^ 15) : m.rescale = m :=
  if_neg (BitVec.not_lt.mpr h)

/-- Above `DM_MAX_COUNT` the rescaler halves the counts and sums them anew. -/
theorem Model.rescale_of_gt {m : Model} (h : 2 ^ 15 < m.total.toNat) :
    m.rescale = { m with count := halveCounts m.count, total := sumCounts (halveCounts m.count) } :=
  if_pos h

/-! ### The update in integers -/

/-- An entry of the table (R144), where the total is the sum of the counts, whatever they are: the scale times a sum of
the first counts is at most `2^31`. -/
theorem Model.toNat_distAt_retable {n k : Nat} {m : Model} (htot : m.total.toNat = countTotal m.count)
    (hk : k < m.count.length) :
    ((Model.retable n m).distAt k).toNat = 2 ^ 31 / countTotal m.count * countTotal (m.count.take k) / 2 ^ 16 := by
  have htake := countTotal_take_le m.count k
  have hsum : (sumCounts (m.count.take k)).toNat = countTotal (m.count.take k) :=
    toNat_sumCounts (htake.trans_lt (htot ▸ m.total.isLt))
  have hscale : 2 ^ 31 / countTotal m.count * countTotal (m.count.take k) < 2 ^ 32 :=
    calc 2 ^ 31 / countTotal m.count * countTotal (m.count.take k)
      _ ≤ 2 ^ 31 / countTotal m.count * countTotal m.count := Nat.mul_le_mul_left _ htake
      _ ≤ 2 ^ 31 := Nat.div_mul_le_self _ _
      _ < 2 ^ 32 := by decide
  rw [Model.distAt, Model.retable_dist, cumulative_getD _ _ _ hk, BitVec.toNat_ushiftRight, BitVec.toNat_mul,
    BitVec.toNat_udiv, htot, zero_add, hsum, Nat.shiftRight_eq_div_pow]
  exact congrArg (· / 2 ^ 16) (Nat.mod_eq_of_lt hscale)

section
variable {m : Model}

/-- When an update begins, its total is the sum of the counts. -/
theorem Model.toNat_total_add_cycle (hb : countTotal m.count ≤ 2 ^ 20)
    (hsum : m.total.toNat + m.cycle.toNat = countTotal m.count) : (m.total + m.cycle).toNat = countTotal m.count := by
  rw [BitVec.toNat_add, hsum]
  omega

theorem Model.update_count_of_le (n : Nat) (hb : countTotal m.count ≤ 2 ^ 15)
    (hsum : m.total.toNat + m.cycle.toNat = countTotal m.count) : (Model.update n m).count = m.count := by
  have htot := Model.toNat_total_add_cycle (by omega) hsum
  rw [Model.update, Model.rescale_of_le (by simp only; omega), Model.retable_count]

theorem Model.update_count_of_gt (n : Nat) (hgt : 2 ^ 15 < countTotal m.count) (hb : countTotal m.count ≤ 2 ^ 20)
    (hsum : m.total.toNat + m.cycle.toNat = countTotal m.count) :
    (Model.update n m).count = halveCounts m.count := by
  have htot := Model.toNat_total_add_cycle hb hsum
  rw [Model.update, Model.rescale_of_gt (by simp only; omega), Model.retable_count]

/-- After an update the total is the sum of the counts, halved or not. -/
theorem Model.update_total (n : Nat) (hb : countTotal m.count ≤ 2 ^ 20)
    (hsum : m.total.toNat + m.cycle.toNat = countTotal m.count) :
    (Model.update n m).total.toNat = countTotal (Model.update n m).count := by
  have htot := Model.toNat_total_add_cycle hb hsum
  rcases Nat.lt_or_ge (2 ^ 15) (countTotal m.count) with hgt | hle
  · rw [Model.update_count_of_gt n hgt hb hsum, Model.update, Model.rescale_of_gt (by simp only; omega),
      Model.retable_total]
    exact toNat_sumCounts ((countTotal_halveCounts_le (cs := m.count) (by omega)).trans_lt (by omega))
  · rw [Model.update_count_of_le n hle hsum, Model.update, Model.rescale_of_le (by simp only; omega),
      Model.retable_total, htot]

theorem Model.toNat_distAt_update {k : Nat} (n : Nat) (hb : countTotal m.count ≤ 2 ^ 20)
    (hsum : m.total.toNat + m.cycle.toNat = countTotal m.count) (hk : k < m.count.length) :
    ((Model.update n m).distAt k).toNat
      = 2 ^ 31 / countTotal (Model.update n m).count * countTotal ((Model.update n m).count.take k) / 2 ^ 16 :=
  Model.toNat_distAt_retable (Model.update_total n hb hsum) (by simpa [Model.rescale_count_length] using hk)

theorem Model.toNat_cycle_update {n : Nat} (hn : n ≤ 256) (hc : m.cycle.toNat ≤ 2 ^ 20) :
    (Model.update n m).cycle.toNat = min (5 * m.cycle.toNat / 4) (8 * (n + 6)) := by
  rw [Model.update, Model.retable_cycle, Model.rescale_cycle]
  exact toNat_nextCycle hn hc

end

/-! ### The fresh model -/

/-- The model `ModelInit` updates (R141). -/
def Model.seed (n : Nat) : Model where
  count := List.replicate n 1
  dist := []
  total := 0
  cycle := BitVec.ofNat 32 n
  untilUpdate := 0

theorem Model.seed_sum {n : Nat} (hn : n ≤ 256) :
    (Model.seed n).total.toNat + (Model.seed n).cycle.toNat = countTotal (Model.seed n).count := by
  rw [Model.seed, countTotal_ones, BitVec.toNat_ofNat, Nat.mod_eq_of_lt (by omega)]
  exact Nat.zero_add n

theorem Model.fresh_count {n : Nat} (hn : n ≤ 256) : (Model.fresh n).count = List.replicate n 1 :=
  Model.update_count_of_le (m := Model.seed n) n ((countTotal_ones n).trans_le (by omega)) (Model.seed_sum hn)

theorem Model.fresh_countAt {n k : Nat} (hn : n ≤ 256) (hk : k < n) : (Model.fresh n).countAt k = 1 := by
  rw [Model.countAt, Model.fresh_count hn, List.getD_replicate _ hk]

/-- The table of a fresh model is uniform up to rounding (R142). -/
theorem Model.toNat_distAt_fresh {n k : Nat} (hn : n ≤ 256) (hk : k < n) :
    ((Model.fresh n).distAt k).toNat = 2 ^ 31 / n * k / 2 ^ 16 := by
  have hcount : (Model.update n (Model.seed n)).count = List.replicate n 1 := Model.fresh_count hn
  have hdist := Model.toNat_distAt_update (m := Model.seed n) (k := k) n ((countTotal_ones n).trans_le (by omega))
    (Model.seed_sum hn) (by rwa [Model.seed, List.length_replicate])
  rw [hcount, List.take_replicate, countTotal_ones, countTotal_ones, min_eq_left hk.le] at hdist
  exact hdist

/-! ### `MODEL_INIT` -/

theorem firstError_modelInit {s : State} {c : Idx} {σ : Slot} (hc : s.build.hasCtx c = true)
    (hσ : σ.val < slotCount (s.build.kind c)) (hx : (s.ctx c).phase ≠ .uninit) :
    firstError (.modelInit c (BitVec.ofNat 4 σ.val)) s = none :=
  firstError_eq_none.mpr ⟨by simp [Instr.wellFormed, hc, hasSlot_ofNat hσ], rfl,
    by simp [namesUninit, contextOf, hx], rfl, rfl⟩

/-- Where its checks pass and nothing is held, `MODEL_INIT` completes with one slot fresh (R150). -/
theorem exec_modelInit {s : State} {c : Idx} {σ : Slot} (hheld : s.held = none) (hc : s.build.hasCtx c = true)
    (hσ : σ.val < slotCount (s.build.kind c)) (hx : (s.ctx c).phase ≠ .uninit) :
    exec (.modelInit c (BitVec.ofNat 4 σ.val)) s
      = .next (s.setModel c σ (Model.fresh (slotSyms s.build.profile σ))) := by
  rw [exec_eq_finish_attempt, attempt_of_checked (firstError_modelInit hc hσ hx), work, slotNamed_ofNat, finish_ok]
  have hkeep {t : State} (ht : t.held = none) : { t with held := none } = t := by rw [← ht]
  exact congrArg Host.Outcome.next (hkeep hheld)

/-! ### The obligations -/

/-- Settles O11: the cycle is at most the sum of the counts, so no step of the update wraps. -/
theorem updateRecomputesTheTable : Obligations.UpdateRecomputesTheTable := by
  intro n m hn _ hb hsum
  refine ⟨fun hle => Model.update_count_of_le n hle hsum, fun hgt => ?_, Model.update_total n hb hsum,
    Model.update_dist_length n m, fun k hk => Model.toNat_distAt_update n hb hsum hk,
    Model.toNat_cycle_update hn (by omega), Model.update_untilUpdate n m⟩
  rw [Model.update_count_of_gt n hgt hb hsum, map_toNat_halveCounts (by omega)]

/-- Settles O12: counting moves one unit from the period to the counts, and an update bounds the counts again. -/
theorem adaptKeepsModelInvariant : Obligations.AdaptKeepsModelInvariant :=
  fun _ _ _ _ hn hk hm => hm.adapt hn hk

/-- Settles O9: the table is the update's of equal counts. -/
theorem freshModelIsUniform : Obligations.FreshModelIsUniform := by
  have count {n k : Nat} (hn : n ≤ 256) (hk : k < n) := Model.fresh_countAt hn hk
  have dist {n k : Nat} (hn : n ≤ 256) (hk : k < n) := Model.toNat_distAt_fresh hn hk
  refine ⟨fun k hk => ⟨count (by omega) hk, ?_⟩, fun k hk => ⟨count (by omega) hk, ?_⟩,
    fun k hk => ⟨count (by omega) hk, ?_⟩, rfl, rfl, rfl, rfl, rfl, rfl, rfl, rfl, rfl⟩
  all_goals rw [dist (by omega) hk]; omega

/-- Settles O10: the two cases of an adaptation exclude each other. -/
theorem adaptCountsTheSymbol : Obligations.AdaptCountsTheSymbol := by
  intro n m k
  rcases Model.adapt_cases n m k with ⟨hu, heq⟩ | ⟨hu, heq⟩
  · exact ⟨fun _ => heq, fun hend => absurd hend hu⟩
  · exact ⟨fun hbefore => absurd hu hbefore, fun _ => heq⟩

/-- Settles O13: `MODEL_INIT` is one write of a model slot. -/
theorem modelInitResetsOneSlot : Obligations.ModelInitResetsOneSlot := by
  intro s c σ hheld hc hσ hx
  refine ⟨_, exec_modelInit hheld hc hσ hx, State.model_setModel_same s c σ _,
    fun τ hτ => State.model_setModel_ne s _ hτ, ?_, fun c' hne => State.ctx_setModel_ne s σ _ hne, rfl⟩
  rw [State.ctx_setModel_same]
  rfl

end Sys2Proof.Machine
end

