-- ==== Sys2Proof/Proofs/LookupTable.lean ====
section
/-! The decoder look-up table (40_model.md R148) and the full search (41_coder.md R188) find the same symbol. Both look
for the last symbol whose start is at most `value / Lq` (`findSymbol_boundary`). The table divides the values into cells
of `2^shift`; entry `u` is the last symbol that starts in a cell before `u` (`LastBefore`), so the entries of a value's
cell and of the next one enclose the symbol, and the bisection ends at it. -/

namespace Sys2Proof.Machine

/-! ### The full search as a boundary of the table -/

theorem Model.Ok.distAt_mono {n i j : Nat} {m : Model} (h : m.Ok n) (hij : i ≤ j) (hj : j < n) :
    m.distAt i ≤ m.distAt j := by
  induction j, hij using Nat.le_induction with
  | base => exact BitVec.le_refl _
  | succ j _ ih => exact BitVec.le_trans (ih (by omega)) (BitVec.le_of_lt (h.distIncreasing j hj))

/-- A symbol's share starts at or below the value iff its table entry is at most the value's quotient. -/
theorem shareStart_le_iff {n j : Nat} {m : Model} {g : Engine} (hm : m.Ok n) (hj : j < n)
    (hg : acMinLength ≤ g.length) (v : Word) : m.distAt j * quotLength g ≤ v ↔ m.distAt j ≤ v / quotLength g := by
  have hmin : 2 ^ 24 ≤ g.length.toNat := hg
  have hq : 0 < (quotLength g).toNat := by
    rw [toNat_quotLength]
    omega
  rw [BitVec.le_def, BitVec.le_def, toNat_shareStart hm hj, BitVec.toNat_udiv, Nat.le_div_iff_mul_le hq]

/-- The symbols that start at or below the value are those up to the one the search finds (R188). -/
theorem findSymbol_boundary {n j : Nat} {m : Model} {g : Engine} (hm : m.Ok n) (hg : acMinLength ≤ g.length)
    (v : Word) (hj : j < n) :
    m.distAt j ≤ v / quotLength g ↔ j ≤ findSymbol m (quotLength g) v (n - 1) := by
  have hlast := findSymbol_le m (quotLength g) v (n - 1)
  rw [← shareStart_le_iff hm hj hg]
  constructor
  · intro hle
    by_contra hlater
    exact BitVec.not_le.mpr (findSymbol_later m _ v (n - 1) j (by omega) (by omega)) hle
  · intro hle
    rcases findSymbol_found m (quotLength g) v (n - 1) with hzero | hfound
    · rw [show j = 0 by omega, hm.distZero, zero_mul]
      exact BitVec.le_def.mpr (Nat.zero_le _)
    · rw [shareStart_le_iff hm (by omega) hg] at hfound ⊢
      exact BitVec.le_trans (hm.distAt_mono hle (by omega)) hfound

/-- Bisection ends at the boundary `b` when it starts with `b` in its range (R148). -/
theorem bisect_eq_boundary {n b : Nat} {m : Model} {dv : Word} (hb : ∀ j < n, m.distAt j ≤ dv ↔ j ≤ b)
    (fuel : Nat) {lo hi : Nat} (hlo : lo ≤ b) (hhi : b < hi) (hn : hi ≤ n) (hfuel : hi ≤ lo + fuel + 1) :
    bisect m dv fuel lo hi = b := by
  induction fuel generalizing lo hi with
  | zero =>
    rw [bisect]
    omega
  | succ fuel ih =>
    rw [bisect]
    split_ifs with hdone hmid
    · omega
    · exact ih ((hb _ (by omega)).mp hmid) hhi hn (by omega)
    · rw [hb _ (by omega), Nat.not_le] at hmid
      exact ih hlo hmid (by omega) (by omega)

/-! ### The table -/

/-- The cell a symbol's start lies in: `dist[i] >> shift`. -/
def Model.cell (n : Nat) (m : Model) (i : Nat) : Nat := (m.distAt i >>> lutShift n).toNat

theorem Model.Ok.cell_mono {n i j : Nat} {m : Model} (h : m.Ok n) (hij : i ≤ j) (hj : j < n) :
    m.cell n i ≤ m.cell n j := by
  rw [Model.cell, Model.cell, BitVec.toNat_ushiftRight, BitVec.toNat_ushiftRight, Nat.shiftRight_eq_div_pow,
    Nat.shiftRight_eq_div_pow]
  exact Nat.div_le_div_right (h.distAt_mono hij hj)

/-- `j` is the last symbol that starts in a cell before `u`, or symbol 0 if none does. -/
structure LastBefore (n : Nat) (m : Model) (u j : Nat) : Prop where
  inAlphabet : j < n
  before : j = 0 ∨ m.cell n j < u
  later : ∀ i, j < i → i < n → u ≤ m.cell n i

/-- A table that the first `k` symbols have filled: its entries are right and go past the cells of these symbols. -/
structure FilledTo (n : Nat) (m : Model) (k : Nat) (lut : List Nat) : Prop where
  nonempty : 0 < lut.length
  past : ∀ i < k, m.cell n i < lut.length
  entry : ∀ u < lut.length, LastBefore n m u (lut.getD u 0)

section
variable {n k : Nat} {m : Model} {lut : List Nat}

/-- New entries up to `top` with the last symbol before `k` are right, if no later symbol starts before cell `top`. -/
theorem FilledTo.entry_append (h : FilledTo n m k lut) (h1 : 1 ≤ n) (hk : k ≤ n) {top : Nat}
    (htop : ∀ i, k ≤ i → i < n → top ≤ m.cell n i) {u : Nat} (hu : u ≤ top ∨ u < lut.length) :
    LastBefore n m u ((lut ++ List.replicate (top - (lut.length - 1)) (k - 1)).getD u 0) := by
  rcases Nat.lt_or_ge u lut.length with hold | hnew
  · rw [List.getD_append _ _ _ _ hold]
    exact h.entry u hold
  · have := h.nonempty
    rw [List.getD_append_right _ _ _ _ hnew, List.getD_replicate _ (by omega)]
    refine ⟨by omega, ?_, fun i hlate hi => ?_⟩
    · rcases Nat.eq_zero_or_pos k with hzero | hpos
      · exact .inl (by omega)
      · exact .inr ((h.past (k - 1) (by omega)).trans_le hnew)
    · have := htop i (by omega) hi
      omega

/-- One round of the loop over `k` (R148). -/
theorem FilledTo.succ (h : FilledTo n m k lut) (hm : m.Ok n) (hk : k < n) :
    FilledTo n m (k + 1) (lut ++ List.replicate (m.cell n k - (lut.length - 1)) (k - 1)) := by
  have hlen : (lut ++ List.replicate (m.cell n k - (lut.length - 1)) (k - 1)).length
      = lut.length + (m.cell n k - (lut.length - 1)) := by
    rw [List.length_append, List.length_replicate]
  have hpos := h.nonempty
  refine ⟨by omega, fun i hi => ?_, fun u hu => ?_⟩
  · have := hm.cell_mono (Nat.le_of_lt_succ hi) hk
    omega
  · exact h.entry_append (by omega) hk.le (fun i hi hin => hm.cell_mono hi hin) (by omega)

/-- The whole loop: once `k` symbols have filled the table, the rest of `dist` fills it to the end. -/
theorem FilledTo.lutFill_rest (h : FilledTo n m k lut) (hm : m.Ok n) (hk : k ≤ n) :
    FilledTo n m n (lutFill (lutShift n) k (m.dist.drop k) lut) := by
  induction hk using Nat.decreasingInduction generalizing lut with
  | self =>
    rw [List.drop_eq_nil_of_le hm.distLength.le, lutFill]
    exact h
  | of_succ k hk ih =>
    have hlt : k < m.dist.length := hm.distLength.symm ▸ hk
    have hcell : (m.dist[k] >>> lutShift n).toNat = m.cell n k := by
      rw [Model.cell, Model.distAt, List.getD_eq_getElem _ _ hlt]
    rw [List.drop_eq_getElem_cons hlt, lutFill, hcell]
    exact ih (h.succ hm hk)

end

/-- Entry `u` of the table, up to `size + 1`, is the last symbol before cell `u` (R148). -/
theorem buildLut_entry {n u : Nat} {m : Model} (hm : m.Ok n) (h1 : 1 ≤ n) (hu : u ≤ lutSize n + 1) :
    LastBefore n m u ((buildLut n m).getD u 0) := by
  have hstart : FilledTo n m 0 [0] :=
    { nonempty := Nat.one_pos
      past := fun i hi => absurd hi (Nat.not_lt_zero i)
      entry := fun u hu => by
        obtain rfl : u = 0 := Nat.lt_one_iff.mp hu
        exact ⟨h1, .inl rfl, fun i _ _ => Nat.zero_le _⟩ }
  exact (hstart.lutFill_rest hm (Nat.zero_le n)).entry_append h1 (Nat.le_refl n) (fun i hi hin => absurd hin (by omega))
    (.inl hu)

/-! ### The search by the table -/

/-- If a value lies in cell `t` and `b` is its boundary, the entries of cells `t` and `t + 1` enclose `b`. -/
theorem LastBefore.enclose {n b lo hi : Nat} {m : Model} {dv : Word} (hb : ∀ j < n, m.distAt j ≤ dv ↔ j ≤ b)
    (hbn : b < n) (hlo : LastBefore n m (dv >>> lutShift n).toNat lo)
    (hhi : LastBefore n m ((dv >>> lutShift n).toNat + 1) hi) : lo ≤ b ∧ b ≤ hi := by
  have hcell (j : Nat) : m.cell n j = (m.distAt j).toNat / 2 ^ lutShift n := by
    rw [Model.cell, BitVec.toNat_ushiftRight, Nat.shiftRight_eq_div_pow]
  rw [BitVec.toNat_ushiftRight, Nat.shiftRight_eq_div_pow] at hlo hhi
  constructor
  · rcases hlo.before with hzero | hlt
    · omega
    · rw [hcell] at hlt
      exact (hb lo hlo.inAlphabet).mp (Nat.lt_of_div_lt_div hlt).le
  · by_contra hlate
    have hle := hhi.later b (by omega) hbn
    have hbdv : (m.distAt b).toNat ≤ dv.toNat := (hb b hbn).mpr (Nat.le_refl b)
    have := Nat.div_le_div_right (c := 2 ^ lutShift n) hbdv
    rw [hcell] at hle
    omega

/-- The accelerated search finds the symbol of the full search: within the table by bisection between two entries, and
beyond it by the full search itself. -/
theorem lutSearch_eq_findSymbol {n : Nat} {m : Model} {g : Engine} (hm : m.Ok n) (h1 : 1 ≤ n)
    (hg : acMinLength ≤ g.length) (v : Word) :
    lutSearch n m (quotLength g) v = findSymbol m (quotLength g) v (n - 1) := by
  have hlast := findSymbol_le m (quotLength g) v (n - 1)
  have hb (j : Nat) (hj : j < n) := findSymbol_boundary hm hg v hj
  rw [lutSearch]
  split_ifs with ht
  · have hlo := buildLut_entry hm h1 (Nat.le_succ_of_le ht)
    have hhi := buildLut_entry hm h1 (Nat.add_le_add_right ht 1)
    obtain ⟨hle, hge⟩ := LastBefore.enclose hb (by omega) hlo hhi
    have := hhi.inAlphabet
    exact bisect_eq_boundary hb n hle (Nat.lt_succ_of_le hge) this (by omega)
  · rfl

/-! ### The obligation -/

/-- Settles O14: a value at or above the length, which may lie beyond the table, is found by the full search, so the
bound on the value is not needed. -/
theorem lookupTableFindsTheSymbol : Obligations.LookupTableFindsTheSymbol :=
  fun _ _ g hn hm hg _ => lutSearch_eq_findSymbol hm (by omega) hg g.value

end Sys2Proof.Machine
end

