-- ==== Sys2Proof/Proofs/Narrowing.lean ====
section
/-! The interval a symbol narrows to (41_coder.md R181, R189), in integers: the shares of the symbols follow each other
without a gap, none is empty, and the search finds the symbol whose share holds the value. -/

namespace Sys2Proof.Machine

/-! ### The quotient -/

theorem toNat_acMinLength : acMinLength.toNat = 2 ^ 24 := rfl

theorem pow_nine_le_quotLength {g : Engine} (hg : acMinLength ≤ g.length) : 2 ^ 9 ≤ (quotLength g).toNat := by
  have hmin : 2 ^ 24 ≤ g.length.toNat := hg
  rw [toNat_quotLength]
  omega

theorem quotLength_le (g : Engine) : (quotLength g).toNat ≤ 0x1FFFF := by
  have hlen := g.length.isLt
  rw [toNat_quotLength]
  omega

theorem mul_quotLength_le (g : Engine) : 2 ^ 15 * (quotLength g).toNat ≤ g.length.toNat := by
  rw [toNat_quotLength]
  exact Nat.mul_div_le _ _

/-! ### The shares -/

section
variable {n k : Nat} {m : Model}

theorem Model.Ok.toNat_distAt_lt_succ (hm : m.Ok n) (hk : k + 1 < n) : (m.distAt k).toNat < (m.distAt (k + 1)).toNat :=
  hm.distIncreasing k hk

/-- The share of a symbol that is not the last ends where the next one starts. -/
theorem toNat_narrowLength_inner (hm : m.Ok n) (hk : k + 1 < n) (g : Engine) :
    (narrowLength n m k g (m.distAt k * quotLength g)).toNat
      = ((m.distAt (k + 1)).toNat - (m.distAt k).toNat) * (quotLength g).toNat := by
  have hstart := toNat_shareStart hm (Nat.lt_of_succ_lt hk) g
  have hnext := toNat_shareStart hm hk g
  have hle := Nat.mul_le_mul_right (quotLength g).toNat (hm.toNat_distAt_lt_succ hk).le
  rw [narrowLength, if_neg (by omega), BitVec.toNat_sub_of_le (by rwa [BitVec.le_def, hstart, hnext]), hstart, hnext,
    Nat.sub_mul]

/-- The share of the last symbol ends with the interval, so it also holds what the quotient rounds off. -/
theorem toNat_narrowLength_last (hm : m.Ok n) (hk : k + 1 = n) (g : Engine) :
    (narrowLength n m k g (m.distAt k * quotLength g)).toNat
      = (2 ^ 15 - (m.distAt k).toNat) * (quotLength g).toNat + (g.length.toNat - 2 ^ 15 * (quotLength g).toNat) := by
  have hstart := toNat_shareStart hm (by omega : k < n) g
  have hle := Nat.mul_le_mul_right (quotLength g).toNat (hm.distBelow k (by omega)).le
  have hlen := mul_quotLength_le g
  rw [narrowLength, if_pos (by omega), BitVec.toNat_sub_of_le (by rw [BitVec.le_def]; omega), hstart, Nat.sub_mul]
  omega

/-- Every share is at least one quotient wide. -/
theorem quotLength_le_narrowLength (hm : m.Ok n) (hk : k < n) (g : Engine) :
    (quotLength g).toNat ≤ (narrowLength n m k g (m.distAt k * quotLength g)).toNat := by
  rcases Nat.lt_or_ge (k + 1) n with hinner | hlast
  · rw [toNat_narrowLength_inner hm hinner]
    exact Nat.le_mul_of_pos_left _ (Nat.sub_pos_of_lt (hm.toNat_distAt_lt_succ hinner))
  · rw [toNat_narrowLength_last hm (by omega)]
    exact (Nat.le_mul_of_pos_left _ (Nat.sub_pos_of_lt (hm.distBelow k hk))).trans (Nat.le_add_right _ _)

/-! ### The search -/

/-- A value in the share of `k` is not below its start, and below the start of the next symbol. -/
theorem findSymbol_of_inShare {g : Engine} (hm : m.Ok n) (hk : k < n) (hg : acMinLength ≤ g.length)
    (hstart : m.distAt k * quotLength g ≤ g.value)
    (hwidth : (g.value - m.distAt k * quotLength g).toNat
      < (narrowLength n m k g (m.distAt k * quotLength g)).toNat) :
    findSymbol m (quotLength g) g.value (n - 1) = k := by
  have hlast := findSymbol_le m (quotLength g) g.value (n - 1)
  have hge : k ≤ findSymbol m (quotLength g) g.value (n - 1) := by
    rwa [← findSymbol_boundary hm hg g.value hk, ← shareStart_le_iff hm hk hg]
  refine le_antisymm (Nat.le_of_not_lt fun hlater => ?_) hge
  have hnext : k + 1 < n := by omega
  have hreach : m.distAt (k + 1) * quotLength g ≤ g.value := by
    rw [shareStart_le_iff hm hnext hg, findSymbol_boundary hm hg g.value hnext]
    exact hlater
  have hinc := Nat.mul_le_mul_right (quotLength g).toNat (hm.toNat_distAt_lt_succ hnext).le
  rw [BitVec.le_def, toNat_shareStart hm hnext] at hreach
  rw [BitVec.toNat_sub_of_le hstart, toNat_narrowLength_inner hm hnext, toNat_shareStart hm hk, Nat.sub_mul] at hwidth
  omega

end

/-! ### The obligations -/

/-- Settles O19: each clause is a bound on the quotient or the width of a share in integers. -/
theorem narrowingStaysNonEmpty : Obligations.NarrowingStaysNonEmpty := by
  intro n m g k _ hk hm hg
  refine ⟨pow_nine_le_quotLength hg, quotLength_le g, fun j hj => toNat_shareStart hm hj g,
    fun hinner => toNat_narrowLength_inner hm hinner g, fun hlast => toNat_narrowLength_last hm hlast g,
    quotLength_le_narrowLength hm hk g, ?_⟩
  have hwidth := (narrow_bounds hm hk hg).1
  rw [toNat_acMinLength]
  omega

/-- Settles O28: the value of the engine is one that the search takes. -/
theorem searchFindsTheEncodedSymbol : Obligations.SearchFindsTheEncodedSymbol :=
  fun _ _ _ _ _ hk hm hg hstart hwidth => findSymbol_of_inShare hm hk hg hstart hwidth

end Sys2Proof.Machine
end

