-- ==== Sys2Proof/Proofs/EncoderSteps.lean ====
section
/-! The encoder's commands (41_coder.md R172, R180 to R184). The bytes emitted and `base` stand for one number, the low
end. A narrowing adds to it, with its carry; a round of renormalisation scales it and the width by 256; so what a
symbol or the end of a stream makes of an encoder is arithmetic on the low end and the width. -/

namespace Sys2Proof.Machine

/-! ### Numbers of byte sequences -/

theorem bytesValue_append_list (xs ys : List Byte) :
    bytesValue (xs ++ ys) = bytesValue xs * 256 ^ ys.length + bytesValue ys := by
  induction ys using List.reverseRecOn with
  | nil => simp [bytesValue]
  | append_singleton ys y ih =>
    rw [← List.append_assoc, bytesValue_append, bytesValue_append, ih, List.length_append, List.length_singleton]
    ring

/-- `i + j` bytes as the first `i` and the next `j`. -/
theorem bytesValue_take_add {bs : List Byte} {i j : Nat} (h : i + j ≤ bs.length) :
    bytesValue (bs.take (i + j)) = bytesValue (bs.take i) * 256 ^ j + bytesValue ((bs.drop i).take j)
    ∧ bytesValue ((bs.drop i).take j) < 256 ^ j := by
  have hlen : ((bs.drop i).take j).length = j := by
    rw [List.length_take, List.length_drop]
    omega
  have hlt := bytesValue_lt ((bs.drop i).take j)
  rw [hlen] at hlt
  rw [List.take_add, bytesValue_append_list, hlen]
  exact ⟨rfl, hlt⟩

theorem bytesValue_zeros (z : Nat) : bytesValue (List.replicate z 0) = 0 := by
  induction z with
  | zero => rfl
  | succ z ih => rw [List.replicate_succ', bytesValue_append, ih]; rfl

/-- The low end holds `base` in its last 32 bits. -/
theorem Engine.base_eq_ofNat_lowEnd (g : Engine) : g.base = BitVec.ofNat 32 g.lowEnd := by
  have hbase := g.base.isLt
  apply BitVec.eq_of_toNat_eq
  rw [BitVec.toNat_ofNat, Engine.lowEnd]
  omega

theorem ofNat_mul_pow_byte (v r : Nat) : BitVec.ofNat 32 (v * 256 ^ r) = BitVec.ofNat 32 v <<< (8 * r) := by
  apply BitVec.eq_of_toNat_eq
  rw [BitVec.toNat_shiftLeft, BitVec.toNat_ofNat, BitVec.toNat_ofNat, Nat.shiftLeft_eq, Nat.mod_mul_mod, Nat.pow_mul]

/-- The bytes emitted are the low end without its last 32 bits. -/
theorem Engine.bytesValue_out (g : Engine) : bytesValue g.out = g.lowEnd / 2 ^ 32 := by
  have hbase := g.base.isLt
  rw [Engine.lowEnd]
  omega

/-! ### Rounds of renormalisation -/

/-- A renormalisation of width `w` takes `r` rounds: the least number that brings it to `AC_MIN_LENGTH`, never more
than two (41_coder.md R181, R182). -/
structure Rounds (w r : Nat) : Prop where
  few : r ≤ 2
  enough : 2 ^ 24 ≤ w * 256 ^ r
  least : r ≠ 0 → w * 256 ^ (r - 1) < 2 ^ 24

theorem exists_rounds {w : Nat} (hw : 2 ^ 9 ≤ w) : ∃ r, Rounds w r := by
  rcases Nat.lt_or_ge w (2 ^ 16) with h16 | h16
  · exact ⟨2, ⟨by omega, by omega, by omega⟩⟩
  · rcases Nat.lt_or_ge w (2 ^ 24) with h24 | h24
    · exact ⟨1, ⟨by omega, by omega, by omega⟩⟩
    · exact ⟨0, ⟨by omega, by omega, by omega⟩⟩

/-- No round is made above `AC_MIN_LENGTH`. -/
theorem Rounds.not_low {g : Engine} (h : Rounds g.length.toNat 0) : ¬ g.length < acMinLength := by
  have henough : 2 ^ 24 ≤ g.length.toNat * 256 ^ 0 := h.enough
  rw [BitVec.lt_def, toNat_acMinLength]
  omega

/-- Before each round the length is low, so that shifting it loses nothing. -/
theorem Rounds.low {g : Engine} {r : Nat} (h : Rounds g.length.toNat (r + 1)) : g.length < acMinLength :=
  Nat.lt_of_le_of_lt (le_mul_pow_byte _ r) (h.least (Nat.succ_ne_zero r))

theorem Rounds.shift {w r : Nat} (h : Rounds w (r + 1)) : Rounds (w * 256) r where
  few := by have := h.few; omega
  enough := h.enough.trans_eq (by ring)
  least := fun hr => by
    obtain ⟨j, rfl⟩ := Nat.exists_eq_succ_of_ne_zero hr
    have hleast : w * 256 ^ (j + 1) < 2 ^ 24 := h.least (Nat.succ_ne_zero _)
    exact lt_of_eq_of_lt (by rw [Nat.succ_sub_one, Nat.pow_succ]; ring) hleast

theorem toNat_length_shift {g : Engine} (hlow : g.length < acMinLength) :
    (g.length <<< 8).toNat = g.length.toNat * 256 := by
  have hlow' : g.length.toNat < 2 ^ 24 := hlow
  rw [BitVec.toNat_shiftLeft, Nat.shiftLeft_eq]
  omega

/-! ### Renormalising an encoder -/

/-- `h` is encoder `g` after `r` rounds (41_coder.md R182): `r` bytes of the low end moved to the output. -/
structure ScaledTo (g : Engine) (r : Nat) (h : Engine) : Prop where
  onlyCoder : EncoderFrame g h
  outLength : h.out.length = g.out.length + r
  lowEnd : h.lowEnd = g.lowEnd * 256 ^ r
  width : h.length.toNat = g.length.toNat * 256 ^ r

theorem ScaledTo.refl (g : Engine) : ScaledTo g 0 g := ⟨rfl, rfl, (Nat.mul_one _).symm, (Nat.mul_one _).symm⟩

theorem ScaledTo.trans {g h k : Engine} {q r : Nat} (a : ScaledTo g q h) (b : ScaledTo h r k) :
    ScaledTo g (q + r) k where
  onlyCoder := a.onlyCoder.trans b.onlyCoder
  outLength := by rw [b.outLength, a.outLength, Nat.add_assoc]
  lowEnd := by rw [b.lowEnd, a.lowEnd, Nat.mul_assoc, Nat.pow_add]
  width := by rw [b.width, a.width, Nat.mul_assoc, Nat.pow_add]

/-- The engine after one round: the top byte of `base` appended, `base` and `length` shifted. -/
def shiftOut (g : Engine) : Engine :=
  { g with out := g.out ++ [topByte g.base], base := g.base <<< 8, length := g.length <<< 8 }

theorem scaledTo_shiftOut {g : Engine} (hlow : g.length < acMinLength) : ScaledTo g 1 (shiftOut g) where
  onlyCoder := rfl
  outLength := List.length_append
  lowEnd := by
    have hb := g.base.isLt
    have hsplit : (topByte g.base).toNat * 2 ^ 32 + (g.base <<< 8).toNat = 256 * g.base.toNat := by
      rw [topByte, BitVec.extractLsb'_toNat, Nat.shiftRight_eq_div_pow, BitVec.toNat_shiftLeft, Nat.shiftLeft_eq]
      omega
    simp only [Engine.lowEnd, shiftOut, bytesValue_append]
    linarith
  width := toNat_length_shift hlow

theorem Engine.HasRoom.mono {g : Engine} {cap : Option Nat} {i j : Nat} (h : g.HasRoom cap j) (hij : i ≤ j) :
    g.HasRoom cap i := fun m hm => (Nat.add_le_add_left hij _).trans (h m hm)

/-- Room depends on the length of the output only. -/
theorem Engine.HasRoom.of_outLength {g h : Engine} {cap : Option Nat} {i j : Nat} (hg : g.HasRoom cap j)
    (hlen : h.out.length + i ≤ g.out.length + j) : h.HasRoom cap i := fun m hm => hlen.trans (hg m hm)

theorem streamAppend_of_hasRoom {g : Engine} {cap : Option Nat} {i : Nat} (h : g.HasRoom cap (i + 1)) (b : Byte) :
    streamAppend cap b g = .ok { g with out := g.out ++ [b] } := by
  rcases streamAppend_cases cap b g with ⟨hc, -⟩ | ⟨-, n, hn, hfull⟩
  · exact hc
  · have := h n hn
    omega

/-- With room for them, the rounds of a renormalisation complete. -/
theorem renormEncLoop_scales {cap : Option Nat} {r fuel : Nat} {g : Engine} (hfuel : r < fuel)
    (hr : Rounds g.length.toNat (r + 1)) (hroom : g.HasRoom cap (r + 1)) :
    ∃ h, renormEncLoop cap fuel g = .ok h ∧ ScaledTo g (r + 1) h := by
  induction fuel generalizing r g with
  | zero => omega
  | succ fuel ih =>
    have hround := scaledTo_shiftOut hr.low
    have hnext : Rounds (shiftOut g).length.toNat r := by
      rw [hround.width]
      exact hr.shift
    rw [renormEncLoop, streamAppend_of_hasRoom hroom, attempt_ok_bind]
    change ∃ h, (if (shiftOut g).length < acMinLength then renormEncLoop cap fuel (shiftOut g)
      else .ok (shiftOut g)) = .ok h ∧ _
    cases r with
    | zero => exact ⟨_, if_neg hnext.not_low, hround⟩
    | succ r =>
      obtain ⟨h, hh, hscaled⟩ := ih (Nat.lt_of_succ_lt_succ hfuel) hnext
        (hroom.of_outLength (by rw [hround.outLength]; omega))
      rw [if_pos hnext.low]
      exact ⟨h, hh, (Nat.add_comm _ _) ▸ hround.trans hscaled⟩

theorem renormEncIfLow_scales {cap : Option Nat} {r : Nat} {g : Engine} (hr : Rounds g.length.toNat r)
    (hroom : g.HasRoom cap r) : ∃ h, renormEncIfLow cap g = .ok h ∧ ScaledTo g r h := by
  cases r with
  | zero => exact ⟨g, if_neg hr.not_low, .refl g⟩
  | succ r =>
    have hfuel : r < renormRounds := by have := hr.few; rw [renormRounds]; omega
    rw [renormEncIfLow, if_pos hr.low]
    exact renormEncLoop_scales hfuel hr hroom

/-! ### Moving the low end -/

/-- An addition to `base`, its carry made, is an addition to the low end (20_memory.md R85). -/
theorem lowEnd_of_carryIfWrapped {g a : Engine} {x w : Word}
    (h : carryIfWrapped g.base { g with base := g.base + x, length := w } = .ok a) :
    a.length = w ∧ a.lowEnd = g.lowEnd + x.toNat := by
  have hx := x.isLt
  have hb := g.base.isLt
  have hadd := BitVec.toNat_add g.base x
  unfold carryIfWrapped at h
  split at h
  · rename_i hwrap
    have hwrap' : (g.base + x).toNat < g.base.toNat := hwrap
    rcases streamCarry_value_cases { g with base := g.base + x, length := w } with ⟨bs, hc, -, hval⟩ | ⟨hc, -⟩
    · rw [hc] at h
      cases h
      refine ⟨rfl, ?_⟩
      simp only [Engine.lowEnd, hval]
      omega
    · rw [hc] at h
      cases h
  · rename_i hwrap
    have hwrap' : g.base.toNat ≤ (g.base + x).toNat := BitVec.not_lt.mp hwrap
    cases h
    refine ⟨rfl, ?_⟩
    simp only [Engine.lowEnd]
    omega

/-- Inside the interval of a sound encoder the low end can move: there is room for the carry. -/
theorem carryIfWrapped_moves {g : Engine} {x w : Word} (hg : g.EncOk) (hw : 1 ≤ w.toNat)
    (hxw : x.toNat + w.toNat ≤ g.length.toNat) :
    ∃ a, carryIfWrapped g.base { g with base := g.base + x, length := w } = .ok a ∧ a.length = w
      ∧ a.out.length = g.out.length ∧ a.lowEnd = g.lowEnd + x.toNat ∧ EncoderFrame g a := by
  have safe := carryIfWrapped_meets hg.room hw hxw
  rcases carryIfWrapped_cases g.base { g with base := g.base + x, length := w } with ⟨a, hc, hout⟩ | hc
  · obtain ⟨hlen, hlow⟩ := lowEnd_of_carryIfWrapped hc
    have hnarrow : EncoderFrame g { g with base := g.base + x, length := w } := rfl
    exact ⟨a, hc, hlen, hout, hlow, hnarrow.trans (carryIfWrapped_frame hc)⟩
  · exact absurd rfl (safe.of_error hc).noCarryOut

/-! ### `EncodeSymbol` -/

/-- A symbol coded on a sound encoder with room, on a sound model, completes (R180, R182). -/
theorem encodeWith_encodedTo {cap : Option Nat} {n k r : Nat} {g : Engine} {m : Model} (hm : m.Ok n) (hk : k < n)
    (hg : g.EncOk) (hr : Rounds (narrowLength n m k g (m.distAt k * quotLength g)).toNat r)
    (hroom : g.HasRoom cap r) :
    ∃ h, encodeWith cap n k g m = .ok (h, Model.adapt n m k)
      ∧ EncodedTo g (m.distAt k * quotLength g) (narrowLength n m k g (m.distAt k * quotLength g)) r h := by
  obtain ⟨hwide, hinside⟩ := narrow_bounds hm hk hg.lengthGe
  obtain ⟨a, hcarry, hlen, hout, hlow, hframe⟩ := carryIfWrapped_moves hg (by omega) hinside
  obtain ⟨h, hrenorm, hscaled⟩ := renormEncIfLow_scales (g := a) (r := r) (cap := cap) (by rwa [hlen])
    (hroom.of_outLength (by rw [hout]))
  refine ⟨h, ?_, {
    onlyCoder := hframe.trans hscaled.onlyCoder
    fewBytes := hr.few
    outLength := by rw [hscaled.outLength, hout]
    lowEnd := by rw [hscaled.lowEnd, hlow]
    width := by rw [hscaled.width, hlen]
    widthGe := by
      rw [BitVec.le_def, hscaled.width, hlen]
      exact hr.enough
    least := hr.least }⟩
  rw [encodeWith]
  simp only [hcarry, attempt_ok_bind, hrenorm]

/-! ### The end of a stream -/

theorem appendZeros_of_hasRoom {cap : Option Nat} {z : Nat} {g : Engine} (hroom : g.HasRoom cap z) :
    appendZeros cap z g = .ok { g with out := g.out ++ List.replicate z 0 } := by
  induction z generalizing g with
  | zero => simp [appendZeros]
  | succ z ih =>
    rw [appendZeros, streamAppend_of_hasRoom hroom, attempt_ok_bind,
      ih (hroom.of_outLength (by simp only [List.length_append, List.length_singleton]; omega)), List.append_assoc]
    rfl

/-- `h` is encoder `g` after the end of its stream (41_coder.md R183): the low end moved up by `x`, all but its last `z`
bytes emitted, and `z` zeros, four bytes in all. -/
structure FlushedTo (g : Engine) (x : Word) (z : Nat) (h : Engine) : Prop where
  onlyCoder : h = { g with base := h.base, length := 0x80000000, out := h.out, mode := .idle }
  outLength : h.out.length = g.out.length + 4
  value : bytesValue h.out = (g.lowEnd + x.toNat) / 256 ^ z * 256 ^ z
  base : h.base = (g.base + x) <<< (8 * (4 - z))

/-- An encoder whose low end has moved and been scaled by `r` rounds is flushed by the zeros. -/
theorem flushedTo_of_scaled {g b : Engine} {x : Word} {r z : Nat} (hframe : EncoderFrame g b)
    (hlen : b.length = 0x80000000) (hout : b.out.length = g.out.length + r)
    (hlow : b.lowEnd = (g.lowEnd + x.toNat) * 256 ^ r) (hz : r + z = 4) :
    FlushedTo g x z { b with out := b.out ++ List.replicate z 0, mode := .idle } where
  onlyCoder := by
    rw [EncoderFrame, hlen] at hframe
    rw [hframe]
  outLength := by
    rw [List.length_append, List.length_replicate, hout]
    omega
  value := by
    have hpow : 2 ^ 32 = 256 ^ z * 256 ^ r := by
      rw [← Nat.pow_add, Nat.add_comm, hz]
      rfl
    rw [bytesValue_append_list, bytesValue_zeros, List.length_replicate, Nat.add_zero, b.bytesValue_out, hlow, hpow,
      Nat.mul_div_mul_right _ _ (Nat.pow_pos (by decide))]
  base := by
    have hmoved : BitVec.ofNat 32 (g.lowEnd + x.toNat) = g.base + x := by
      rw [BitVec.ofNat_add, ← g.base_eq_ofNat_lowEnd, BitVec.ofNat_toNat, BitVec.setWidth_eq]
    rw [b.base_eq_ofNat_lowEnd, hlow, ofNat_mul_pow_byte, hmoved, show 4 - z = r by omega]

/-- The end of a stream that narrows to a width `w`, which its rounds bring to `2^31`, from `x` on. -/
theorem flushWith_flushedTo {cap : Option Nat} {g : Engine} {x w : Word} {r : Nat} (hg : g.EncOk)
    (hroom : g.HasRoom cap 4) (hnarrow : flushNarrow g = { g with base := g.base + x, length := w })
    (hxw : x.toNat + w.toNat ≤ g.length.toNat) (hr : Rounds w.toNat (r + 1)) (hw : w.toNat * 256 ^ (r + 1) = 2 ^ 31)
    (hz : r + 1 + flushZeros g = 4) : ∃ h, flushWith cap g = .ok h ∧ FlushedTo g x (flushZeros g) h := by
  have hpos : 1 ≤ w.toNat := Nat.one_le_iff_ne_zero.mpr fun h0 => by simp [h0] at hw
  obtain ⟨a, hcarry, hlen, hout, hlow, hframe⟩ := carryIfWrapped_moves hg hpos hxw
  obtain ⟨b, hrenorm, hscaled⟩ := renormEncLoop_scales (cap := cap) (fuel := renormRounds)
    (by rw [renormRounds]; omega) (hlen.symm ▸ hr) (hroom.of_outLength (by omega))
  have hblen : b.length = 0x80000000 := BitVec.eq_of_toNat_eq (by rw [hscaled.width, hlen, hw]; rfl)
  have hbout : b.out.length = g.out.length + (r + 1) := by rw [hscaled.outLength, hout]
  have hzeros := appendZeros_of_hasRoom (hroom.of_outLength (h := b) (i := flushZeros g) (by omega))
  refine ⟨_, ?_, flushedTo_of_scaled (hframe.trans hscaled.onlyCoder) hblen hbout
    (by rw [hscaled.lowEnd, hlow]) hz⟩
  rw [flushWith, hnarrow]
  simp only [hcarry, attempt_ok_bind, renormEnc, hrenorm, hzeros]

/-- Above `2^25` the low end moves up by `2^24` and one byte is emitted before the zeros (R183). -/
theorem flushWith_of_wide {cap : Option Nat} {g : Engine} (hg : g.EncOk) (hroom : g.HasRoom cap 4)
    (hwide : 0x02000000 < g.length) : ∃ h, flushWith cap g = .ok h ∧ FlushedTo g 0x01000000 3 h := by
  have hwide' : 2 ^ 25 < g.length.toNat := hwide
  have hz : flushZeros g = 3 := if_pos hwide
  have hxw : (0x01000000 : Word).toNat + (0x00800000 : Word).toNat ≤ g.length.toNat := by simp; omega
  exact hz ▸ flushWith_flushedTo (r := 0) hg hroom (if_pos hwide) hxw ⟨by decide, by decide, by decide⟩ rfl
    (by rw [hz])

/-- Up to `2^25` it moves up by `2^23` and two bytes are emitted before the zeros (R183). -/
theorem flushWith_of_close {cap : Option Nat} {g : Engine} (hg : g.EncOk) (hroom : g.HasRoom cap 4)
    (hclose : g.length ≤ 0x02000000) : ∃ h, flushWith cap g = .ok h ∧ FlushedTo g 0x00800000 2 h := by
  have hnot : ¬ g.length > 2 * acMinLength := BitVec.not_lt.mpr hclose
  have hmin : 2 ^ 24 ≤ g.length.toNat := hg.lengthGe
  have hz : flushZeros g = 2 := if_neg hnot
  have hxw : (0x00800000 : Word).toNat + (0x00008000 : Word).toNat ≤ g.length.toNat := by simp; omega
  exact hz ▸ flushWith_flushedTo (r := 1) hg hroom (if_neg hnot) hxw ⟨by decide, by decide, by decide⟩ rfl
    (by rw [hz])

/-! ### Commands that complete -/

/-- A command whose checks pass and whose work is done completes. -/
theorem exec_of_work_ok {i : Instr} {s t : State} (hc : firstError i s = none) (hw : work i s = .ok t) :
    exec i s = .next { t with held := none } := by
  rw [exec_eq_finish_attempt, attempt_of_checked hc, hw, finish_ok]

/-- If nothing is held then, it leaves the state its work gives. -/
theorem exec_of_work_ok_of_none {i : Instr} {s t : State} (ht : t.held = none) (hc : firstError i s = none)
    (hw : work i s = .ok t) : exec i s = .next t := by
  rw [exec_of_work_ok hc hw, ← ht]

theorem firstError_encInit {s : State} {e : Idx} (he : s.build.hasEng e = true) : firstError (.encInit e) s = none :=
  firstError_eq_none.mpr ⟨he, rfl, rfl, rfl, rfl⟩

/-- Settles O18: the work of `ENC_INIT` is one write of its engine. -/
theorem encInitStartsAnEncoder : Obligations.EncInitStartsAnEncoder := fun s e hheld he =>
  ⟨s.setEng e (startEncoder (s.eng e)), exec_of_work_ok_of_none hheld (firstError_encInit he) rfl,
    s.eng_setEng_same e _, fun _ hne => s.eng_setEng_ne _ hne, rfl⟩

/-- Settles O20: the rounds that the symbol's width needs are at most two, and there is room for their bytes. -/
theorem encSymbolNarrowsEmitsAdapts : Obligations.EncSymbolNarrowsEmitsAdapts := by
  intro s c e σ k hheld hc he hσ hx hmode hk hm hg hroom
  obtain ⟨r, hr⟩ := exists_rounds (narrow_bounds hm hk hg.lengthGe).1
  obtain ⟨h, hcoded, hto⟩ := encodeWith_encodedTo hm hk hg hr (hroom.mono hr.few)
  have hsymbol := encodeSymbol_eq_ok.mpr ⟨h, _, hcoded, rfl⟩
  refine ⟨_, r, ?_, ?_, State.model_setModel_same .., onlyCoded_write s c e σ h _⟩
  · exact exec_of_work_ok_of_none hheld (firstError_encSymbol hc he hσ hx hmode hk)
      (by rw [work, slotNamed_ofNat, hsymbol])
  · rw [State.eng_setModel, State.eng_setEng_same]
    exact hto

/-- Settles O21: the two widths of the last narrowing. -/
theorem encDoneFlushesFourBytes : Obligations.EncDoneFlushesFourBytes := by
  intro s e hheld he hmode hg hroom
  have done {h : Engine} (hh : flushWith (s.build.outCapOf e) (s.eng e) = .ok h) :
      exec (.encDone e) s = .next (s.setEng e h) :=
    exec_of_work_ok_of_none hheld (firstError_encDone he hmode) (by rw [work, hh, attempt_ok_bind])
  have others (h : Engine) : ∀ e', e' ≠ e → (s.setEng e h).eng e' = s.eng e' := fun _ hne => s.eng_setEng_ne h hne
  by_cases hwide : 0x02000000 < (s.eng e).length
  · obtain ⟨h, hh, hflushed⟩ := flushWith_of_wide hg hroom hwide
    refine ⟨_, done hh, ?_⟩
    rw [State.eng_setEng_same]
    exact ⟨hflushed.outLength, fun _ => ⟨hflushed.value, hflushed.base⟩,
      fun hle => absurd hwide (BitVec.not_lt.mpr hle), hflushed.onlyCoder, others h, rfl⟩
  · have hclose := BitVec.not_lt.mp hwide
    obtain ⟨h, hh, hflushed⟩ := flushWith_of_close hg hroom hclose
    refine ⟨_, done hh, ?_⟩
    rw [State.eng_setEng_same]
    exact ⟨hflushed.outLength, fun hlt => absurd hlt hwide,
      fun _ => ⟨hflushed.value, hflushed.base⟩, hflushed.onlyCoder, others h, rfl⟩

end Sys2Proof.Machine
end

