-- ==== Sys2Proof/Proofs/DecoderSteps.lean ====
section
/-! The decoder's commands (41_coder.md R186 to R194). Reading bytes, by `DEC_INIT` and by a renormalisation alike,
appends them to `value` as a number; what the bytes past a marked end are is left open (20_memory.md R86). -/

namespace Sys2Proof.Machine

/-! ### Reading bytes -/

/-- The next `n` reads of an engine complete: the bytes are at hand, or the end is marked. `in_ptr` does not wrap. -/
structure Engine.Readable (g : Engine) (n : Nat) : Prop where
  ptrLe : g.inPtr.toNat ≤ g.input.length
  bytes : (g.inPtr.toNat + n ≤ g.input.length ∧ g.inPtr.toNat + n < 2 ^ 32)
    ∨ (g.eos = true ∧ g.input.length < 2 ^ 32)

theorem Engine.Readable.mono {g : Engine} {i j : Nat} (h : g.Readable j) (hij : i ≤ j) : g.Readable i :=
  ⟨h.ptrLe, h.bytes.imp_left fun ⟨hhand, hptr⟩ => ⟨by omega, by omega⟩⟩

theorem Engine.Serves.readable {g : Engine} {n : Nat} (h : g.Serves n) : g.Readable n where
  ptrLe := h.ptrLe
  bytes := h.enough.symm.imp (fun hhand => ⟨hhand, hhand.trans_lt h.short⟩) fun heos => ⟨heos, h.short⟩

/-- `h` is decoder `g` after `r` reads, each shifted into `value`. -/
structure ReadTo (g : Engine) (r : Nat) (h : Engine) : Prop where
  onlyCoder : DecoderFrame g h
  inPtr : h.inPtr.toNat = min (g.inPtr.toNat + r) g.input.length
  underrun : h.underrun = (g.underrun || decide (g.input.length < g.inPtr.toNat + r))
  draws : g.inPtr.toNat + r ≤ g.input.length → h.draws = g.draws
  value : g.inPtr.toNat + r ≤ g.input.length →
    h.value = BitVec.ofNat 32 (g.value.toNat * 256 ^ r + bytesValue ((g.input.drop g.inPtr.toNat).take r))

theorem ReadTo.refl {g : Engine} (h : g.inPtr.toNat ≤ g.input.length) : ReadTo g 0 g where
  onlyCoder := rfl
  inPtr := (min_eq_left h).symm
  underrun := by simp [h]
  draws := fun _ => rfl
  value := fun _ => by simp [bytesValue]

theorem ReadTo.input {g h : Engine} {r : Nat} (a : ReadTo g r h) : h.input = g.input := by rw [a.onlyCoder]

theorem ReadTo.eos {g h : Engine} {r : Nat} (a : ReadTo g r h) : h.eos = g.eos := by rw [a.onlyCoder]

theorem ReadTo.readable {g h : Engine} {i j : Nat} (a : ReadTo g i h) (hg : g.Readable (i + j)) : h.Readable j where
  ptrLe := by
    rw [a.inPtr, a.input]
    exact min_le_right _ _
  bytes := by
    rw [a.inPtr, a.input, a.eos]
    exact hg.bytes.imp_left fun ⟨hhand, hptr⟩ => by omega

theorem ReadTo.trans {g h k : Engine} {i j : Nat} (a : ReadTo g i h) (b : ReadTo h j k) : ReadTo g (i + j) k where
  onlyCoder := a.onlyCoder.trans b.onlyCoder
  inPtr := by
    rw [b.inPtr, a.inPtr, a.input]
    omega
  underrun := by
    rw [b.underrun, a.underrun, a.input, Bool.or_assoc, ← Bool.decide_or]
    congr 2
    rw [eq_iff_iff, a.inPtr]
    omega
  draws := fun hhand => by
    have hptr := a.inPtr
    rw [b.draws (by rw [a.input]; omega), a.draws (by omega)]
  value := fun hhand => by
    have hptr : h.inPtr.toNat = g.inPtr.toNat + i := by rw [a.inPtr]; omega
    have hsplit := (bytesValue_take_add (bs := g.input.drop g.inPtr.toNat) (i := i) (j := j)
      (by rw [List.length_drop]; omega)).1
    rw [b.value (by rw [a.input]; omega), a.input, hptr, hsplit, List.drop_drop, BitVec.ofNat_add, BitVec.ofNat_mul,
      BitVec.ofNat_toNat, BitVec.setWidth_eq, a.value (by omega), ← BitVec.ofNat_mul, ← BitVec.ofNat_add]
    congr 1
    ring

/-- Read into a `value` of 0, the bytes are the value. -/
theorem ReadTo.value_of_zero {g h : Engine} {r : Nat} (a : ReadTo g r h) (hzero : g.value = 0)
    (hhand : g.inPtr.toNat + r ≤ g.input.length) :
    h.value = BitVec.ofNat 32 (bytesValue ((g.input.drop g.inPtr.toNat).take r)) := by
  rw [a.value hhand, hzero]
  simp

/-- Shifting a byte into a word, as a number. -/
theorem shiftIn_eq_ofNat (v : Word) (b : Byte) :
    (v <<< 8) ||| b.setWidth 32 = BitVec.ofNat 32 (v.toNat * 256 + b.toNat) := by
  have hdisjoint : (v <<< 8) &&& b.setWidth 32 = 0#32 := by
    ext i hi
    by_cases h8 : i < 8
    · simp [h8]
    · simp [BitVec.getLsbD_of_ge b i (by omega)]
  have hshift : v <<< 8 = BitVec.ofNat 32 (v.toNat * 256) := by
    simpa using (ofNat_mul_pow_byte v.toNat 1).symm
  rw [← BitVec.add_eq_or_of_and_eq_zero _ _ hdisjoint, BitVec.ofNat_add, hshift, BitVec.ofNat_toNat]

/-- `a` is engine `g` after a read that obtained `b`, a free value past the end of the input. -/
structure GotByte (g : Engine) (b : Byte) (a : Engine) : Prop where
  onlyStream : a = { g with inPtr := a.inPtr, underrun := a.underrun, draws := a.draws }
  inPtr : a.inPtr.toNat = min (g.inPtr.toNat + 1) g.input.length
  underrun : a.underrun = (g.underrun || decide (g.input.length < g.inPtr.toNat + 1))
  atHand : g.inPtr.toNat < g.input.length → a.draws = g.draws ∧ b = g.input.getD g.inPtr.toNat 0

theorem streamRead_gotByte (e : Idx) {g : Engine} {n : Nat} (hg : g.Readable (n + 1)) :
    ∃ b a, streamRead e g = .ok (b, a) ∧ GotByte g b a := by
  have hptr := hg.ptrLe
  rcases streamRead_cases e g with ⟨hlt, hc⟩ | ⟨hend, -, hc⟩ | ⟨hend, heos, -⟩
  · have hnext : (g.inPtr + 1).toNat = g.inPtr.toNat + 1 := by
      have hadd : (g.inPtr + 1).toNat = (g.inPtr.toNat + 1) % 2 ^ 32 := BitVec.toNat_add g.inPtr 1
      have hbytes := hg.bytes
      omega
    exact ⟨_, _, hc, rfl, hnext.trans (min_eq_left hlt).symm, by simp [hlt], fun _ => ⟨rfl, rfl⟩⟩
  · exact ⟨_, _, hc, rfl, by simp only; omega, by simp; omega, fun hlt => absurd hlt (Nat.not_lt.mpr hend)⟩
  · rcases hg.bytes with ⟨hhand, -⟩ | ⟨hmarked, -⟩
    · omega
    · rw [heos] at hmarked
      cases hmarked

/-- A read does not look at `value`. -/
theorem GotByte.withValue {g a : Engine} {b : Byte} (h : GotByte g b a) (v : Word) :
    GotByte { g with value := v } b { a with value := v } where
  onlyStream := by rw [h.onlyStream]
  inPtr := h.inPtr
  underrun := h.underrun
  atHand := h.atHand

/-- The byte obtained, shifted into `value`. -/
theorem GotByte.readTo {g a h : Engine} {b : Byte} (hgot : GotByte g b a)
    (hh : h = { a with value := (a.value <<< 8) ||| b.setWidth 32, length := h.length }) : ReadTo g 1 h := by
  obtain ⟨honly, hptr, hunder, hhand⟩ := hgot
  have hvalue : a.value = g.value := by rw [honly]
  rw [hh]
  refine ⟨?_, hptr, hunder, fun hlt => (hhand hlt).1, fun hlt => ?_⟩
  · rw [DecoderFrame, honly]
  · obtain ⟨-, rfl⟩ := hhand hlt
    have hbyte : (g.input.drop g.inPtr.toNat).take 1 = [g.input.getD g.inPtr.toNat 0] := by
      rw [List.take_one_drop_eq_of_lt_length hlt, List.get_eq_getElem, List.getD_eq_getElem _ _ hlt]
    simp only [shiftIn_eq_ofNat, hbyte, hvalue]
    simp [bytesValue]

/-- Reading `n` bytes appends them to the number `v` read so far. -/
theorem readBytes_readTo (e : Idx) {n : Nat} (v : Word) {g : Engine} (hg : g.Readable n) :
    ∃ w a, readBytes e n v g = .ok (w, a) ∧ ReadTo { g with value := v } n { a with value := w } := by
  induction n generalizing v g with
  | zero => exact ⟨v, g, rfl, .refl hg.ptrLe⟩
  | succ n ih =>
    obtain ⟨b, a, hread, hgot⟩ := streamRead_gotByte e hg
    have hone : ReadTo { g with value := v } 1 { a with value := (v <<< 8) ||| b.setWidth 32 } :=
      (hgot.withValue v).readTo rfl
    have hleft := hone.readable (j := n) ⟨hg.ptrLe, by simpa only [Nat.add_comm 1 n] using hg.bytes⟩
    obtain ⟨w, a', hrest, hto⟩ := ih ((v <<< 8) ||| b.setWidth 32) (g := a) ⟨hleft.ptrLe, hleft.bytes⟩
    refine ⟨w, a', ?_, (Nat.add_comm 1 n) ▸ hone.trans hto⟩
    rw [readBytes, hread]
    exact hrest

/-- With too few bytes and the end unmarked, reading holds (20_memory.md R87). -/
theorem readBytes_holds (e : Idx) {n : Nat} (v : Word) {g : Engine} (hptr : g.inPtr.toNat ≤ g.input.length)
    (hshort : g.input.length < 2 ^ 32) (hfew : g.input.length < g.inPtr.toNat + n) (heos : g.eos = false) :
    readBytes e n v g = .error .hold := by
  induction n generalizing v g with
  | zero => omega
  | succ n ih =>
    rcases streamRead_cases e g with ⟨hlt, hc⟩ | ⟨-, hmarked, -⟩ | ⟨-, -, hc⟩
    · have hnext : (g.inPtr + 1).toNat = g.inPtr.toNat + 1 := by
        rw [BitVec.toNat_add]
        exact Nat.mod_eq_of_lt (Nat.lt_of_le_of_lt hlt hshort)
      rw [readBytes, hc]
      exact ih _ (hnext.trans_le hlt) hshort (by simp only [hnext]; omega) heos
    · rw [heos] at hmarked
      cases hmarked
    · rw [readBytes, hc]
      rfl

/-! ### Renormalising a decoder -/

/-- The engine after one round, once it obtained `b` (41_coder.md R191). -/
def shiftIn (b : Byte) (g : Engine) : Engine :=
  { g with value := (g.value <<< 8) ||| b.setWidth 32, length := g.length <<< 8 }

theorem renormDecLoop_readTo (e : Idx) {r fuel : Nat} {g : Engine} (hfuel : r < fuel)
    (hr : Rounds g.length.toNat (r + 1)) (hg : g.Readable (r + 1)) :
    ∃ h, renormDecLoop e fuel g = .ok h ∧ ReadTo g (r + 1) h
      ∧ h.length.toNat = g.length.toNat * 256 ^ (r + 1) := by
  induction fuel generalizing r g with
  | zero => omega
  | succ fuel ih =>
    obtain ⟨b, a, hread, hgot⟩ := streamRead_gotByte e hg
    have hone : ReadTo g 1 (shiftIn b a) := hgot.readTo rfl
    have hwidth : (shiftIn b a).length.toNat = g.length.toNat * 256 := by
      have hlength : a.length = g.length := by rw [hgot.onlyStream]
      rw [shiftIn, hlength, toNat_length_shift hr.low]
    have hnext : Rounds (shiftIn b a).length.toNat r := hwidth ▸ hr.shift
    rw [renormDecLoop, hread, attempt_ok_bind]
    change ∃ h, (if (shiftIn b a).length < acMinLength then renormDecLoop e fuel (shiftIn b a)
      else .ok (shiftIn b a)) = .ok h ∧ _
    cases r with
    | zero => exact ⟨_, if_neg hnext.not_low, hone, hwidth⟩
    | succ r =>
      obtain ⟨h, hh, hto, hwidth'⟩ := ih (Nat.lt_of_succ_lt_succ hfuel) hnext
        (hone.readable ((Nat.add_comm _ _) ▸ hg))
      rw [if_pos hnext.low]
      refine ⟨h, hh, (Nat.add_comm _ _) ▸ hone.trans hto, ?_⟩
      rw [hwidth', hwidth, Nat.pow_succ' (n := r + 1), Nat.mul_assoc]

theorem renormDecIfLow_readTo (e : Idx) {r : Nat} {g : Engine} (hr : Rounds g.length.toNat r) (hg : g.Readable r) :
    ∃ h, renormDecIfLow e g = .ok h ∧ ReadTo g r h ∧ h.length.toNat = g.length.toNat * 256 ^ r := by
  cases r with
  | zero => exact ⟨g, if_neg hr.not_low, .refl hg.ptrLe, (Nat.mul_one _).symm⟩
  | succ r =>
    have hfuel : r < renormRounds := by have := hr.few; rw [renormRounds]; omega
    rw [renormDecIfLow, if_pos hr.low]
    exact renormDecLoop_readTo e hfuel hr hg

/-! ### `DecodeSymbol` -/

/-- A symbol decoded on a sound model completes where the bytes of its `r` rounds can be read (R188, R191). -/
theorem decodeWith_decodedTo (e : Idx) {n k r : Nat} {g : Engine} {m : Model}
    (hk : findSymbol m (quotLength g) g.value (n - 1) = k)
    (hr : Rounds (narrowLength n m k g (m.distAt k * quotLength g)).toNat r) (hg : g.Readable r) :
    ∃ h, decodeWith e n g m = .ok (BitVec.ofNat 8 k, h, Model.adapt n m k)
      ∧ DecodedTo g (m.distAt k * quotLength g) (narrowLength n m k g (m.distAt k * quotLength g)) r h := by
  subst hk
  obtain ⟨h, hh, hto, hwidth⟩ := renormDecIfLow_readTo e (g := narrowed n m g) hr ⟨hg.ptrLe, hg.bytes⟩
  refine ⟨h, by rw [decodeWith_eq, hh, attempt_ok_bind], {
    onlyCoder := DecoderFrame.trans (h := narrowed n m g) rfl hto.onlyCoder
    fewBytes := hr.few
    inPtr := hto.inPtr
    underrun := hto.underrun
    value := hto.value
    width := hwidth
    widthGe := ?_
    least := hr.least }⟩
  rw [BitVec.le_def, hwidth]
  exact hr.enough

/-! ### Commands that complete -/

theorem firstError_decInit {s : State} {e : Idx} (he : s.build.hasEng e = true) : firstError (.decInit e) s = none :=
  firstError_eq_none.mpr ⟨he, rfl, rfl, rfl, rfl⟩

theorem firstError_decDone {s : State} {e : Idx} (he : s.build.hasEng e = true) (hm : (s.eng e).mode = .dec) :
    firstError (.decDone e) s = none :=
  firstError_eq_none.mpr ⟨he, rfl, rfl, by simp [namesWrongMode, engineOf, needsMode, hm], rfl⟩

/-- Settles O27: the work of `DEC_DONE` is one write of its engine. -/
theorem decDoneIdlesTheDecoder : Obligations.DecDoneIdlesTheDecoder := fun s e hheld he hm =>
  ⟨s.setEng e { s.eng e with mode := .idle }, exec_of_work_ok_of_none hheld (firstError_decDone he hm) rfl,
    s.eng_setEng_same e _, fun _ hne => s.eng_setEng_ne _ hne, rfl⟩

/-- Four bytes read start a decoder with them as its value (R186). -/
theorem startDecoder_readTo (e : Idx) {g : Engine} (hg : g.Readable 4) :
    ∃ a, startDecoder e g = .ok { a with length := acMaxLength, mode := .dec }
      ∧ ReadTo { g with underrun := false, value := 0 } 4 a := by
  obtain ⟨w, a, hread, hto⟩ := readBytes_readTo e 0 (g := { g with underrun := false }) ⟨hg.ptrLe, hg.bytes⟩
  refine ⟨{ a with value := w }, ?_, hto⟩
  rw [startDecoder, hread]
  rfl

/-- `DEC_INIT` completes with the decoder started. -/
theorem exec_decInit {s : State} {e : Idx} {g : Engine} (he : s.build.hasEng e = true)
    (hg : startDecoder e (s.eng e) = .ok g) : exec (.decInit e) s = .next { s.setEng e g with held := none } :=
  exec_of_work_ok (firstError_decInit he) (by rw [work, hg, attempt_ok_bind])

/-- The next four bytes, as a number and side by side. -/
theorem ofNat_four_bytes {g : Engine} (h : g.inPtr.toNat + 4 ≤ g.input.length) :
    BitVec.ofNat 32 (bytesValue ((g.input.drop g.inPtr.toNat).take 4))
      = g.inputAt 0 ++ g.inputAt 1 ++ g.inputAt 2 ++ g.inputAt 3 := by
  have hfour : (g.input.drop g.inPtr.toNat).take 4 = [g.inputAt 0, g.inputAt 1, g.inputAt 2, g.inputAt 3] := by
    have byte {i : Nat} (hi : g.inPtr.toNat + i < g.input.length) : g.inputAt i = g.input[g.inPtr.toNat + i] :=
      List.getD_eq_getElem _ _ hi
    rw [byte (i := 0) (by omega), byte (i := 1) (by omega), byte (i := 2) (by omega), byte (i := 3) (by omega)]
    rw [List.drop_eq_getElem_cons (by omega), List.drop_eq_getElem_cons (by omega),
      List.drop_eq_getElem_cons (by omega), List.drop_eq_getElem_cons (by omega)]
    rfl
  have h0 := (g.inputAt 0).isLt
  have h1 := (g.inputAt 1).isLt
  have h2 := (g.inputAt 2).isLt
  have h3 := (g.inputAt 3).isLt
  apply BitVec.eq_of_toNat_eq
  rw [hfour, BitVec.toNat_ofNat, toNat_append_eq_add, toNat_append_eq_add, toNat_append_eq_add]
  simp only [bytesValue, List.foldl_cons, List.foldl_nil]
  omega

/-- Settles O23: the four bytes at hand are read, whatever `eos` is. -/
theorem decInitAssemblesFourBytes : Obligations.DecInitAssemblesFourBytes := by
  intro s e he hhand hptr
  obtain ⟨a, ha, hto⟩ := startDecoder_readTo e (g := s.eng e) ⟨by omega, .inl ⟨hhand, hptr⟩⟩
  refine ⟨_, exec_decInit he ha, ?_, fun _ hne => s.eng_setEng_ne _ hne, rfl⟩
  refine (s.eng_setEng_same e _).trans ?_
  have hvalue := (hto.value_of_zero rfl hhand).trans (ofNat_four_bytes hhand)
  have hin : a.inPtr = (s.eng e).inPtr + 4 := by
    apply BitVec.eq_of_toNat_eq
    rw [hto.inPtr, BitVec.toNat_add]
    exact (min_eq_left hhand).trans (Nat.mod_eq_of_lt hptr).symm
  have hunder : a.underrun = false := by
    rw [hto.underrun]
    simpa using hhand
  rw [hto.onlyCoder, hvalue, hin, hto.draws hhand, hunder]
  rfl

/-- Settles O24: with the end unmarked the reads run out and hold, with it marked they go on past it. -/
theorem decInitHoldsOrUnderruns : Obligations.DecInitHoldsOrUnderruns := by
  intro s e he hfew hptr hshort
  refine ⟨fun heos => exec_holds (firstError_decInit he) ?_, fun heos => ?_⟩
  · rw [work, startDecoder, readBytes_holds e 0 (g := { s.eng e with underrun := false }) hptr hshort hfew heos]
    rfl
  · obtain ⟨a, ha, hto⟩ := startDecoder_readTo e (g := s.eng e) ⟨hptr, .inr ⟨heos, hshort⟩⟩
    refine ⟨_, exec_decInit he ha, ?_⟩
    change ((s.setEng e _).eng e).underrun = true ∧ ((s.setEng e _).eng e).mode = _
      ∧ ((s.setEng e _).eng e).length = _ ∧ ((s.setEng e _).eng e).inPtr.toNat = _
      ∧ ((s.setEng e _).eng e).input = _ ∧ _
    rw [State.eng_setEng_same]
    refine ⟨?_, rfl, rfl, ?_, hto.input, fun _ hne => s.eng_setEng_ne _ hne, rfl⟩
    · exact hto.underrun.trans (by simpa using hfew)
    · exact hto.inPtr.trans (min_eq_right hfew.le)

theorem res0Symbol_ofNat {k : Nat} (hk : k < 256) : res0Symbol (BitVec.ofNat 8 k) = BitVec.ofNat 32 (0x1000 + k) := by
  have hbyte : ((BitVec.ofNat 8 k).setWidth 32).toNat = k := by simp; omega
  apply BitVec.eq_of_toNat_eq
  rw [res0Symbol, BitVec.or_comm, toNat_or_shiftLeft (by omega) (by decide), hbyte, BitVec.toNat_ofNat]
  simp
  omega

/-- Settles O25: the symbol the search finds, and the bytes of the rounds that its width needs, at most two. -/
theorem decSymbolFindsNarrowsAdapts : Obligations.DecSymbolFindsNarrowsAdapts := by
  intro s c e σ hc he hσ hx hmode hm hg hserves
  obtain ⟨hn1, hn⟩ := slotSyms_bounds s.build.profile σ
  obtain ⟨k, hfind⟩ : ∃ k, findSymbol (s.model c σ) (quotLength (s.eng e)) (s.eng e).value
      (slotSyms s.build.profile σ - 1) = k := ⟨_, rfl⟩
  have hk : k < slotSyms s.build.profile σ := by
    have := findSymbol_le (s.model c σ) (quotLength (s.eng e)) (s.eng e).value (slotSyms s.build.profile σ - 1)
    omega
  obtain ⟨r, hr⟩ := exists_rounds (narrow_bounds hm hk hg).1
  obtain ⟨h, hcoded, hto⟩ := decodeWith_decodedTo e hfind hr (hserves.readable.mono hr.few)
  have hsymbol := decodeSymbol_eq_ok.mpr ⟨h, _, hcoded, rfl⟩
  refine ⟨_, (s.setEng e h).setModel c σ (Model.adapt (slotSyms s.build.profile σ) (s.model c σ) k), k, r,
    exec_of_work_ok (firstError_decSymbol hc he hσ hx hmode) (by rw [work, slotNamed_ofNat, hsymbol]; rfl), hk, ?_,
    fun j hj hjn => ?_, ?_, State.model_setModel_same .., onlyCoded_write s c e σ h _, ?_⟩
  · exact (shareStart_le_iff hm hk hg _).mpr ((findSymbol_boundary hm hg _ hk).mpr hfind.ge)
  · exact findSymbol_later _ _ _ (slotSyms s.build.profile σ - 1) j (hfind.trans_lt hj) (by omega)
  · rw [State.eng_setModel, State.eng_setEng_same]
    exact hto
  · rw [res0Symbol_ofNat (by omega)]

end Sys2Proof.Machine
end

