-- ==== Sys2Proof/Proofs/RoundTrip.lean ====
section
/-! The round trip (41_coder.md R192, R195). The finished code, cut to the bytes an encoder had emitted and four more,
is a number in the interval the encoder then had (`Encloses`): the end of a stream puts it there, and what a symbol
narrows the interval to is a part of what it was. A decoder that has read as far holds the distance of that number
from the low end as its value (`Tracks`), so it finds the symbol the encoder coded and narrows as the encoder did. -/

namespace Sys2Proof.Machine

/-! ### The code in the encoder's interval -/

/-- The code, as far as encoder `g` fixes it, stands for a number in the interval of `g`. -/
structure Engine.Encloses (g : Engine) (code : List Byte) : Prop where
  length : g.out.length + 4 ≤ code.length
  lower : g.lowEnd ≤ bytesValue (code.take (g.out.length + 4))
  upper : bytesValue (code.take (g.out.length + 4)) < g.lowEnd + g.length.toNat

section
variable {g g' : Engine} {x w : Word} {r : Nat} {code : List Byte}

/-- A code in the interval after a symbol was in the symbol's share before. -/
theorem EncodedTo.inShare (h : EncodedTo g x w r g') (hcode : g'.Encloses code) :
    g.out.length + 4 + r ≤ code.length
    ∧ g.lowEnd + x.toNat ≤ bytesValue (code.take (g.out.length + 4))
    ∧ bytesValue (code.take (g.out.length + 4)) < g.lowEnd + x.toNat + w.toNat := by
  obtain ⟨hlen, hlower, hupper⟩ := hcode
  have hprefix : g'.out.length + 4 = g.out.length + 4 + r := by rw [h.outLength]; omega
  rw [hprefix] at hlen hlower hupper
  obtain ⟨hsplit, hrest⟩ := bytesValue_take_add hlen
  rw [hsplit, h.lowEnd] at hlower hupper
  rw [h.width, ← Nat.add_mul] at hupper
  have hscale : 0 < 256 ^ r := Nat.pow_pos (by decide)
  refine ⟨hlen, ?_, ?_⟩
  · refine Nat.le_of_lt_succ (Nat.lt_of_mul_lt_mul_right (a := 256 ^ r) ?_)
    rw [Nat.succ_mul]
    omega
  · exact Nat.lt_of_mul_lt_mul_right (a := 256 ^ r) (by omega)

/-- A share lies in its interval, so the code was in the interval before. -/
theorem EncodedTo.encloses (h : EncodedTo g x w r g') (hin : x.toNat + w.toNat ≤ g.length.toNat)
    (hcode : g'.Encloses code) : g.Encloses code := by
  obtain ⟨hlen, hlower, hupper⟩ := h.inShare hcode
  exact ⟨by omega, by omega, by omega⟩

/-- A symbol leaves a sound encoder. -/
theorem EncodedTo.encOk (h : EncodedTo g x w r g') (hg : g.EncOk) (hin : x.toNat + w.toNat ≤ g.length.toNat) :
    g'.EncOk where
  lengthGe := h.widthGe
  room := by
    have hroom := hg.room
    calc g'.lowEnd + g'.length.toNat
        = (g.lowEnd + x.toNat + w.toNat) * 256 ^ r := by rw [h.lowEnd, h.width, ← Nat.add_mul]
      _ ≤ 2 ^ 32 * 256 ^ g.out.length * 256 ^ r := Nat.mul_le_mul_right _ (by omega)
      _ = 2 ^ 32 * 256 ^ g'.out.length := by rw [h.outLength, Nat.mul_assoc, ← Nat.pow_add]

/-- The end of a stream leaves a code in the last interval. -/
theorem FlushedTo.encloses {z : Nat} {h : Engine} (hf : FlushedTo g x z h) (hz : 256 ^ z ≤ x.toNat)
    (hx : x.toNat < g.length.toNat) : g.Encloses h.out := by
  have hcut := Nat.div_mul_le_self (g.lowEnd + x.toNat) (256 ^ z)
  have hrest := Nat.div_add_mod' (g.lowEnd + x.toNat) (256 ^ z)
  have hlt := Nat.mod_lt (g.lowEnd + x.toNat) (Nat.pow_pos (by decide) : 0 < 256 ^ z)
  have hall : h.out.take (g.out.length + 4) = h.out := List.take_of_length_le hf.outLength.le
  refine ⟨hf.outLength.ge, ?_, ?_⟩ <;> rw [hall, hf.value] <;> omega

end

theorem flushWith_encloses {cap : Option Nat} {g : Engine} (hg : g.EncOk) (hroom : g.HasRoom cap 4) :
    ∃ h, flushWith cap g = .ok h ∧ h.out.length = g.out.length + 4 ∧ g.Encloses h.out := by
  by_cases hwide : 0x02000000 < g.length
  · obtain ⟨h, hh, hf⟩ := flushWith_of_wide hg hroom hwide
    have hlen : 2 ^ 25 < g.length.toNat := hwide
    exact ⟨h, hh, hf.outLength, hf.encloses (by decide) (by simp; omega)⟩
  · obtain ⟨h, hh, hf⟩ := flushWith_of_close hg hroom (BitVec.not_lt.mp hwide)
    have hlen : 2 ^ 24 ≤ g.length.toNat := hg.lengthGe
    exact ⟨h, hh, hf.outLength, hf.encloses (by decide) (by simp; omega)⟩

/-! ### The decoder beside the encoder -/

/-- Decoder `h` has read `code` as far as encoder `g` fixes it, and its value is what was read less the low end. -/
structure Tracks (code : List Byte) (g h : Engine) : Prop where
  input : h.input = code
  inPtr : h.inPtr.toNat = g.out.length + 4
  value : g.lowEnd + h.value.toNat = bytesValue (code.take (g.out.length + 4))
  length : h.length = g.length

/-- `DEC_INIT` on a code tracks `ENC_INIT` (R186, R192). -/
theorem startDecoder_tracks (f : Idx) {g h : Engine} (hptr : h.inPtr = 0) (hlen : 4 ≤ h.input.length) :
    ∃ a, startDecoder f h = .ok a ∧ Tracks h.input (startEncoder g) a := by
  have hhand : h.inPtr.toNat + 4 ≤ h.input.length := by simpa [hptr] using hlen
  obtain ⟨a, ha, hto⟩ := startDecoder_readTo f (g := h) ⟨by omega, .inl ⟨hhand, by simp [hptr]⟩⟩
  refine ⟨_, ha, hto.input, ?_, ?_, rfl⟩
  · refine (hto.inPtr.trans (min_eq_left hhand)).trans ?_
    simp [hptr, startEncoder]
  · have hlt := bytesValue_lt (h.input.take 4)
    have hvalue := hto.value_of_zero rfl hhand
    rw [List.length_take_of_le hlen] at hlt
    simp only [hptr] at hvalue
    simp only [startEncoder, Engine.lowEnd, hvalue, BitVec.toNat_ofNat]
    simpa [bytesValue] using hlt

/-- A value `d` above the start of a share, scaled with the bytes read, is again what the code is above the low end. -/
theorem value_of_scaled {code : List Byte} {g g' : Engine} {x w v : Word} {r d : Nat} (hto : EncodedTo g x w r g')
    (hlen : g.out.length + 4 + r ≤ code.length)
    (hd : g.lowEnd + (x.toNat + d) = bytesValue (code.take (g.out.length + 4))) (hdw : d < w.toNat)
    (hv : v = BitVec.ofNat 32 (d * 256 ^ r + bytesValue ((code.drop (g.out.length + 4)).take r))) :
    g'.lowEnd + v.toNat = bytesValue (code.take (g'.out.length + 4)) := by
  obtain ⟨hsplit, hnext⟩ := bytesValue_take_add hlen
  have hfits : d * 256 ^ r + bytesValue ((code.drop (g.out.length + 4)).take r) < 2 ^ 32 :=
    calc d * 256 ^ r + bytesValue ((code.drop (g.out.length + 4)).take r)
      _ < d * 256 ^ r + 256 ^ r := Nat.add_lt_add_left hnext _
      _ = (d + 1) * 256 ^ r := (Nat.succ_mul d _).symm
      _ ≤ w.toNat * 256 ^ r := Nat.mul_le_mul_right _ hdw
      _ = g'.length.toNat := hto.width.symm
      _ < 2 ^ 32 := g'.length.isLt
  have hprefix : g'.out.length + 4 = g.out.length + 4 + r := by rw [hto.outLength]; omega
  rw [hprefix, hsplit, hv, BitVec.toNat_ofNat, Nat.mod_eq_of_lt hfits, hto.lowEnd, ← hd]
  ring

/-- Beside an encoder that codes a symbol, a decoder finds it and narrows to the same interval (R189, R192). -/
theorem Tracks.decodeWith {code : List Byte} {g g' h : Engine} {n k r : Nat} {m : Model} (f : Idx)
    (ht : Tracks code g h) (hm : m.Ok n) (hk : k < n) (hg : acMinLength ≤ g.length)
    (hr : Rounds (narrowLength n m k g (m.distAt k * quotLength g)).toNat r)
    (hto : EncodedTo g (m.distAt k * quotLength g) (narrowLength n m k g (m.distAt k * quotLength g)) r g')
    (hcode : g'.Encloses code) (hshort : code.length < 2 ^ 32) :
    ∃ h', decodeWith f n h m = .ok (BitVec.ofNat 8 k, h', Model.adapt n m k) ∧ Tracks code g' h' := by
  obtain ⟨hlen, hlower, hupper⟩ := hto.inShare hcode
  have hvalue := ht.value
  have hstart : m.distAt k * quotLength g ≤ h.value := by
    rw [BitVec.le_def]
    omega
  have hoff := BitVec.toNat_sub_of_le hstart
  have hinside : (h.value - m.distAt k * quotLength g).toNat
      < (narrowLength n m k g (m.distAt k * quotLength g)).toNat := by omega
  have hq : quotLength h = quotLength g := by rw [quotLength, quotLength, ht.length]
  have hnarrow (y : Word) : narrowLength n m k h y = narrowLength n m k g y := by
    rw [narrowLength, narrowLength, ht.length, hq]
  have hfind : findSymbol m (quotLength h) h.value (n - 1) = k :=
    findSymbol_of_inShare hm hk (ht.length ▸ hg) (by rwa [hq]) (by rwa [hq, hnarrow])
  have hhand : h.inPtr.toNat + r ≤ h.input.length := by rwa [ht.inPtr, ht.input]
  obtain ⟨h', hh, hdec⟩ := decodeWith_decodedTo f hfind (by rwa [hq, hnarrow])
    ⟨by omega, .inl ⟨hhand, hhand.trans_lt (ht.input ▸ hshort)⟩⟩
  rw [hq, hnarrow] at hdec
  refine ⟨h', hh, by rw [hdec.onlyCoder, ht.input], ?_, ?_, BitVec.eq_of_toNat_eq (hdec.width.trans hto.width.symm)⟩
  · rw [hdec.inPtr, ht.inPtr, ht.input, hto.outLength]
    omega
  · have hnew := hdec.value hhand
    rw [ht.input, ht.inPtr] at hnew
    have hshare : h.value.toNat
        = (m.distAt k * quotLength g).toNat + (h.value - m.distAt k * quotLength g).toNat := by omega
    exact value_of_scaled hto hlen (hshare ▸ hvalue) hinside hnew

/-! ### Sequences of symbols -/

/-- A model slot after a write to one: the model written, or what it was. -/
theorem State.model_setModel_cases (s : State) (c d : Idx) (σ τ : Slot) (m : Model) :
    (τ = σ ∧ (s.setModel c σ m).model d τ = m) ∨ (s.setModel c σ m).model d τ = s.model d τ := by
  by_cases hd : d = c
  · subst hd
    by_cases hτ : τ = σ
    · subst hτ
      exact .inl ⟨rfl, s.model_setModel_same d τ m⟩
    · exact .inr (s.model_setModel_ne m hτ)
  · exact .inr (by rw [State.model, s.ctx_setModel_ne σ m hd, State.model])

/-- Engine `e` can encode `syms` from state `s`: it is a sound encoder with an unbounded buffer, and each symbol is in
the alphabet of a sound model. -/
structure CanEncode (e : Idx) (syms : List (Idx × Slot × Byte)) (s : State) : Prop where
  unbounded : s.build.outCapOf e = none
  encOk : (s.eng e).EncOk
  sound : ∀ x ∈ syms, (s.model x.1 x.2.1).Ok (slotSyms s.build.profile x.2.1)
    ∧ x.2.2.toNat < slotSyms s.build.profile x.2.1

theorem startEncoder_encOk (g : Engine) : (startEncoder g).EncOk where
  lengthGe := (by decide : acMinLength ≤ acMaxLength)
  room := by simp [startEncoder, Engine.lowEnd, bytesValue, acMaxLength]

theorem hasRoom_none (g : Engine) (n : Nat) : g.HasRoom none n := fun _ h => nomatch h

/-- Writing back a sound encoder and an adapted model keeps the rest of the symbols encodable. -/
theorem CanEncode.tail {e c : Idx} {σ : Slot} {k : Byte} {rest : List (Idx × Slot × Byte)} {s : State} {g : Engine}
    (h : CanEncode e ((c, σ, k) :: rest) s) (hg : g.EncOk) :
    CanEncode e rest ((s.setEng e g).setModel c σ
      (Model.adapt (slotSyms s.build.profile σ) (s.model c σ) k.toNat)) where
  unbounded := h.unbounded
  encOk := by simpa using hg
  sound := fun x hx => by
    obtain ⟨hm, hk⟩ := h.sound _ List.mem_cons_self
    obtain ⟨hmx, hkx⟩ := h.sound x (List.mem_cons_of_mem _ hx)
    refine ⟨?_, hkx⟩
    rcases (s.setEng e g).model_setModel_cases c x.1 σ x.2.1
      (Model.adapt (slotSyms s.build.profile σ) (s.model c σ) k.toNat) with ⟨hσ, heq⟩ | heq <;> rw [heq]
    · rw [hσ]
      exact hm.adapt (slotSyms_bounds _ σ).2 hk
    · exact hmx

/-- The decoding machine `d` beside the encoding machine `s`: the engines track, and the models are the same. -/
structure TracksState (code : List Byte) (e f : Idx) (s d : State) : Prop where
  engine : Tracks code (s.eng e) (d.eng f)
  ctxs : d.ctxs = s.ctxs
  profile : d.build.profile = s.build.profile

/-- Writing back engines that track and the same model keeps the machines beside each other. -/
theorem TracksState.write {code : List Byte} {e f : Idx} {s d : State} (h : TracksState code e f s d) (c : Idx)
    (σ : Slot) (m : Model) {g g' : Engine} (hg : Tracks code g g') :
    TracksState code e f ((s.setEng e g).setModel c σ m) ((d.setEng f g').setModel c σ m) where
  engine := by simpa using hg
  ctxs := by simp [State.setModel, State.setCtx, State.ctx, State.setEng, h.ctxs]
  profile := h.profile

theorem TracksState.model_eq {code : List Byte} {e f : Idx} {s d : State} (h : TracksState code e f s d) (c : Idx)
    (σ : Slot) : d.model c σ = s.model c σ := by
  simp only [State.model, State.ctx, h.ctxs]

/-- The first symbol of an encodable sequence is coded; if the code is in the interval after it, it was before, and a
decoder beside the encoder decodes it. -/
theorem encodeSymbol_decodes {e c : Idx} {σ : Slot} {k : Byte} {rest : List (Idx × Slot × Byte)} {s : State}
    (h : CanEncode e ((c, σ, k) :: rest) s) :
    ∃ t, encodeSymbol c e σ k s = .ok t ∧ CanEncode e rest t
      ∧ ∀ code, (t.eng e).Encloses code → (s.eng e).Encloses code
        ∧ (code.length < 2 ^ 32 → ∀ f d, TracksState code e f s d →
          ∃ u, decodeSymbol c f σ d = .ok (k, u) ∧ TracksState code e f t u) := by
  obtain ⟨hm, hk⟩ := h.sound _ List.mem_cons_self
  have hg := h.encOk
  obtain ⟨hwide, hin⟩ := narrow_bounds hm hk hg.lengthGe
  obtain ⟨r, hr⟩ := exists_rounds hwide
  obtain ⟨g, hcoded, hto⟩ := encodeWith_encodedTo hm hk hg hr (h.unbounded ▸ hasRoom_none _ r)
  refine ⟨_, encodeSymbol_eq_ok.mpr ⟨g, _, hcoded, rfl⟩, h.tail (hto.encOk hg hin), fun code hcode => ?_⟩
  rw [State.eng_setModel, State.eng_setEng_same] at hcode
  refine ⟨hto.encloses hin hcode, fun hshort f d hd => ?_⟩
  obtain ⟨g', hdecoded, ht⟩ := hd.engine.decodeWith f hm hk hg.lengthGe hr hto hcode hshort
  refine ⟨_, decodeSymbol_eq_ok.mpr ⟨g', _, ?_, rfl⟩, hd.write c σ _ ht⟩
  rw [hd.profile, hd.model_eq, hdecoded, BitVec.ofNat_toNat, BitVec.setWidth_eq]

/-- The same for the whole sequence. -/
theorem encodeSeq_decodes {e : Idx} {syms : List (Idx × Slot × Byte)} {s : State} (h : CanEncode e syms s) :
    ∃ t, encodeSeq e syms s = .ok t ∧ CanEncode e [] t
      ∧ ∀ code, (t.eng e).Encloses code → (s.eng e).Encloses code
        ∧ (code.length < 2 ^ 32 → ∀ f d, TracksState code e f s d →
          ∃ u, decodeSeq f (syms.map fun x => (x.1, x.2.1)) d = .ok (syms.map fun x => x.2.2, u)
            ∧ TracksState code e f t u) := by
  induction syms generalizing s with
  | nil => exact ⟨s, rfl, h, fun code hcode => ⟨hcode, fun _ f d hd => ⟨d, rfl, hd⟩⟩⟩
  | cons x rest ih =>
    obtain ⟨c, σ, k⟩ := x
    obtain ⟨s', hone, hs', hdec⟩ := encodeSymbol_decodes h
    obtain ⟨t, hrest, ht, hdecs⟩ := ih hs'
    refine ⟨t, by rw [encodeSeq, hone]; exact hrest, ht, fun code hcode => ?_⟩
    obtain ⟨hcode', hdecs'⟩ := hdecs code hcode
    obtain ⟨hcode'', hdec'⟩ := hdec code hcode'
    refine ⟨hcode'', fun hshort f d hd => ?_⟩
    obtain ⟨d', hd1, htrack⟩ := hdec' hshort f d hd
    obtain ⟨u, hu, htrack'⟩ := hdecs' hshort f d' htrack
    refine ⟨u, ?_, htrack'⟩
    simp only [List.map_cons, decodeSeq, hd1, attempt_ok_bind, hu]

/-- Settles O29: the end of the stream puts the code in the last interval, so it is in every interval before, and the
decoder tracks the encoder from `DEC_INIT` to the last symbol. -/
theorem coderRoundTrip : Obligations.CoderRoundTrip := by
  intro s e syms hcap hsyms
  have hstart : CanEncode e syms (s.setEng e (startEncoder (s.eng e))) :=
    ⟨hcap, by simpa using startEncoder_encOk (s.eng e), hsyms⟩
  obtain ⟨t, ht, hfinal, hdecodes⟩ := encodeSeq_decodes hstart
  obtain ⟨g, hg, hlen, hcode⟩ := flushWith_encloses hfinal.encOk (hasRoom_none _ 4)
  refine ⟨t, g, ht, hcap ▸ hg, fun d f hctxs hprofile hinput hptr hshort => ?_⟩
  obtain ⟨h, hh, htrack⟩ := startDecoder_tracks f (g := s.eng e) hptr (by rw [hinput, hlen]; omega)
  rw [hinput] at htrack
  obtain ⟨u, hu, hend⟩ := (hdecodes g.out hcode).2 hshort f (d.setEng f h)
    ⟨by simpa using htrack, hctxs, hprofile⟩
  refine ⟨h, u, hh, hu, hend.ctxs, ?_⟩
  rw [hend.engine.inPtr, hlen]

end Sys2Proof.Machine
end

