-- ==== Sys2Proof/Proofs/NeverStops.lean ====
section
/-! A sound machine never stops (41_coder.md R171, R181, R189; 60_exceptions.md R307). A command could stop it only by a
renormalisation without end, which the safe stops of `work_meets` exclude; every other access gives a next state. -/

namespace Sys2Proof.Machine

/-- The outcome is a next state. -/
def Steps (o : Host.Outcome State Fault Refusal) : Prop := ∃ t, o = .next t

theorem steps_next (t : State) : Steps (.next t) := ⟨t, rfl⟩

theorem exec_steps (i : Instr) {s : State} (hs : s.PartsOk) : Steps (exec i s) := by
  rw [exec_eq_finish_attempt]
  refine (finish_cases s (attempt i s)).resolve_right fun ⟨hdiverge, _⟩ => ?_
  exact ((attempt_meets i hs).of_error hdiverge).ends rfl

theorem runWord_steps (w : Word) {s : State} (hs : s.PartsOk) : Steps (runWord w s) := by
  unfold runWord
  split
  · exact exec_steps _ hs
  · exact ⟨_, finish_error s _⟩

theorem issue_steps (w : Word) {s : State} (hs : s.PartsOk) : Steps (issue w s) := by
  unfold issue
  split
  · exact steps_next _
  · exact runWord_steps w (hs.congr rfl rfl rfl)

theorem reattempt_steps {s : State} (hs : s.PartsOk) : Steps (reattempt s) := by
  unfold reattempt
  split
  · exact runWord_steps _ hs
  · exact steps_next _

theorem writeReg_steps (r : Reg) (off : BitVec 12) (v : Word) {s : State} (hs : s.Inv) :
    Steps (writeReg r off v s) := by
  unfold writeReg
  split
  case h_1 => exact issue_steps v hs.partsOk
  case h_8 e => exact reattempt_steps (pushByte_keeps_inv hs).partsOk
  case h_9 e => exact reattempt_steps (hs.partsOk.setEng (controlInput_ok (hs.engOk e) v))
  all_goals exact steps_next _

theorem hostWrite_steps (off : BitVec 12) (width : Width) (v : Word) {s : State} (hs : s.Inv) :
    Steps (hostWrite off width v s) := by
  unfold hostWrite
  split
  · split
    · exact writeReg_steps _ off v hs
    · exact steps_next _
  · exact steps_next _

theorem perform_steps (a : Access) {s : State} (hs : s.Inv) : Steps (perform a s) := by
  cases a with
  | reset => exact steps_next _
  | read addr width =>
    unfold perform
    dsimp only
    split <;> exact steps_next _
  | write addr width v =>
    unfold perform
    dsimp only
    split
    · exact hostWrite_steps _ width v hs
    · exact steps_next _

/-- Settles O59: the step is idle, or performs one access. -/
theorem soundMachineNeverStops : Obligations.SoundMachineNeverStops := by
  intro s hs
  unfold step
  split
  · exact steps_next s
  · exact perform_steps _ ⟨hs.ctxOk, hs.engOk, hs.heldOk, hs.errorsOk.congr rfl⟩

end Sys2Proof.Machine
end

