-- ==== Sys2Proof/Proofs/ChangeMasks.lean ====
section
/-! The change masks bit by bit (42_color_context.md R210, R211; 43_nir_context.md R251), the number of symbols a mask
stands for, and the `RES0` word that shows both (10_state.md R47). -/

namespace Sys2Proof.Machine

/-! ### Bits -/

theorem getLsbD_byteBit (b : Bool) (k i : Nat) :
    (byteBit b k).getLsbD i = (b && decide (k < 8) && decide (k = i)) := by
  cases b with
  | false => simp [byteBit]
  | true => rw [byteBit, if_pos rfl, ← BitVec.twoPow_eq, BitVec.getLsbD_twoPow, Bool.true_and]

/-- A value is its two halves. -/
theorem half_eq_iff {v w : Half} : v = w ↔ lo8 v = lo8 w ∧ hi8 v = hi8 w where
  mp := fun h => h ▸ ⟨rfl, rfl⟩
  mpr := fun ⟨hlo, hhi⟩ => by rw [← join_hi8_lo8 v, ← join_hi8_lo8 w, hlo, hhi]

/-! ### The colour mask -/

/-- What each bit of the colour mask compares (R210). -/
def colorBit (l p : Rgb) : Nat → Bool
  | 0 => lo8 l.r != lo8 p.r
  | 1 => hi8 l.r != hi8 p.r
  | 2 => lo8 l.g != lo8 p.g
  | 3 => hi8 l.g != hi8 p.g
  | 4 => lo8 l.b != lo8 p.b
  | 5 => hi8 l.b != hi8 p.b
  | 6 => lo8 p.r != lo8 p.g || lo8 p.r != lo8 p.b || hi8 p.r != hi8 p.g || hi8 p.r != hi8 p.b
  | _ => false

theorem getLsbD_colorMask (l p : Rgb) (i : Nat) : (colorMask l p).getLsbD i = colorBit l p i := by
  simp only [colorMask, BitVec.getLsbD_or, getLsbD_byteBit]
  match i with
  | 0 | 1 | 2 | 3 | 4 | 5 | 6 => simp [colorBit]
  | i + 7 => simp [colorBit]

/-- Bit 6 compares the halves of the new point, so it is clear iff its values are equal (R211). -/
theorem colorBit_six_eq_false (l p : Rgb) : colorBit l p 6 = false ↔ p.r = p.g ∧ p.g = p.b := by
  simp only [colorBit, Bool.or_eq_false_iff, bne_eq_false_iff_eq, half_eq_iff]
  constructor
  · rintro ⟨⟨⟨hgl, hbl⟩, hgh⟩, hbh⟩
    exact ⟨⟨hgl, hgh⟩, hgl.symm.trans hbl, hgh.symm.trans hbh⟩
  · rintro ⟨⟨hgl, hgh⟩, hbl, hbh⟩
    exact ⟨⟨⟨hgl, hgl.trans hbl⟩, hgh⟩, hgh.trans hbh⟩

/-! ### The near-infrared mask -/

/-- What each bit of the near-infrared mask compares (43_nir_context.md R251). -/
def nirBit (l v : Half) : Nat → Bool
  | 0 => lo8 l != lo8 v
  | 1 => hi8 l != hi8 v
  | _ => false

theorem getLsbD_nirMask (l v : Half) (i : Nat) : (nirMask l v).getLsbD i = nirBit l v i := by
  simp only [nirMask, BitVec.getLsbD_or, getLsbD_byteBit]
  match i with
  | 0 | 1 => simp [nirBit]
  | i + 2 => simp [nirBit]

theorem toNat_nirMask (l v : Half) :
    (nirMask l v).toNat = (if lo8 l = lo8 v then 0 else 1) + (if hi8 l = hi8 v then 0 else 2) := by
  have bits (low high : Bool) : (byteBit (!low) 0 ||| byteBit (!high) 1).toNat
      = (if low then 0 else 1) + (if high then 0 else 2) := by
    revert low high
    decide
  simpa [nirMask, bne] using bits (lo8 l == lo8 v) (hi8 l == hi8 v)

/-- Settles O31: each bit of a mask is the comparison put at its place. -/
theorem changeMaskBits : Obligations.ChangeMaskBits := by
  refine ⟨fun l p => ?_, toNat_nirMask⟩
  have bit := getLsbD_colorMask l p
  exact ⟨bit 0, bit 1, bit 2, bit 3, bit 4, bit 5, bit 6 ▸ colorBit_six_eq_false l p, toNat_colorMask_lt l p⟩

/-! ### The number of symbols, and `RES0` -/

theorem maskOne_le (m : Byte) (i : Nat) : maskOne m i ≤ 1 := by
  unfold maskOne
  split <;> omega

theorem rgbCount_le (m : Byte) : rgbCount m ≤ 7 := by
  have h (i : Nat) := maskOne_le m i
  have h0 := h 0
  have h1 := h 1
  have h2 := h 2
  have h3 := h 3
  have h4 := h 4
  have h5 := h 5
  unfold rgbCount
  split <;> omega

/-- The three fields of `RES0` do not overlap (10_state.md R47). -/
theorem res0Point_eq_ofNat {ns : Nat} (hns : ns < 2 ^ 20) (m : Byte) :
    res0Point ns m = BitVec.ofNat 32 (0x1000 * ns + (if m = 0 then 0 else 0x100) + m.toNat) := by
  have hm := m.isLt
  have hmask : (m.setWidth 32).toNat = m.toNat := by simp; omega
  have hcount : (BitVec.ofNat 32 ns).toNat = ns := by simp; omega
  have hchanged : (m.setWidth 32 ||| wordBit (m != 0) 8).toNat = m.toNat + if m = 0 then 0 else 0x100 := by
    rw [toNat_or_wordBit (by omega) (by decide), hmask]
    by_cases h : m = 0 <;> simp [h]
  have hbelow : (if m = 0 then 0 else 0x100) ≤ 0x100 := by split <;> decide
  apply BitVec.eq_of_toNat_eq
  rw [res0Point, BitVec.or_assoc, BitVec.or_comm, BitVec.or_comm (wordBit _ _),
    toNat_or_shiftLeft (by omega) (by omega), hchanged, hcount, BitVec.toNat_ofNat]
  omega

end Sys2Proof.Machine
end

