-- ==== Sys2Proof/Proofs/PointSymbols.lean ====
section
/-! The symbols of a point or a near-infrared value (42_color_context.md R213, R214, R220, R228, R232;
43_nir_context.md R252) and their decoding. A correction undoes itself on its basis, and a half without a correction is
the last one; so a decoder that finds the symbols, one list after the other, rebuilds every half (R230, R253). -/

namespace Sys2Proof.Machine

/-! ### Symbols in wire order -/

theorem length_symbolIf (m : Byte) (i : Nat) (σ : Slot) (k : Byte) :
    (symbolIf (m.getLsbD i) σ k).length = maskOne m i := by
  cases h : m.getLsbD i <;> simp [symbolIf, maskOne, h]

/-- Settles O32: with bit 6 the four lists of Green and Blue follow in the profile's order, without it none does. -/
theorem pointSymbolsInWireOrder : Obligations.PointSymbolsInWireOrder := by
  intro l p
  cases hbit : (colorMask l p).getLsbD 6 with
  | true =>
    simp only [rgbSymbols, hbit, if_true, chromaSymbols, List.cons_append, List.append_assoc, Bool.true_and]
    exact ⟨rfl, rfl⟩
  | false =>
    simp only [rgbSymbols, hbit, Bool.false_eq_true, if_false, Bool.false_and, List.append_nil]
    exact ⟨rfl, rfl⟩

/-- As many symbols as `READ_RGB` counts from the mask alone (R226). -/
theorem length_rgbSymbols (pr : Profile) (l p : Rgb) : (rgbSymbols pr l p).length = rgbCount (colorMask l p) := by
  have chroma : (chromaSymbols pr (colorMask l p) l p).length = maskOne (colorMask l p) 2 + maskOne (colorMask l p) 3
      + maskOne (colorMask l p) 4 + maskOne (colorMask l p) 5 := by
    cases pr with
    | doc => simp only [chromaSymbols, List.length_append, length_symbolIf]
    | laszip =>
      simp only [chromaSymbols, List.length_append, length_symbolIf]
      omega
  rw [rgbSymbols, rgbCount]
  simp only [List.cons_append, List.length_cons, List.length_append, length_symbolIf]
  split
  · omega
  · simp only [List.length_nil]
    omega

theorem length_nirSymbols (l v : Half) : (nirSymbols l v).length = nirCount (nirMask l v) := by
  simp only [nirSymbols, nirCount, List.cons_append, List.length_cons, List.length_append, length_symbolIf]
  omega

/-! ### Corrections -/

/-- Unfolding undoes folding (R230). -/
theorem fold_fold_sub_add (a b : Byte) : fold ((fold ((b.toNat : Int) - a.toNat)).toNat + a.toNat) = b := by
  have hb := b.isLt
  have hinner := toNat_fold ((b.toNat : Int) - a.toNat)
  have houter := toNat_fold ((fold ((b.toNat : Int) - a.toNat)).toNat + a.toNat)
  apply BitVec.eq_of_toNat_eq
  omega

theorem uncorrect_correction (new basis : Byte) : uncorrect (correction new basis) basis = new :=
  fold_fold_sub_add basis new

/-! ### Finding symbols -/

/-- Decoding through the slots of `syms`, in order, from `s` finds their symbols and ends in `u`. -/
def Finds (c e : Idx) (syms : List (Slot × Byte)) (s u : State) : Prop :=
  decodeSeq e (syms.map fun x => (c, x.1)) s = .ok (syms.map fun x => x.2, u)

section
variable {c e : Idx} {s u : State}

theorem finds_nil : Finds c e [] s u ↔ s = u := by
  simp [Finds, decodeSeq]

theorem finds_cons {σ : Slot} {k : Byte} {syms : List (Slot × Byte)} :
    Finds c e ((σ, k) :: syms) s u ↔ ∃ t, decodeSymbol c e σ s = .ok (k, t) ∧ Finds c e syms t u := by
  simp only [Finds, List.map_cons, decodeSeq, attempt_bind_eq_ok, Prod.exists, Except.ok.injEq, Prod.mk.injEq,
    List.cons.injEq]
  constructor
  · rintro ⟨_, t, hone, _, _, hrest, ⟨rfl, rfl⟩, rfl⟩
    exact ⟨t, hone, hrest⟩
  · rintro ⟨t, hone, hrest⟩
    exact ⟨_, t, hone, _, _, hrest, ⟨rfl, rfl⟩, rfl⟩

/-- The symbols of one half, then the rest: the half is rebuilt, corrected or as it was. -/
theorem Finds.decodeHalf {on : Bool} {σ : Slot} {new basis last : Byte} {rest : List (Slot × Byte)}
    (h : Finds c e (symbolIf on σ (correction new basis) ++ rest) s u) (hon : on = (last != new)) :
    ∃ t, decodeHalf c e on σ basis last s = .ok (new, t) ∧ Finds c e rest t u := by
  cases on with
  | false =>
    have hkeep : last = new := by simpa using hon
    exact ⟨s, by rw [hkeep]; rfl, h⟩
  | true =>
    obtain ⟨t, hone, hrest⟩ := finds_cons.mp h
    refine ⟨t, ?_, hrest⟩
    simp only [Machine.decodeHalf, if_true, hone, attempt_ok_bind, uncorrect_correction]

/-- Where Green and Blue are coded, they are rebuilt, with Red already known. -/
theorem Finds.decodeChroma {pr : Profile} {l p : Rgb} (h : Finds c e (chromaSymbols pr (colorMask l p) l p) s u) :
    decodeChroma c e pr (colorMask l p) l p.r s = .ok (p, u) := by
  have bit := getLsbD_colorMask l p
  rw [← List.append_nil (chromaSymbols _ _ _ _)] at h
  cases pr with
  | doc =>
    simp only [chromaSymbols, List.append_assoc] at h
    obtain ⟨s1, h1, h⟩ := h.decodeHalf (bit 2)
    obtain ⟨s2, h2, h⟩ := h.decodeHalf (bit 3)
    obtain ⟨s3, h3, h⟩ := h.decodeHalf (bit 4)
    obtain ⟨s4, h4, h⟩ := h.decodeHalf (bit 5)
    cases finds_nil.mp h
    simp only [Machine.decodeChroma, h1, h2, h3, h4, attempt_ok_bind, join_hi8_lo8]
  | laszip =>
    simp only [chromaSymbols, List.append_assoc] at h
    obtain ⟨s1, h1, h⟩ := h.decodeHalf (bit 2)
    obtain ⟨s2, h2, h⟩ := h.decodeHalf (bit 4)
    obtain ⟨s3, h3, h⟩ := h.decodeHalf (bit 3)
    obtain ⟨s4, h4, h⟩ := h.decodeHalf (bit 5)
    cases finds_nil.mp h
    simp only [Machine.decodeChroma, h1, h2, h3, h4, attempt_ok_bind, join_hi8_lo8]

/-- A decoder that finds the symbols of a point rebuilds it; a grey point from its Red alone (R215). -/
theorem Finds.decodeRgb {pr : Profile} {l p : Rgb} (h : Finds c e (rgbSymbols pr l p) s u) :
    decodeRgb c e pr l s = .ok (colorMask l p, p, u) := by
  have bit := getLsbD_colorMask l p
  simp only [rgbSymbols, List.cons_append, List.append_assoc] at h
  obtain ⟨s1, h1, h⟩ := finds_cons.mp h
  obtain ⟨s2, h2, h⟩ := h.decodeHalf (bit 0)
  obtain ⟨s3, h3, h⟩ := h.decodeHalf (bit 1)
  simp only [Machine.decodeRgb, h1, h2, h3, attempt_ok_bind, join_hi8_lo8]
  cases hgrey : (colorMask l p).getLsbD 6 with
  | true =>
    rw [hgrey, if_pos rfl] at h
    simp only [if_true, h.decodeChroma, attempt_ok_bind]
  | false =>
    rw [hgrey] at h
    cases finds_nil.mp h
    obtain ⟨hg, hb⟩ := (colorBit_six_eq_false l p).mp (bit 6 ▸ hgrey)
    have hp : (⟨p.r, p.r, p.r⟩ : Rgb) = p := congrArg₂ (Rgb.mk p.r) hg (hg.trans hb)
    simp only [Bool.false_eq_true, if_false, hp]

theorem Finds.decodeNir {l v : Half} (h : Finds c e (nirSymbols l v) s u) :
    decodeNir c e l s = .ok (nirMask l v, v, u) := by
  have bit := getLsbD_nirMask l v
  rw [← List.append_nil (nirSymbols _ _)] at h
  simp only [nirSymbols, List.cons_append, List.append_assoc] at h
  obtain ⟨s1, h1, h⟩ := finds_cons.mp h
  obtain ⟨s2, h2, h⟩ := h.decodeHalf (bit 0)
  obtain ⟨s3, h3, h⟩ := h.decodeHalf (bit 1)
  cases finds_nil.mp h
  simp only [Machine.decodeNir, h1, h2, h3, attempt_ok_bind, join_hi8_lo8]

end

/-- Settles O38: half by half, in the order the symbols were coded. -/
theorem pointDecodingInvertsEncoding : Obligations.PointDecodingInvertsEncoding :=
  ⟨fold_fold_sub_add, fun _ _ _ _ pr l p h => ⟨Finds.decodeRgb h, (length_rgbSymbols pr l p).symm⟩,
    fun _ _ _ _ l v h => ⟨Finds.decodeNir h, (length_nirSymbols l v).symm⟩⟩

end Sys2Proof.Machine
end

