-- ==== Sys2Proof/Proofs/PointCommands.lean ====
section
/-! The commands of the colour context that complete (42_color_context.md R212, R220, R226). A symbol takes at most two
bytes, so a state with room, or with input, for `n` more symbols has it for the rest after each; what a list of symbols
needs is read off its length. -/

namespace Sys2Proof.Machine

/-! ### `INIT_POINT` -/

theorem argRgb_of_held_none {s : State} (h : s.held = none) : argRgb s = ⟨s.argR, s.argG, s.argB⟩ := by
  rw [argRgb, h]

theorem argNir_of_held_none {s : State} (h : s.held = none) : argNir s = s.argN := by
  rw [argNir, h]

theorem firstError_initPoint {s : State} {c : Idx} (hc : s.build.hasCtx c = true) :
    firstError (.initPoint c) s = none :=
  firstError_eq_none.mpr ⟨hc, rfl, rfl, rfl, rfl⟩

/-- What seeding leaves beside the models. -/
theorem seedContext_eq (p : Profile) (k : Kind) (rgb : Rgb) (nir : Half) (x : Context) :
    seedContext p k rgb nir x = { x with
      lastR := rgb.r, lastG := rgb.g, lastB := rgb.b
      lastN := if k = .colorNir then nir else x.lastN
      unused := false, phase := .seeded, models := (seedContext p k rgb nir x).models } := by
  cases k <;> rfl

/-- Settles O33: the work of `INIT_POINT` is one write of its context, seeded. -/
theorem initPointSeedsTheContext : Obligations.InitPointSeedsTheContext := by
  intro s c hheld hc
  have model (σ : Slot) := seedContext_model s.build.profile (s.build.kind c) (argRgb s) (argNir s) (s.ctx c) σ
  refine ⟨s.setCtx c _, exec_of_work_ok_of_none hheld (firstError_initPoint hc) rfl, fun σ hσ => ?_, fun σ hσ => ?_, ?_,
    fun c' hne => s.ctx_setCtx_ne _ hne, rfl⟩
  · rw [State.model, State.ctx_setCtx_same, model, if_pos hσ]
  · rw [State.model, State.ctx_setCtx_same, model, if_neg (Nat.not_lt.mpr hσ), State.model]
  · rw [State.ctx_setCtx_same, argRgb_of_held_none hheld, argNir_of_held_none hheld]
    exact seedContext_eq ..

/-! ### Writing a symbol's model back -/

/-- A sound model written back leaves sound models. -/
theorem Context.ModelsOk.setModel {p : Profile} {k : Kind} {x : Context} (h : x.ModelsOk p k) (σ : Slot) {m : Model}
    (hm : m.Ok (slotSyms p σ)) : (x.setModel σ m).ModelsOk p k := fun τ hτ => by
  by_cases hστ : τ = σ
  · subst hστ
    rwa [Context.model_setModel_same]
  · rw [x.model_setModel_ne m hστ]
    exact h τ hτ

/-! ### Encoding with room -/

/-- State `s` of build `b` can code `n` more symbols through context `c` on engine `e`. -/
structure CanCode (b : Build) (c e : Idx) (n : Nat) (s : State) : Prop where
  build : s.build = b
  models : (s.ctx c).ModelsOk b.profile (b.kind c)
  encOk : (s.eng e).EncOk
  room : (s.eng e).HasRoom (b.outCapOf e) (2 * n)

section
variable {b : Build} {c e : Idx} {n : Nat} {s : State}

/-- A symbol of its slot's alphabet is coded. -/
theorem CanCode.encodeSymbol (h : CanCode b c e (n + 1) s) {σ : Slot} {k : Byte} (hσ : σ.val < slotCount (b.kind c))
    (hk : k.toNat < slotSyms b.profile σ) : ∃ t, encodeSymbol c e σ k s = .ok t ∧ CanCode b c e n t := by
  obtain ⟨rfl, hmodels, hg, hroom⟩ := h
  have hm := hmodels σ hσ
  obtain ⟨hwide, hinside⟩ := narrow_bounds hm hk hg.lengthGe
  obtain ⟨r, hr⟩ := exists_rounds hwide
  have hfew := hr.few
  obtain ⟨g, hcoded, hto⟩ := encodeWith_encodedTo hm hk hg hr (hroom.mono (by omega))
  refine ⟨_, encodeSymbol_eq_ok.mpr ⟨g, _, hcoded, rfl⟩, rfl, ?_, ?_, ?_⟩
  · rw [State.ctx_setModel_same]
    exact hmodels.setModel σ (hm.adapt (slotSyms_bounds _ σ).2 hk)
  · rw [State.eng_setModel, State.eng_setEng_same]
    exact hto.encOk hg hinside
  · rw [State.eng_setModel, State.eng_setEng_same]
    exact hroom.of_outLength (by rw [hto.outLength]; omega)

theorem CanCode.encodeAll {syms : List (Slot × Byte)} (h : CanCode b c e (n + syms.length) s)
    (hsyms : ∀ x ∈ syms, x.1.val < slotCount (b.kind c) ∧ x.2.toNat < slotSyms b.profile x.1) :
    ∃ u, encodeAll c e syms s = .ok u ∧ CanCode b c e n u := by
  induction syms generalizing s with
  | nil => exact ⟨s, rfl, h⟩
  | cons x rest ih =>
    obtain ⟨hσ, hk⟩ := hsyms x List.mem_cons_self
    obtain ⟨t, hone, ht⟩ := CanCode.encodeSymbol h hσ hk
    obtain ⟨u, hrest, hu⟩ := ih ht fun y hy => hsyms y (List.mem_cons_of_mem _ hy)
    exact ⟨u, by rw [Machine.encodeAll, hone]; exact hrest, hu⟩

end

/-- Settles O34: at most seven symbols of two bytes each, in the alphabets of the colour slots. -/
theorem writeRgbCodesThePoint : Obligations.WriteRgbCodesThePoint := by
  intro s c e hheld hc he hx hmode hmodels henc hroom p m
  have hcount : (rgbSymbols s.build.profile (s.lastRgb c) p).length ≤ 7 :=
    (length_rgbSymbols ..).trans_le (rgbCount_le m)
  have hcan : CanCode s.build c e (0 + (rgbSymbols s.build.profile (s.lastRgb c) p).length) s :=
    ⟨rfl, hmodels, henc, hroom.mono (by omega)⟩
  obtain ⟨u, hu, hcan'⟩ := hcan.encodeAll fun x hx =>
    ⟨(rgbSymbols_slot hx).trans_le (seven_le_slotCount _), rgbSymbols_lt hx⟩
  obtain ⟨honly, hframe⟩ := encodeAll_onlyCoded (P := (·.val < 7)) (fun _ hx => rgbSymbols_slot hx) hu
  have hheld' : u.held = none := by rw [honly.registers, hheld]
  refine ⟨u, hu, exec_of_work_ok_of_none hheld' (firstError_writeRgb hc he hx hmode) ?_, honly, hframe, hcan'.encOk,
    hcan'.models⟩
  rw [work, argRgb_of_held_none hheld, hu, attempt_ok_bind,
    res0Point_eq_ofNat (Nat.lt_of_le_of_lt hcount (by decide))]

/-! ### Decoding with input -/

/-- State `s` of build `b` can decode `n` more symbols through context `c` on engine `e`. -/
structure CanDecode (b : Build) (c e : Idx) (n : Nat) (s : State) : Prop where
  build : s.build = b
  models : (s.ctx c).ModelsOk b.profile (b.kind c)
  lengthGe : acMinLength ≤ (s.eng e).length
  readable : (s.eng e).Readable (2 * n)

theorem CanDecode.mono {b : Build} {c e : Idx} {i j : Nat} {s : State} (h : CanDecode b c e j s) (hij : i ≤ j) :
    CanDecode b c e i s :=
  ⟨h.build, h.models, h.lengthGe, h.readable.mono (by omega)⟩

/-- A symbol that takes `r` bytes leaves the bytes after them to be read. -/
theorem DecodedTo.readable {g h : Engine} {x w : Word} {r j : Nat} (a : DecodedTo g x w r h)
    (hg : g.Readable (r + j)) : h.Readable j := by
  have hinput : h.input = g.input := by rw [a.onlyCoder]
  have heos : h.eos = g.eos := by rw [a.onlyCoder]
  refine ⟨?_, ?_⟩ <;> rw [a.inPtr, hinput]
  · exact min_le_right _ _
  · rw [heos]
    exact hg.bytes.imp_left fun ⟨hhand, hptr⟩ => by omega

/-- An attempt that never stops completes. -/
theorem Meets.exists_ok {α : Type} {P : α → Prop} {a : Attempt α} (h : Meets a P fun _ => False) :
    ∃ x, a = .ok x ∧ P x := by
  cases a with
  | ok x => exact ⟨x, rfl, h⟩
  | error y => exact h.elim

/-- The attempt completes, in a state that can decode `n` more symbols. -/
def Decodes {α : Type} (b : Build) (c e : Idx) (n : Nat) (a : Attempt (α × State)) : Prop :=
  Meets a (fun r => CanDecode b c e n r.2) fun _ => False

section
variable {b : Build} {c e : Idx} {n : Nat} {s : State}

theorem CanDecode.decodeSymbol (h : CanDecode b c e (n + 1) s) {σ : Slot} (hσ : σ.val < slotCount (b.kind c)) :
    Decodes b c e n (decodeSymbol c e σ s) := by
  obtain ⟨rfl, hmodels, hg, hread⟩ := h
  have hm := hmodels σ hσ
  obtain ⟨hn1, hn⟩ := slotSyms_bounds s.build.profile σ
  obtain ⟨k, hfind⟩ : ∃ k, findSymbol (s.model c σ) (quotLength (s.eng e)) (s.eng e).value
      (slotSyms s.build.profile σ - 1) = k := ⟨_, rfl⟩
  have hk : k < slotSyms s.build.profile σ := by
    have := findSymbol_le (s.model c σ) (quotLength (s.eng e)) (s.eng e).value (slotSyms s.build.profile σ - 1)
    omega
  obtain ⟨r, hr⟩ := exists_rounds (narrow_bounds hm hk hg).1
  have hfew := hr.few
  obtain ⟨g, hcoded, hto⟩ := decodeWith_decodedTo e hfind hr (hread.mono (by omega))
  rw [Decodes, decodeSymbol_eq_ok.mpr ⟨g, _, hcoded, rfl⟩]
  refine ⟨rfl, ?_, ?_, ?_⟩
  · rw [State.ctx_setModel_same]
    exact hmodels.setModel σ (hm.adapt hn hk)
  · rw [State.eng_setModel, State.eng_setEng_same]
    exact hto.widthGe
  · rw [State.eng_setModel, State.eng_setEng_same]
    exact hto.readable (hread.mono (by omega))

theorem CanDecode.decodeHalf (h : CanDecode b c e (n + 1) s) {σ : Slot} (hσ : σ.val < slotCount (b.kind c))
    {on : Bool} {basis last : Byte} : Decodes b c e n (decodeHalf c e on σ basis last s) := by
  cases on with
  | false => exact h.mono (Nat.le_succ n)
  | true => exact (CanDecode.decodeSymbol h hσ).bind fun _ ht => ht

/-- Every colour slot exists in a context of either kind. -/
theorem colour_lt_slotCount {σ : Slot} (hσ : σ.val < 7) (k : Kind) : σ.val < slotCount k :=
  hσ.trans_le (seven_le_slotCount k)

theorem CanDecode.decodeColourHalf (h : CanDecode b c e (n + 1) s) {σ : Slot} (hσ : σ.val < 7) {on : Bool}
    {basis last : Byte} : Decodes b c e n (Machine.decodeHalf c e on σ basis last s) :=
  CanDecode.decodeHalf h (colour_lt_slotCount hσ _)

theorem CanDecode.decodeChroma (h : CanDecode b c e (n + 4) s) (pr : Profile) (m : Byte) (l : Rgb) (r : Half) :
    Decodes b c e n (decodeChroma c e pr m l r s) := by
  cases pr with
  | doc | laszip =>
    exact (h.decodeColourHalf (by decide)).bind fun _ h1 => (h1.decodeColourHalf (by decide)).bind fun _ h2 =>
      (h2.decodeColourHalf (by decide)).bind fun _ h3 => (h3.decodeColourHalf (by decide)).bind fun _ h4 => h4

/-- A point takes at most seven symbols. -/
theorem CanDecode.decodeRgb (h : CanDecode b c e (n + 7) s) (pr : Profile) (l : Rgb) :
    Meets (decodeRgb c e pr l s) (fun r => CanDecode b c e n r.2.2) fun _ => False := by
  refine (CanDecode.decodeSymbol h (colour_lt_slotCount (by decide) _)).bind fun _ h1 => ?_
  refine (h1.decodeColourHalf (by decide)).bind fun _ h2 => (h2.decodeColourHalf (by decide)).bind fun _ h3 => ?_
  dsimp only
  split
  · exact (CanDecode.decodeChroma h3 ..).bind fun _ h4 => h4
  · exact h3.mono (by omega)

end

/-- With bit 6 of the decoded mask clear, Green and Blue are Red (R215). -/
theorem decodeRgb_grey {c e : Idx} {pr : Profile} {l p : Rgb} {m : Byte} {s u : State}
    (h : decodeRgb c e pr l s = .ok (m, p, u)) (hm : m.getLsbD 6 = false) : p.g = p.r ∧ p.b = p.r := by
  simp only [decodeRgb, attempt_bind_eq_ok] at h
  obtain ⟨⟨m', s1⟩, -, ⟨rl, s2⟩, -, ⟨rh, s3⟩, -, h⟩ := h
  split at h
  · rename_i hset
    obtain ⟨_, -, h⟩ := attempt_bind_eq_ok.mp h
    cases h
    exact absurd hset (ne_true_of_eq_false hm)
  · cases h
    exact ⟨rfl, rfl⟩

/-- Settles O35: at most seven symbols of two bytes each, through the colour slots. -/
theorem readRgbDecodesThePoint : Obligations.ReadRgbDecodesThePoint := by
  intro s c e hc he hx hmode hmodels hlen hserves
  have hcan : CanDecode s.build c e (0 + 7) s := ⟨rfl, hmodels, hlen, hserves.readable⟩
  obtain ⟨⟨m, p, u⟩, hu, hcan'⟩ := (hcan.decodeRgb s.build.profile (s.lastRgb c)).exists_ok
  obtain ⟨honly, hframe⟩ := decodeRgb_onlyCoded hu
  refine ⟨m, p, u, hu, ?_, decodeRgb_grey hu, honly, hframe, hcan'.lengthGe, hcan'.models⟩
  rw [← res0Point_eq_ofNat (Nat.lt_of_le_of_lt (rgbCount_le m) (by decide))]
  exact exec_of_work_ok (firstError_readRgb hc he hx hmode) (by rw [work, hu]; rfl)

end Sys2Proof.Machine
end

