-- ==== Sys2Proof/Proofs/NirCommands.lean ====
section
/-! The near-infrared commands that complete (43_nir_context.md R252, R256). A COLOR_NIR context has every slot, and a
value takes at most three symbols through them. -/

namespace Sys2Proof.Machine

/-! ### The symbols of a value -/

/-- Folding a difference of bytes subtracts them. -/
theorem correction_eq_sub (new basis : Byte) : correction new basis = new - basis := by
  apply BitVec.eq_of_toNat_eq
  have hfold := toNat_fold (delta new basis)
  have hsub := BitVec.toNat_sub new basis
  have hbasis := basis.isLt
  rw [delta] at hfold
  rw [correction, delta]
  omega

/-- The symbols of R252 and R254, written out. -/
theorem nirSymbols_eq (l v : Half) : nirSymbols l v =
    [((7 : Slot), nirMask l v)]
      ++ (if (nirMask l v).getLsbD 0 then [((8 : Slot), lo8 v - lo8 l)] else [])
      ++ (if (nirMask l v).getLsbD 1 then [((9 : Slot), hi8 v - hi8 l)] else []) := by
  rw [nirSymbols, correction_eq_sub, correction_eq_sub]
  rfl

theorem nirCount_le (m : Byte) : nirCount m ≤ 3 := by
  have hlow := maskOne_le m 0
  have hhigh := maskOne_le m 1
  unfold nirCount
  omega

theorem length_nirSymbols_le (l v : Half) : (nirSymbols l v).length ≤ 3 :=
  (length_nirSymbols l v).trans_le (nirCount_le _)

/-- A COLOR_NIR context has every slot (10_state.md R52). -/
theorem lt_slotCount_of_colorNir {k : Kind} (hk : k = .colorNir) (σ : Slot) : σ.val < slotCount k :=
  hk ▸ σ.isLt

/-! ### The commands -/

/-- Settles O36: at most three symbols of two bytes each, in the alphabets of their slots. -/
theorem writeNirCodesTheValue : Obligations.WriteNirCodesTheValue := by
  intro s c e hheld hc he hk hx hmode hmodels henc hroom l m syms
  have hcount := length_nirSymbols_le l s.argN
  have hcan : CanCode s.build c e (0 + (nirSymbols l s.argN).length) s :=
    ⟨rfl, hmodels, henc, hroom.mono (by omega)⟩
  obtain ⟨u, hu, hcan'⟩ := hcan.encodeAll fun x hx => ⟨lt_slotCount_of_colorNir hk x.1, nirSymbols_lt _ hx⟩
  obtain ⟨honly, hframe⟩ := encodeAll_onlyCoded (P := (7 ≤ ·.val)) (fun _ hx => nirSymbols_slot hx) hu
  have hheld' : u.held = none := by rw [honly.registers, hheld]
  have hsyms : nirSymbols l s.argN = syms := nirSymbols_eq l s.argN
  rw [← hsyms]
  refine ⟨u, hu, exec_of_work_ok_of_none hheld' (firstError_writeNir hc he hk hx hmode) ?_, honly, hframe,
    hcan'.encOk, hcan'.models⟩
  rw [work, argNir_of_held_none hheld, hu, attempt_ok_bind,
    res0Point_eq_ofNat (Nat.lt_of_le_of_lt hcount (by decide))]

/-- A value takes at most three symbols. -/
theorem CanDecode.decodeNir {b : Build} {c e : Idx} {n : Nat} {s : State} (h : CanDecode b c e (n + 3) s)
    (hk : b.kind c = .colorNir) (l : Half) :
    Meets (decodeNir c e l s) (fun r => CanDecode b c e n r.2.2) fun _ => False :=
  (CanDecode.decodeSymbol h (lt_slotCount_of_colorNir hk _)).bind fun _ h1 =>
    (CanDecode.decodeHalf h1 (lt_slotCount_of_colorNir hk _)).bind fun _ h2 =>
    (CanDecode.decodeHalf h2 (lt_slotCount_of_colorNir hk _)).bind fun _ h3 => h3

/-- Settles O37: at most three symbols of two bytes each, through the near-infrared slots. -/
theorem readNirDecodesTheValue : Obligations.ReadNirDecodesTheValue := by
  intro s c e hc he hk hx hmode hmodels hlen hserves
  have hcan : CanDecode s.build c e (0 + 3) s := ⟨rfl, hmodels, hlen, hserves.readable⟩
  obtain ⟨⟨m, v, u⟩, hu, hcan'⟩ := (hcan.decodeNir hk (s.ctx c).lastN).exists_ok
  obtain ⟨honly, hframe⟩ := decodeNir_onlyCoded hu
  refine ⟨m, v, u, hu, ?_, honly, hframe, hcan'.lengthGe, hcan'.models⟩
  rw [← res0Point_eq_ofNat (Nat.lt_of_le_of_lt (nirCount_le m) (by decide))]
  exact exec_of_work_ok (firstError_readNir hc he hk hx hmode) (by rw [work, hu]; rfl)

end Sys2Proof.Machine
end

