-- ==== Sys2Proof/Proofs/Independence.lean ====
section
/-! The near-infrared part and the colour part of a context are independent (43_nir_context.md R260). Coding through
some slots uses the engine, the models of those slots, the profile and a capacity, and writes the engine and those
models; so it acts alike in any two states that agree in these, whatever else they hold. -/

namespace Sys2Proof.Machine

/-! ### Symbols through some slots -/

/-- States related by `R` agree in all that a symbol of engine `e` through a slot of context `c` with `P` uses, and
stay related when the symbol's engine and model are written back to both. -/
structure CodesAlike (c e : Idx) (P : Slot → Prop) (R : State → State → Prop) : Prop where
  profile : ∀ {s t}, R s t → s.build.profile = t.build.profile
  outCap : ∀ {s t}, R s t → s.build.outCapOf e = t.build.outCapOf e
  engine : ∀ {s t}, R s t → s.eng e = t.eng e
  model : ∀ {s t}, R s t → ∀ {σ}, P σ → s.model c σ = t.model c σ
  write : ∀ {s t}, R s t → ∀ {σ}, P σ → ∀ g m, R ((s.setEng e g).setModel c σ m) ((t.setEng e g).setModel c σ m)

/-- Two attempts that give one value continue with it. -/
theorem FollowsUnless.bind_same {α β β' σ τ : Type} {y : Stop} {R : σ → τ → Prop} {R' : β → β' → Prop}
    {a : Attempt (α × σ)} {b : Attempt (α × τ)} {k : α × σ → Attempt β} {l : α × τ → Attempt β'}
    (h : FollowsUnless y (SameAnd R) a b) (hk : ∀ v s t, R s t → FollowsUnless y R' (k (v, s)) (l (v, t))) :
    FollowsUnless y R' (a >>= k) (b >>= l) :=
  h.bind fun ⟨v, s⟩ ⟨_, t⟩ ⟨hv, hR⟩ => by
    cases hv
    exact hk v s t hR

/-- Equal attempts, continued in related ways. -/
theorem followsUnless_bind_self {α β β' : Type} {y : Stop} {R : β → β' → Prop} (a : Attempt α)
    {k : α → Attempt β} {l : α → Attempt β'} (hk : ∀ x, FollowsUnless y R (k x) (l x)) :
    FollowsUnless y R (a >>= k) (a >>= l) := by
  cases a with
  | ok x => exact hk x
  | error w => exact .both_error w

section
variable {c e : Idx} {P : Slot → Prop} {R : State → State → Prop} {y : Stop} {s t : State}

theorem CodesAlike.encodeSymbol (h : CodesAlike c e P R) {σ : Slot} (hσ : P σ) (k : Byte) (hR : R s t) :
    FollowsUnless y R (encodeSymbol c e σ k s) (encodeSymbol c e σ k t) := by
  unfold Machine.encodeSymbol
  rw [h.outCap hR, h.profile hR, h.engine hR, h.model hR hσ]
  exact followsUnless_bind_self _ fun ⟨g, m⟩ => .both_ok (h.write hR hσ g m)

theorem CodesAlike.decodeSymbol (h : CodesAlike c e P R) {σ : Slot} (hσ : P σ) (hR : R s t) :
    FollowsUnless y (SameAnd R) (decodeSymbol c e σ s) (decodeSymbol c e σ t) := by
  unfold Machine.decodeSymbol
  rw [h.profile hR, h.engine hR, h.model hR hσ]
  exact followsUnless_bind_self _ fun ⟨_, g, m⟩ => .both_ok ⟨rfl, h.write hR hσ g m⟩

theorem CodesAlike.encodeAll (h : CodesAlike c e P R) {syms : List (Slot × Byte)} (hP : ∀ x ∈ syms, P x.1)
    (hR : R s t) : FollowsUnless y R (encodeAll c e syms s) (encodeAll c e syms t) := by
  induction syms generalizing s t with
  | nil => exact .both_ok hR
  | cons x rest ih =>
    exact (h.encodeSymbol (hP x List.mem_cons_self) x.2 hR).bind fun _ _ hR' =>
      ih (fun z hz => hP z (List.mem_cons_of_mem _ hz)) hR'

theorem CodesAlike.decodeHalf (h : CodesAlike c e P R) {σ : Slot} (hσ : P σ) {on : Bool} {basis last : Byte}
    (hR : R s t) :
    FollowsUnless y (SameAnd R) (decodeHalf c e on σ basis last s) (decodeHalf c e on σ basis last t) := by
  cases on with
  | false => exact .both_ok ⟨rfl, hR⟩
  | true => exact (h.decodeSymbol hσ hR).bind_same fun _ _ _ hR' => .both_ok ⟨rfl, hR'⟩

theorem CodesAlike.decodeChroma (h : CodesAlike c e (·.val < 7) R) (pr : Profile) (m : Byte) (l : Rgb) (r : Half)
    (hR : R s t) : FollowsUnless y (SameAnd R) (decodeChroma c e pr m l r s) (decodeChroma c e pr m l r t) := by
  cases pr with
  | doc | laszip =>
    exact (h.decodeHalf (by decide) hR).bind_same fun _ _ _ h1 =>
      (h.decodeHalf (by decide) h1).bind_same fun _ _ _ h2 =>
      (h.decodeHalf (by decide) h2).bind_same fun _ _ _ h3 =>
      (h.decodeHalf (by decide) h3).bind_same fun _ _ _ h4 => .both_ok ⟨rfl, h4⟩

theorem CodesAlike.decodeRgb (h : CodesAlike c e (·.val < 7) R) (pr : Profile) (l : Rgb) (hR : R s t) :
    FollowsUnless y (SameAnd (SameAnd R)) (decodeRgb c e pr l s) (decodeRgb c e pr l t) := by
  refine (h.decodeSymbol (by decide) hR).bind_same fun _ _ _ h1 => ?_
  refine (h.decodeHalf (by decide) h1).bind_same fun _ _ _ h2 => ?_
  refine (h.decodeHalf (by decide) h2).bind_same fun _ _ _ h3 => ?_
  dsimp only
  split
  · exact (h.decodeChroma pr _ l _ h3).bind_same fun _ _ _ h4 => .both_ok ⟨rfl, rfl, h4⟩
  · exact .both_ok ⟨rfl, rfl, h3⟩

theorem CodesAlike.decodeNir (h : CodesAlike c e (7 ≤ ·.val) R) (l : Half) (hR : R s t) :
    FollowsUnless y (SameAnd (SameAnd R)) (decodeNir c e l s) (decodeNir c e l t) :=
  (h.decodeSymbol (by decide) hR).bind_same fun _ _ _ h1 =>
    (h.decodeHalf (by decide) h1).bind_same fun _ _ _ h2 =>
    (h.decodeHalf (by decide) h2).bind_same fun _ _ _ h3 => .both_ok ⟨rfl, rfl, h3⟩

end

/-! ### Commands -/

/-- States with nothing held, related by `Q`. -/
structure Unheld (Q : State → State → Prop) (s t : State) : Prop where
  left : s.held = none
  right : t.held = none
  related : Q s t

/-- A command that needs a context and an engine makes the same checks in both states: past the ones that pass by
hypothesis, what is left is the engine's mode. -/
theorem firstError_agrees {i : Instr} {c e : Idx} {s t : State} (hci : contextOf i = some c)
    (hei : engineOf i = some e) (hs : i.wellFormed s.build = true) (ht : i.wellFormed t.build = true)
    (hks : needsNir i = true → s.build.kind c = .colorNir) (hkt : needsNir i = true → t.build.kind c = .colorNir)
    (hxs : (s.ctx c).phase ≠ .uninit) (hxt : (t.ctx c).phase ≠ .uninit)
    (hprofile : s.build.profile = t.build.profile) (hengine : s.eng e = t.eng e) :
    firstError i s = firstError i t := by
  have kind {u : State} (hk : needsNir i = true → u.build.kind c = .colorNir) :
      (needsNir i && namesColor u.build i) = false := by
    cases hn : needsNir i with
    | false => rfl
    | true => simp [namesColor, hci, hk hn]
  have init {u : State} (hx : (u.ctx c).phase ≠ .uninit) : namesUninit u i = false := by
    simp [namesUninit, hci, hx]
  have mode : namesWrongMode s i = namesWrongMode t i := by
    unfold namesWrongMode
    rw [hei]
    cases needsMode i with
    | none => rfl
    | some m => simp only [hengine]
  simp only [firstError, hs, ht, kind hks, kind hkt, init hxs, init hxt, mode, hprofile]

/-- Commands that check and work alike end alike: a renormalisation without end is no next state. -/
theorem exec_agrees {i : Instr} {Q : State → State → Prop} {s t s' : State}
    (hchecks : firstError i s = firstError i t)
    (hwork : FollowsUnless .diverge (Unheld Q) (work i s) (work i t))
    (herror : ∀ x, Q (errorState x s) (errorState x t))
    (hhold : Q { s with held := some (latchOf s) } { t with held := some (latchOf t) })
    (h : exec i s = .next s') : ∃ t', exec i t = .next t' ∧ Q s' t' := by
  have hattempt : FollowsUnless .diverge (Unheld Q) (attempt i s) (attempt i t) := by
    unfold attempt
    rw [hchecks]
    cases firstError i t with
    | none => exact hwork
    | some x => exact .both_error _
  rw [exec_eq_finish_attempt] at h ⊢
  rcases hattempt with ha | ⟨u, v, ha, hb, hu, hv, hQ⟩ | ⟨w, ha, hb⟩
  · rw [ha] at h
    cases h
  · rw [ha] at h
    cases h
    refine ⟨v, by rw [hb, finish_ok, ← hv], ?_⟩
    rw [← hu]
    exact hQ
  · rw [ha] at h
    rw [hb]
    cases w with
    | error x =>
      cases h
      exact ⟨_, rfl, herror x⟩
    | hold =>
      cases h
      exact ⟨_, rfl, hhold⟩
    | diverge => cases h

/-! ### Operands after a command that did not complete -/

/-- A command's latch holds the operands it was issued with. -/
theorem argNir_hold {s : State} (h : s.held = none) : argNir { s with held := some (latchOf s) } = argNir s := by
  simp only [argNir, latchOf, h]

theorem argRgb_hold {s : State} (h : s.held = none) : argRgb { s with held := some (latchOf s) } = argRgb s := by
  simp only [argRgb, latchOf, h]

theorem argNir_errorState {s : State} (h : s.held = none) (x : ErrCode) : argNir (errorState x s) = argNir s :=
  (argNir_of_held_none rfl).trans (argNir_of_held_none h).symm

theorem argRgb_errorState {s : State} (h : s.held = none) (x : ErrCode) : argRgb (errorState x s) = argRgb s :=
  (argRgb_of_held_none rfl).trans (argRgb_of_held_none h).symm

/-! ### What a point or a value written back leaves -/

@[simp] theorem State.model_streamRgb (s : State) (c : Idx) (p : Rgb) (σ : Slot) :
    (s.streamRgb c p).model c σ = s.model c σ := by
  rw [State.model, ctx_streamRgb_same]
  rfl

@[simp] theorem State.model_streamNir (s : State) (c : Idx) (v : Half) (σ : Slot) :
    (s.streamNir c v).model c σ = s.model c σ := by
  rw [State.model, ctx_streamNir_same]
  rfl

@[simp] theorem State.lastRgb_streamRgb (s : State) (c : Idx) (p : Rgb) : (s.streamRgb c p).lastRgb c = p := by
  rw [State.lastRgb, ctx_streamRgb_same]

@[simp] theorem State.lastRgb_streamNir (s : State) (c : Idx) (v : Half) :
    (s.streamNir c v).lastRgb c = s.lastRgb c := by
  rw [State.lastRgb, ctx_streamNir_same]
  rfl

@[simp] theorem State.lastRgb_setEng (s : State) (e : Idx) (g : Engine) (c : Idx) :
    (s.setEng e g).lastRgb c = s.lastRgb c := rfl

@[simp] theorem State.lastRgb_setModel (s : State) (c : Idx) (σ : Slot) (m : Model) :
    (s.setModel c σ m).lastRgb c = s.lastRgb c := by
  rw [State.lastRgb, ctx_setModel_same]
  rfl

/-- Models that agree still do when one slot of both is written. -/
theorem State.model_setModel_congr {s t : State} {c : Idx} {σ τ : Slot} (h : s.model c τ = t.model c τ) (m : Model) :
    (s.setModel c σ m).model c τ = (t.setModel c σ m).model c τ := by
  by_cases hτ : τ = σ
  · subst hτ
    rw [model_setModel_same, model_setModel_same]
  · rw [s.model_setModel_ne m hτ, t.model_setModel_ne m hτ, h]

/-! ### The near-infrared commands in two states -/

section
variable {c e : Idx} {s t : State}

theorem sameNir_codesAlike (c e : Idx) : CodesAlike c e (7 ≤ ·.val) (Unheld (SameNir c e)) where
  profile := fun h => h.related.profile
  outCap := fun h => h.related.outCap
  engine := fun h => h.related.engine
  model := fun h _ hσ => h.related.models _ hσ
  write := fun ⟨hs, ht, hQ⟩ _ _ _ m => ⟨hs, ht, { hQ with
    engine := by rw [State.eng_setModel, State.eng_setModel, State.eng_setEng_same, State.eng_setEng_same]
    lastN := by simpa using hQ.lastN
    models := fun τ hτ => State.model_setModel_congr (hQ.models τ hτ) m }⟩

theorem SameNir.errorState (h : SameNir c e s t) (hs : s.held = none) (ht : t.held = none) (x : ErrCode) :
    SameNir c e (errorState x s) (errorState x t) :=
  { h with argN := by rw [argNir_errorState hs, argNir_errorState ht, h.argN] }

theorem SameNir.hold (h : SameNir c e s t) (hs : s.held = none) (ht : t.held = none) :
    SameNir c e { s with held := some (latchOf s) } { t with held := some (latchOf t) } :=
  { h with argN := by rw [argNir_hold hs, argNir_hold ht, h.argN] }

/-- A value and the registers that show it, written to both. -/
theorem SameNir.stream (h : SameNir c e s t) (v : Half) : SameNir c e (s.streamNir c v) (t.streamNir c v) :=
  { h with
    lastN := by simp
    models := by simpa using h.models }

theorem work_writeNir_agrees {y : Stop} (h : Unheld (SameNir c e) s t) :
    FollowsUnless y (Unheld (SameNir c e)) (work (.writeNir c e) s) (work (.writeNir c e) t) := by
  simp only [work, h.related.lastN, h.related.argN]
  refine ((sameNir_codesAlike c e).encodeAll (fun _ hx => nirSymbols_slot hx) h).bind fun u v ⟨hu, hv, hQ⟩ => ?_
  exact .both_ok ⟨hu, hv, { hQ.stream (argNir t) with res0 := rfl }⟩

theorem work_readNir_agrees {y : Stop} (h : Unheld (SameNir c e) s t) :
    FollowsUnless y (Unheld (SameNir c e)) (work (.readNir c e) s) (work (.readNir c e) t) := by
  simp only [work, h.related.lastN]
  refine ((sameNir_codesAlike c e).decodeNir _ h).bind_same fun m ⟨v, u⟩ ⟨_, w⟩ ⟨hv, hu, hw, hQ⟩ => ?_
  cases hv
  exact .both_ok ⟨hu, hw, { hQ.stream v with res0 := rfl, resN := rfl }⟩

/-! ### The colour commands in two states -/

theorem sameColour_codesAlike (c e : Idx) : CodesAlike c e (·.val < 7) (Unheld (SameColour c e)) where
  profile := fun h => h.related.profile
  outCap := fun h => h.related.outCap
  engine := fun h => h.related.engine
  model := fun h _ hσ => h.related.models _ hσ
  write := fun ⟨hs, ht, hQ⟩ _ _ _ m => ⟨hs, ht, { hQ with
    engine := by rw [State.eng_setModel, State.eng_setModel, State.eng_setEng_same, State.eng_setEng_same]
    last := by simpa using hQ.last
    models := fun τ hτ => State.model_setModel_congr (hQ.models τ hτ) m }⟩

theorem SameColour.errorState (h : SameColour c e s t) (hs : s.held = none) (ht : t.held = none) (x : ErrCode) :
    SameColour c e (errorState x s) (errorState x t) :=
  { h with arg := by rw [argRgb_errorState hs, argRgb_errorState ht, h.arg] }

theorem SameColour.hold (h : SameColour c e s t) (hs : s.held = none) (ht : t.held = none) :
    SameColour c e { s with held := some (latchOf s) } { t with held := some (latchOf t) } :=
  { h with arg := by rw [argRgb_hold hs, argRgb_hold ht, h.arg] }

/-- A point kept as the last point in both. -/
theorem SameColour.stream (h : SameColour c e s t) (p : Rgb) :
    SameColour c e (s.streamRgb c p) (t.streamRgb c p) :=
  { h with
    last := by simp
    models := by simpa using h.models }

theorem work_writeRgb_agrees {y : Stop} (h : Unheld (SameColour c e) s t) :
    FollowsUnless y (Unheld (SameColour c e)) (work (.writeRgb c e) s) (work (.writeRgb c e) t) := by
  simp only [work, h.related.profile, h.related.last, h.related.arg]
  refine ((sameColour_codesAlike c e).encodeAll (fun _ hx => rgbSymbols_slot hx) h).bind fun u v ⟨hu, hv, hQ⟩ => ?_
  exact .both_ok ⟨hu, hv, { hQ.stream (argRgb t) with res0 := rfl }⟩

theorem work_readRgb_agrees {y : Stop} (h : Unheld (SameColour c e) s t) :
    FollowsUnless y (Unheld (SameColour c e)) (work (.readRgb c e) s) (work (.readRgb c e) t) := by
  simp only [work, h.related.profile, h.related.last]
  refine ((sameColour_codesAlike c e).decodeRgb _ _ h).bind_same fun m ⟨p, u⟩ ⟨_, w⟩ ⟨hp, hu, hw, hQ⟩ => ?_
  cases hp
  exact .both_ok ⟨hu, hw, { hQ.stream p with res0 := rfl, resR := rfl, resG := rfl, resB := rfl }⟩

end

/-! ### Frames: what each pair of commands leaves of the other's part -/

/-- Nothing of the colour part of context `c` differs between `s` and `t`. -/
structure LeavesColour (c : Idx) (s t : State) : Prop where
  last : t.lastRgb c = s.lastRgb c
  models : ∀ σ : Slot, σ.val < 7 → t.model c σ = s.model c σ

/-- Nothing of the near-infrared part of context `c` differs between `s` and `t`. -/
structure LeavesNir (c : Idx) (s t : State) : Prop where
  last : (t.ctx c).lastN = (s.ctx c).lastN
  models : ∀ σ : Slot, 7 ≤ σ.val → t.model c σ = s.model c σ

section
variable {c e : Idx} {s t u : State}

theorem OnlyCoded.leavesColour (h : OnlyCoded c e (7 ≤ ·.val) s u) (v : Half) :
    LeavesColour c s (u.streamNir c v) where
  last := by
    rw [State.lastRgb_streamNir, State.lastRgb, h.context]
    rfl
  models := fun σ hσ => by rw [State.model_streamNir, h.models σ (Nat.not_le.mpr hσ)]

theorem OnlyCoded.leavesNir (h : OnlyCoded c e (·.val < 7) s u) (p : Rgb) : LeavesNir c s (u.streamRgb c p) where
  last := by rw [State.ctx_streamRgb_same, h.context]
  models := fun σ hσ => by rw [State.model_streamRgb, h.models σ (Nat.not_lt.mpr hσ)]

theorem work_nir_leavesColour {i : Instr} (hi : i = .writeNir c e ∨ i = .readNir c e) (h : work i s = .ok t) :
    LeavesColour c s t := by
  rcases hi with rfl | rfl
  · obtain ⟨u, hu, hdone⟩ := attempt_bind_eq_ok.mp h
    cases hdone
    obtain ⟨last, models⟩ := (encodeAll_onlyCoded (fun _ hx => nirSymbols_slot hx) hu).1.leavesColour (argNir s)
    exact ⟨last, models⟩
  · obtain ⟨⟨m, v, u⟩, hu, hdone⟩ := attempt_bind_eq_ok.mp h
    cases hdone
    obtain ⟨last, models⟩ := (decodeNir_onlyCoded hu).1.leavesColour v
    exact ⟨last, models⟩

theorem work_rgb_leavesNir {i : Instr} (hi : i = .writeRgb c e ∨ i = .readRgb c e) (h : work i s = .ok t) :
    LeavesNir c s t := by
  rcases hi with rfl | rfl
  · obtain ⟨u, hu, hdone⟩ := attempt_bind_eq_ok.mp h
    cases hdone
    obtain ⟨last, models⟩ := (encodeAll_onlyCoded (fun _ hx => rgbSymbols_slot hx) hu).1.leavesNir (argRgb s)
    exact ⟨last, models⟩
  · obtain ⟨⟨m, p, u⟩, hu, hdone⟩ := attempt_bind_eq_ok.mp h
    cases hdone
    obtain ⟨last, models⟩ := (decodeRgb_onlyCoded hu).1.leavesNir p
    exact ⟨last, models⟩

/-- An error or a hold leaves both parts, so the frame of the work is the frame of the command. -/
theorem exec_nir_leavesColour {i : Instr} (hi : i = .writeNir c e ∨ i = .readNir c e) (h : exec i s = .next t) :
    LeavesColour c s t := by
  rcases exec_next_cases h with ⟨u, -, hu, rfl⟩ | ⟨x, -, rfl⟩ | ⟨-, rfl⟩
  · obtain ⟨last, models⟩ := work_nir_leavesColour hi hu
    exact ⟨last, models⟩
  · exact ⟨rfl, fun _ _ => rfl⟩
  · exact ⟨rfl, fun _ _ => rfl⟩

theorem exec_rgb_leavesNir {i : Instr} (hi : i = .writeRgb c e ∨ i = .readRgb c e) (h : exec i s = .next t) :
    LeavesNir c s t := by
  rcases exec_next_cases h with ⟨u, -, hu, rfl⟩ | ⟨x, -, rfl⟩ | ⟨-, rfl⟩
  · obtain ⟨last, models⟩ := work_rgb_leavesNir hi hu
    exact ⟨last, models⟩
  · exact ⟨rfl, fun _ _ => rfl⟩
  · exact ⟨rfl, fun _ _ => rfl⟩

end

/-! ### The statement -/

theorem exec_nir_agrees {s t s' : State} {c e : Idx} {i : Instr} (hi : i = .writeNir c e ∨ i = .readNir c e)
    (hchecks : firstError i s = firstError i t) (hR : Unheld (SameNir c e) s t) (h : exec i s = .next s') :
    ∃ t', exec i t = .next t' ∧ SameNir c e s' t' := by
  refine exec_agrees hchecks ?_ (hR.related.errorState hR.left hR.right) (hR.related.hold hR.left hR.right) h
  rcases hi with rfl | rfl
  · exact work_writeNir_agrees hR
  · exact work_readNir_agrees hR

theorem exec_rgb_agrees {s t s' : State} {c e : Idx} {i : Instr} (hi : i = .writeRgb c e ∨ i = .readRgb c e)
    (hchecks : firstError i s = firstError i t) (hR : Unheld (SameColour c e) s t) (h : exec i s = .next s') :
    ∃ t', exec i t = .next t' ∧ SameColour c e s' t' := by
  refine exec_agrees hchecks ?_ (hR.related.errorState hR.left hR.right) (hR.related.hold hR.left hR.right) h
  rcases hi with rfl | rfl
  · exact work_writeRgb_agrees hR
  · exact work_readRgb_agrees hR

/-- Settles O39: the commands of a part code through its slots alone, and so act alike where that part agrees; what
they write is their own part and their own result registers. -/
theorem nirAndColourAreIndependent : Obligations.NirAndColourAreIndependent := by
  refine ⟨fun s t c e i hi hs ht hws hwt hks hkt hxs hxt h s' => ?_,
    fun s t c e i hi hs ht hws hwt hxs hxt h s' => ?_, fun s s' c e i hi h => ?_, fun s s' c e i hi h => ?_⟩
  · refine exec_nir_agrees hi ?_ ⟨hs, ht, h⟩
    rcases hi with rfl | rfl <;>
      exact firstError_agrees rfl rfl hws hwt (fun _ => hks) (fun _ => hkt) hxs hxt h.profile h.engine
  · refine exec_rgb_agrees hi ?_ ⟨hs, ht, h⟩
    rcases hi with rfl | rfl <;>
      exact firstError_agrees rfl rfl hws hwt nofun nofun hxs hxt h.profile h.engine
  · obtain ⟨last, models⟩ := exec_nir_leavesColour hi h
    obtain ⟨-, -, -, -, -, -, -, -, -, -, resRgb, -⟩ := commandsWriteOnlyTheirRegisters i s s' h
    exact ⟨last, models, resRgb fun c' e' heq => by rcases hi with rfl | rfl <;> cases heq⟩
  · obtain ⟨last, models⟩ := exec_rgb_leavesNir hi h
    obtain ⟨-, -, -, -, -, -, -, -, -, -, -, resN⟩ := commandsWriteOnlyTheirRegisters i s s' h
    exact ⟨last, models, resN fun c' e' heq => by rcases hi with rfl | rfl <;> cases heq⟩

end Sys2Proof.Machine
end

/-! What the host does to the block (44_system.md R270 to R274): it issues a command, pushes a byte, controls an input
buffer or selects an output byte; the two writes that change an input buffer attempt a held command again. -/

namespace Sys2Proof.Machine

/-! ### Issuing a command -/

/-- A word that decodes, written to `CMD` while nothing is held, is latched, and its command run. -/
theorem issue_of_decode_ok {s : State} {w : Word} {i : Instr} (hheld : s.held = none) (hi : decode w = .ok i) :
    issue w s = exec i { s with cmd := w } := by
  simp only [issue, hheld, runWord, hi]

/-- Settles O6: `CMD` stands at its offset in every build, and a write to it issues the word. -/
theorem stepRunsDecodedCommand : Obligations.StepRunsDecodedCommand := by
  intro s w rest i hpending hheld hi
  exact (step_writeReg (r := .cmd) hpending (by decide) rfl).trans
    (issue_of_decode_ok (s := { s with pending := rest }) hheld hi)

/-- The zero word is the only one that spells the opcode of `NOP`. -/
theorem spells_nop_iff (w : Word) : w &&& (rowOf .nop).2 = (rowOf .nop).1 ↔ w = 0 :=
  (spells_iff_encode w .nop).trans ⟨Eq.symm, Eq.symm⟩

/-- Settles O40: `NOP` fails no check and does no work, and its row leaves no bit free. -/
theorem nopChangesNothing : Obligations.NopChangesNothing := by
  refine ⟨fun s hheld => exec_of_work_ok_of_none hheld rfl rfl, decode_eq_ok_iff.mpr rfl, fun w hop hw => ?_⟩
  exact decode_of_not_spells (i := .nop) hop fun h => hw ((spells_nop_iff w).mp h)

/-! ### Writing an engine's register -/

/-- A 32-bit write at the offset of an engine's register, in a build that has the engine. -/
theorem step_writeEngReg {s : State} {e : Idx} {off : BitVec 12} {r : EngReg} {v : Word} {rest : List Access}
    (hpending : s.pending = .write (busAddr s.build (engOffset e off)) .w32 v :: rest)
    (he : s.build.hasEng e = true) (hlt : off < 0x40) (hmul : off.toNat % 4 = 0)
    (hr : engRegAt off.toNat = some r) :
    step s = writeReg (.eng e r) (engOffset e off) v { s with pending := rest } := by
  have hproper : (engOffset e off).toNat % 4 = 0 := by
    rw [toNat_engOffset e hlt]
    omega
  refine step_writeReg hpending (properAccess_eq_true.mpr ⟨rfl, hproper⟩) ?_
  rw [regAt_engOffset s.build e hlt, he, hr]
  rfl

/-- A byte pushed to an unbounded buffer, or below the capacity, is appended. -/
theorem pushByte_of_room {e : Idx} {s : State} (h : ∀ n, s.build.inCapOf e = some n → (s.eng e).input.length < n)
    (off : BitVec 12) (v : Word) : pushByte e off v s
      = s.setEng e { s.eng e with input := (s.eng e).input ++ [v.extractLsb' 0 8] } := by
  unfold pushByte
  cases hcap : s.build.inCapOf e with
  | none => rfl
  | some n => exact if_neg (by simpa using h n hcap)

/-- A byte pushed to a full buffer is dropped, with the error recorded. -/
theorem pushByte_of_full {e : Idx} {s : State} {n : Nat} (hcap : s.build.inCapOf e = some n)
    (h : n ≤ (s.eng e).input.length) (off : BitVec 12) (v : Word) :
    pushByte e off v s = recordError .inOverflow (off.setWidth 32) s := by
  unfold pushByte
  rw [hcap]
  exact if_pos (decide_eq_true h)

/-- Settles O44: the buffer part with room and without, then in each the re-attempt. -/
theorem pushAppendsThenRetries : Obligations.PushAppendsThenRetries := by
  intro s e v rest hpending he
  have hstep : step s = reattempt (pushByte e (engOffset e 0x10) v { s with pending := rest }) :=
    step_writeEngReg (r := .inPush) hpending he (by decide) rfl rfl
  refine ⟨fun hroom => ?_, fun n hcap hfull => ?_⟩
  · rw [hstep, pushByte_of_room (s := { s with pending := rest }) hroom]
    exact ⟨fun hheld => reattempt_of_none hheld, fun _ hheld => reattempt_of_some hheld⟩
  · rw [hstep, pushByte_of_full (s := { s with pending := rest }) hcap hfull]
    exact ⟨fun hheld => reattempt_of_none hheld, fun _ hheld => reattempt_of_some hheld⟩

/-- Settles O54: each write replaces its engine, `IN_CTRL` before the re-attempt; what `OUT_DATA` then reads is
the engine's byte at its index, which is now the word written. -/
theorem hostActionsOnTheBuffers : Obligations.HostActionsOnTheBuffers := by
  refine ⟨fun s e v rest he hpending => ?_, fun s e v rest he hpending => ?_⟩
  · have hstep : step s
        = reattempt (({ s with pending := rest } : State).setEng e (controlInput v (s.eng e))) :=
      step_writeEngReg (r := .inCtrl) hpending he (by decide) rfl rfl
    exact ⟨_, fun hheld => hstep.trans (reattempt_of_none hheld),
      fun h hheld => hstep.trans (reattempt_of_some hheld),
      (State.eng_setEng_same ..).trans (controlInput_eq ..), fun _ => State.eng_setEng_ne _ _, rfl⟩
  · have hstep : step s
        = .next (({ s with pending := rest } : State).setEng e { s.eng e with outIdx := v }) :=
      step_writeEngReg (r := .outIdx) hpending he (by decide) rfl rfl
    obtain ⟨-, -, -, hbyte, hpast, -⟩ := engineAndContextRegistersShowTheirFields.1
      (({ s with pending := rest } : State).setEng e { s.eng e with outIdx := v }) e
    simp only [State.eng_setEng_same] at hbyte hpast
    exact ⟨_, hstep, State.eng_setEng_same ..,
      fun b hb => BitVec.eq_of_toNat_eq ((hbyte b hb).trans (BitVec.toNat_setWidth_of_le (by decide)).symm), hpast,
      fun _ => State.eng_setEng_ne _ _, rfl⟩

end Sys2Proof.Machine

/-! Errors and holds (60_exceptions.md R302 to R307): the first failed check is the error, the record is written field by
field and only ever grows, and a command completes, records one error or holds, the last for a decoder command only. -/

namespace Sys2Proof.Machine

/-! ### Checks -/

/-- Settles O41: a failed check ends the attempt before its work, and an error leaves the record only. -/
theorem firstFailedCheckIsTheError : Obligations.FirstFailedCheckIsTheError := by
  intro i s x h
  rw [exec_eq_finish_attempt, attempt_of_error h, finish_error]

/-! ### Recording an error -/

/-- The bit of an error code in `STATUS` (10_state.md R44). -/
theorem getLsbD_status_errBit (s : State) {k : Nat} (h1 : 1 ≤ k) (h12 : k ≤ 12) :
    (readReg s .status).getLsbD (1 + k) = s.errBits.getLsbD (k - 1) := by
  obtain ⟨-, -, hbits, -⟩ := statusWordsHaveTheirFields s
  rw [← hbits (k - 1) (by omega)]
  congr 1
  omega

theorem errFirst_recordError_of_zero {s : State} (h : s.errCount = 0) (x : ErrCode) (i : Word) :
    (recordError x i s).errFirst = BitVec.ofNat 8 x.code :=
  if_pos h

theorem errData_recordError_of_zero {s : State} (h : s.errCount = 0) (x : ErrCode) (i : Word) :
    (recordError x i s).errData = i :=
  if_pos h

theorem errFirst_recordError_of_ne_zero {s : State} (h : s.errCount ≠ 0) (x : ErrCode) (i : Word) :
    (recordError x i s).errFirst = s.errFirst :=
  if_neg h

theorem errData_recordError_of_ne_zero {s : State} (h : s.errCount ≠ 0) (x : ErrCode) (i : Word) :
    (recordError x i s).errData = s.errData :=
  if_neg h

/-- The count goes up by one and saturates (10_state.md R45). -/
theorem toNat_errCount_recordError (x : ErrCode) (i : Word) (s : State) :
    (recordError x i s).errCount.toNat = min (s.errCount.toNat + 1) 0xFFFF := by
  simp only [recordError]
  split
  · rename_i hfull
    simp [hfull]
  · bv_omega

/-- The host reads ERR and the bit of the code as 1 after an error, and the other codes' bits as before. -/
theorem status_recordError (x : ErrCode) (i : Word) (s : State) :
    (readReg (recordError x i s) .status).getLsbD 1 = true
    ∧ (readReg (recordError x i s) .status).getLsbD (1 + x.code) = true
    ∧ ∀ k, 1 ≤ k → k ≤ 12 → k ≠ x.code →
        (readReg (recordError x i s) .status).getLsbD (1 + k) = (readReg s .status).getLsbD (1 + k) := by
  obtain ⟨hx1, hx12⟩ := x.code_bounds
  obtain ⟨-, herr, -⟩ := statusWordsHaveTheirFields (recordError x i s)
  refine ⟨herr, ?_, fun k h1 h12 hne => ?_⟩
  · rw [getLsbD_status_errBit _ hx1 hx12, getLsbD_errBits_recordError]
    simp
  · have hbit : k - 1 ≠ x.code - 1 := by omega
    rw [getLsbD_status_errBit _ h1 h12, getLsbD_status_errBit _ h1 h12, getLsbD_errBits_recordError,
      decide_eq_false hbit, Bool.or_false]

/-- `CMD` while a command is held (60_exceptions.md R303). -/
theorem issue_of_held {s : State} {h : Held} (hheld : s.held = some h) (w : Word) :
    issue w s = .next (recordError .cmdWhileBusy w s) := by
  simp only [issue, hheld]

/-- Settles O42: the record field by field, then the three places that write it. -/
theorem errorRecordFields : Obligations.ErrorRecordFields := by
  refine ⟨fun x i s => ?_, fun x s => finish_error s x, fun w s h hheld => issue_of_held hheld w,
    fun off width v s himproper => hostWrite_improper (Bool.eq_false_iff.mp himproper) v s⟩
  obtain ⟨herr, hbit, hothers⟩ := status_recordError x i s
  exact ⟨_, rfl, herr, hbit, hothers,
    fun h => ⟨errFirst_recordError_of_zero h x i, errData_recordError_of_zero h x i⟩,
    fun h => ⟨errFirst_recordError_of_ne_zero h x i, errData_recordError_of_ne_zero h x i⟩,
    rfl, toNat_errCount_recordError x i s, rfl⟩

/-- Settles O7: the write reaches `CMD`, which refuses it, and a record touches nothing of the held command. -/
theorem commandWhileBusyIsRefused : Obligations.CommandWhileBusyIsRefused := by
  intro s h w rest hpending hheld
  have hstep : step s = issue w { s with pending := rest } :=
    step_writeReg (r := .cmd) hpending (by decide) rfl
  obtain ⟨hbusy, -⟩ := statusWordsHaveTheirFields (recordError .cmdWhileBusy w { s with pending := rest })
  refine ⟨_, hstep.trans (issue_of_held (s := { s with pending := rest }) hheld w), rfl, rfl, hheld, ?_, rfl, rfl⟩
  rw [hbusy, recordError_held, hheld]
  rfl

/-! ### Encoders do not hold -/

/-- The attempt may complete, fail or diverge, but does not hold. -/
def NeverHolds {α : Type} (a : Attempt α) : Prop := Meets a (fun _ => True) (· ≠ .hold)

theorem NeverHolds.bind {α β : Type} {a : Attempt α} {f : α → Attempt β} (ha : NeverHolds a)
    (hf : ∀ x, NeverHolds (f x)) : NeverHolds (a >>= f) :=
  Meets.bind ha fun x _ => hf x

theorem neverHolds_ok {α : Type} (x : α) : NeverHolds (.ok x) := trivial

theorem neverHolds_error {α : Type} (x : ErrCode) : NeverHolds (.error (.error x) : Attempt α) := Stop.noConfusion

theorem streamAppend_neverHolds (cap : Option Nat) (b : Byte) (g : Engine) : NeverHolds (streamAppend cap b g) := by
  rcases streamAppend_cases cap b g with ⟨h, -⟩ | ⟨h, -⟩ <;> rw [h]
  · exact neverHolds_ok _
  · exact neverHolds_error _

theorem carryIfWrapped_neverHolds (b0 : Word) (g : Engine) : NeverHolds (carryIfWrapped b0 g) := by
  unfold carryIfWrapped
  split
  · rcases streamCarry_cases g with ⟨bs, h, -⟩ | ⟨h, -⟩ <;> rw [h]
    · exact neverHolds_ok _
    · exact neverHolds_error _
  · exact neverHolds_ok g

theorem renormEncLoop_neverHolds (cap : Option Nat) (fuel : Nat) (g : Engine) :
    NeverHolds (renormEncLoop cap fuel g) := by
  induction fuel generalizing g with
  | zero => exact Stop.noConfusion
  | succ fuel ih =>
    refine (streamAppend_neverHolds cap _ g).bind fun a => ?_
    dsimp only
    split
    · exact ih _
    · exact neverHolds_ok _

theorem renormEncIfLow_neverHolds (cap : Option Nat) (g : Engine) : NeverHolds (renormEncIfLow cap g) := by
  unfold renormEncIfLow
  split
  · exact renormEncLoop_neverHolds cap renormRounds g
  · exact neverHolds_ok g

theorem encodeSymbol_neverHolds (c e : Idx) (σ : Slot) (k : Byte) (s : State) :
    NeverHolds (encodeSymbol c e σ k s) :=
  NeverHolds.bind
    ((carryIfWrapped_neverHolds _ _).bind fun _ =>
      (renormEncIfLow_neverHolds _ _).bind fun _ => neverHolds_ok _)
    fun _ => neverHolds_ok _

theorem encodeAll_neverHolds (c e : Idx) (syms : List (Slot × Byte)) (s : State) :
    NeverHolds (encodeAll c e syms s) :=
  encodeAll_keeps (I := fun _ => True) (fun x _ t _ => encodeSymbol_neverHolds c e x.1 x.2 t) trivial

theorem appendZeros_neverHolds (cap : Option Nat) (z : Nat) (g : Engine) : NeverHolds (appendZeros cap z g) := by
  induction z generalizing g with
  | zero => exact neverHolds_ok g
  | succ z ih => exact (streamAppend_neverHolds cap 0 g).bind ih

theorem flushWith_neverHolds (cap : Option Nat) (g : Engine) : NeverHolds (flushWith cap g) :=
  (carryIfWrapped_neverHolds _ _).bind fun _ =>
    (renormEncLoop_neverHolds _ _ _).bind fun _ =>
    (appendZeros_neverHolds _ _ _).bind fun _ => neverHolds_ok _

/-- Only a decoder command reads the input, so no other one's work holds (20_memory.md R98). -/
theorem work_neverHolds {i : Instr} (hi : mayHold i = false) (s : State) : NeverHolds (work i s) := by
  cases i with
  | decInit | readRgb | readNir | decSymbol => cases hi
  | nop | encInit | decDone | initPoint | modelInit => exact neverHolds_ok _
  | encDone e => exact (flushWith_neverHolds _ _).bind fun _ => neverHolds_ok _
  | writeRgb c e => exact (encodeAll_neverHolds c e _ s).bind fun _ => neverHolds_ok _
  | writeNir c e => exact (encodeAll_neverHolds c e _ s).bind fun _ => neverHolds_ok _
  | encSymbol c j e k => exact encodeSymbol_neverHolds c e _ k s

theorem mayHold_of_attempt_hold {i : Instr} {s : State} (h : attempt i s = .error .hold) : mayHold i = true := by
  cases hc : firstError i s with
  | some x =>
    rw [attempt_of_error hc] at h
    cases h
  | none =>
    rw [attempt_of_checked hc] at h
    exact Bool.eq_true_of_not_eq_false fun hi => (work_neverHolds hi s).of_error h rfl

/-! ### The end of a command -/

/-- The work of a command writes nothing of the error record. -/
theorem errorRecord_of_work {i : Instr} {s t : State} (h : work i s = .ok t) : t.errorRecord = s.errorRecord := by
  rw [(work_registerFrame h).others]
  rfl

/-- Settles O43: the three ends of a command, of which only a decoder's work reaches the hold. -/
theorem commandsAreAtomic : Obligations.CommandsAreAtomic := by
  intro i s t h
  rcases exec_next_cases h with ⟨u, -, hu, rfl⟩ | ⟨x, -, rfl⟩ | ⟨hhold, rfl⟩
  · have hrecord := errorRecord_of_work hu
    simp only [State.errorRecord, Prod.mk.injEq] at hrecord
    exact .inl ⟨rfl, hrecord⟩
  · exact .inr (.inl ⟨x, rfl⟩)
  · exact .inr (.inr ⟨mayHold_of_attempt_hold hhold, rfl⟩)

/-! ### The record only grows -/

/-- Between `s` and `t` errors may have been recorded, and nothing of the record was cleared (60_exceptions.md R307). -/
structure RecordGrows (s t : State) : Prop where
  err : s.err = true → t.err = true
  bits : s.errBits &&& t.errBits = s.errBits
  count : s.errCount ≤ t.errCount
  first : s.errCount ≠ 0 → t.errFirst = s.errFirst ∧ t.errData = s.errData
  lastSet : s.errLast ≠ 0 → t.errLast ≠ 0
  lastCode : t.errLast = s.errLast ∨ ∃ x : ErrCode, t.errLast = BitVec.ofNat 8 x.code

/-- A state with the same record, whatever else differs. -/
theorem RecordGrows.of_eq {s t : State} (h : t.errorRecord = s.errorRecord) : RecordGrows s t := by
  simp only [State.errorRecord, Prod.mk.injEq] at h
  obtain ⟨herr, hbits, hfirst, hlast, hcount, hdata⟩ := h
  exact ⟨fun h => herr.trans h, by rw [hbits, BitVec.and_self], hcount ▸ BitVec.le_refl _, fun _ => ⟨hfirst, hdata⟩,
    fun h => hlast ▸ h, .inl hlast⟩

theorem RecordGrows.trans {s t u : State} (h : RecordGrows s t) (k : RecordGrows t u) : RecordGrows s u where
  err := fun hs => k.err (h.err hs)
  bits := by rw [← h.bits, BitVec.and_assoc, k.bits]
  count := BitVec.le_trans h.count k.count
  first := fun hs => by
    obtain ⟨hfirst, hdata⟩ := h.first hs
    have ht : t.errCount ≠ 0 := fun h0 => hs (BitVec.le_zero_iff.mp (BitVec.le_trans h.count (BitVec.le_of_eq h0)))
    obtain ⟨kfirst, kdata⟩ := k.first ht
    exact ⟨kfirst.trans hfirst, kdata.trans hdata⟩
  lastSet := fun hs => k.lastSet (h.lastSet hs)
  lastCode := by
    rcases k.lastCode with hkeep | hcode
    · rw [hkeep]
      exact h.lastCode
    · exact .inr hcode

/-- The record is all that counts of the earlier state. -/
theorem RecordGrows.congr_left {r s t : State} (h : RecordGrows s t) (hr : s.errorRecord = r.errorRecord) :
    RecordGrows r t :=
  (RecordGrows.of_eq hr).trans h

theorem recordError_grows (x : ErrCode) (i : Word) (s : State) : RecordGrows s (recordError x i s) where
  err := fun _ => rfl
  bits := by
    refine BitVec.eq_of_getLsbD_eq fun k _ => ?_
    rw [BitVec.getLsbD_and, getLsbD_errBits_recordError]
    cases s.errBits.getLsbD k <;> rfl
  count := by
    have hcount := toNat_errCount_recordError x i s
    rw [BitVec.le_def]
    omega
  first := fun h => ⟨errFirst_recordError_of_ne_zero h x i, errData_recordError_of_ne_zero h x i⟩
  lastSet := fun _ h0 => by
    have hcode := x.code_bounds
    rw [recordError_errLast] at h0
    rw [← x.toNat_code, h0] at hcode
    exact absurd hcode.1 (by decide)
  lastCode := .inr ⟨x, rfl⟩

theorem errorState_grows (x : ErrCode) (s : State) : RecordGrows s (errorState x s) :=
  (recordError_grows x _ { s with held := none }).congr_left rfl

theorem exec_grows {i : Instr} {s t : State} (h : exec i s = .next t) : RecordGrows s t := by
  rcases exec_next_cases h with ⟨u, -, hu, rfl⟩ | ⟨x, -, rfl⟩ | ⟨-, rfl⟩
  · have hrecord := errorRecord_of_work hu
    exact .of_eq hrecord
  · exact errorState_grows x s
  · exact .of_eq rfl

theorem runWord_grows {w : Word} {s t : State} (h : runWord w s = .next t) : RecordGrows s t := by
  unfold runWord at h
  split at h
  · exact exec_grows h
  · rw [finish_error] at h
    cases h
    exact errorState_grows _ s

theorem issue_grows {w : Word} {s t : State} (h : issue w s = .next t) : RecordGrows s t := by
  cases hheld : s.held with
  | some l =>
    rw [issue_of_held hheld] at h
    cases h
    exact recordError_grows _ w s
  | none =>
    simp only [issue, hheld] at h
    exact (runWord_grows h).congr_left rfl

theorem reattempt_grows {s t : State} (h : reattempt s = .next t) : RecordGrows s t := by
  cases hheld : s.held with
  | some l =>
    rw [reattempt_of_some hheld] at h
    exact runWord_grows h
  | none =>
    rw [reattempt_of_none hheld] at h
    cases h
    exact .of_eq rfl

theorem pushByte_grows (e : Idx) (off : BitVec 12) (v : Word) (s : State) : RecordGrows s (pushByte e off v s) := by
  rcases pushByte_cases e off v s with h | ⟨h, -⟩ <;> rw [h]
  · exact recordError_grows _ _ s
  · exact .of_eq rfl

theorem writeReg_grows {r : Reg} {off : BitVec 12} {v : Word} {s t : State} (h : writeReg r off v s = .next t) :
    RecordGrows s t := by
  unfold writeReg at h
  split at h
  case h_1 => exact issue_grows h
  case h_8 e => exact (pushByte_grows e off v s).trans (reattempt_grows h)
  case h_9 e => exact (reattempt_grows h).congr_left rfl
  all_goals cases h
  case h_10 => exact recordError_grows _ _ s
  all_goals exact .of_eq rfl

theorem hostWrite_grows {off : BitVec 12} {width : Width} {v : Word} {s t : State}
    (h : hostWrite off width v s = .next t) : RecordGrows s t := by
  unfold hostWrite at h
  split at h
  · split at h
    · exact writeReg_grows h
    · cases h
      exact recordError_grows _ _ s
  · cases h
    exact recordError_grows _ _ s

theorem hostRead_grows (off : BitVec 12) (width : Width) (s : State) : RecordGrows s (hostRead off width s) := by
  unfold hostRead
  split
  · exact .of_eq rfl
  · exact (recordError_grows _ _ { s with readData := 0 }).congr_left rfl

theorem perform_grows {a : Access} {s t : State} (ha : a ≠ .reset) (h : perform a s = .next t) : RecordGrows s t := by
  cases a with
  | reset => exact absurd rfl ha
  | read addr width =>
    simp only [perform] at h
    split at h <;> cases h
    · exact hostRead_grows _ width s
    · exact .of_eq rfl
  | write addr width v =>
    simp only [perform] at h
    split at h
    · exact hostWrite_grows h
    · cases h
      exact .of_eq rfl

theorem step_grows {s t : State} (h : step s = .next t) (hreset : s.pending.head? ≠ some .reset) : RecordGrows s t := by
  unfold step at h
  split at h
  · cases h
    exact .of_eq rfl
  · rename_i a rest hpending
    have ha : a ≠ .reset := fun ha => hreset (by rw [hpending, ha]; rfl)
    exact (perform_grows ha h).congr_left rfl

/-- Settles O49: every access but reset only adds to the record. -/
theorem errorRecordIsSticky : Obligations.ErrorRecordIsSticky := fun _ _ h hreset =>
  have grows := step_grows h hreset
  ⟨grows.err, grows.bits, grows.count, grows.first, grows.lastSet, grows.lastCode⟩

end Sys2Proof.Machine

/-! Reset (70_reset_and_hazards.md R330, R331). What each register reads on the machine right after power-on, said once
by kind of register; the reset input differs from power-on only in the model's own fields, which no register reads. -/

namespace Sys2Proof.Machine

/-! ### Registers after power-on -/

theorem readReg_status_resetOf (b : Build) : readReg (State.resetOf b) .status = 0 := by
  have quiet : readReg (State.resetOf b) .status = statusWord b false false 0 fun _ => false := by
    simp only [readReg, State.resetOf_eng]
    rfl
  refine BitVec.eq_of_getLsbD_eq fun i hi => ?_
  rw [quiet, getLsbD_statusWord hi]
  simp

theorem errInfoWord_zero : errInfoWord 0 0 0 = 0 := by decide

/-- No context is initialised yet, so the debug registers show no slot (10_state.md R51). -/
theorem dbgRead_resetOf (b : Build) (f : Nat → Nat → Model → Word) : dbgRead (State.resetOf b) f = 0 := by
  have unshown : dbgShown (State.resetOf b) = none := by simp [dbgShown, Context.reset]
  exact dbgRead_of_none unshown f

theorem readEng_reset (r : EngReg) : readEng Engine.reset r = 0 := by
  cases r <;> rfl

/-- `UNUSED` is set, and `KIND` as the build has it (10_state.md R62). -/
theorem readCtx_ctxStat_reset (k : Kind) :
    readCtx k Context.reset .ctxStat = match k with | .color => 0x4 | .colorNir => 0xC := by
  cases k <;> rfl

theorem readCtx_last_reset (k : Kind) {r : CtxReg} (h : r ≠ .ctxStat) : readCtx k Context.reset r = 0 := by
  cases r with
  | ctxStat => exact absurd rfl h
  | lastN => cases k <;> rfl
  | lastR | lastG | lastB => rfl

/-! ### The reset input -/

theorem resetBlock_eng (s : State) (e : Idx) : (resetBlock s).eng e = resetEngine (s.eng e) := by
  simp [resetBlock, State.eng]

/-- The count of free bytes drawn is all that the reset input keeps of an engine (log entry 12). -/
theorem resetEngine_without_draws (g : Engine) : { resetEngine g with draws := 0 } = Engine.reset := rfl

/-- No register shows how many free bytes an engine has drawn. -/
theorem readEng_resetEngine (g : Engine) (r : EngReg) : readEng (resetEngine g) r = readEng Engine.reset r := by
  cases r <;> rfl

theorem readReg_resetBlock (s : State) (r : Reg) : readReg (resetBlock s) r = readReg (State.resetOf s.build) r := by
  cases r with
  | status => simp only [readReg, resetBlock_eng, State.resetOf_eng]; rfl
  | eng e r => rw [readReg, readReg, resetBlock_eng, State.resetOf_eng, readEng_resetEngine]
  | _ => rfl

/-- On the machine right after power-on the reset input changes nothing. -/
theorem resetBlock_resetOf (b : Build) : resetBlock (State.resetOf b) = State.resetOf b := by
  have engines : (resetBlock (State.resetOf b)).engs = (State.resetOf b).engs := State.engs_ext fun e => by
    rw [resetBlock_eng, State.resetOf_eng]
    rfl
  calc resetBlock (State.resetOf b) = { State.resetOf b with engs := (resetBlock (State.resetOf b)).engs } := rfl
    _ = State.resetOf b := by rw [engines]

/-! ### The obligations -/

/-- Settles O8: the registers one by one after power-on; the reset input leaves each as power-on does. -/
theorem resetLeavesTheStatedValues : Obligations.ResetLeavesTheStatedValues := by
  refine ⟨fun b r => ?_, fun b => ⟨rfl, State.resetOf_eng b, fun c => ?_⟩, rfl, fun s rest h =>
    ⟨_, step_reset h, rfl, readReg_resetBlock _, rfl, fun e => ?_, rfl⟩⟩
  · cases r with
    | status => exact readReg_status_resetOf b
    | dbgCount | dbgDist | dbgTotal | dbgCycle | dbgUntil | dbgNsym => rw [readReg, dbgRead_resetOf]
    | errInfo => exact errInfoWord_zero
    | eng e r => rw [readReg, State.resetOf_eng, readEng_reset]
    | ctx c r =>
      rw [readReg, State.resetOf_ctx]
      cases r with
      | ctxStat => exact readCtx_ctxStat_reset (b.kind c)
      | lastR | lastG | lastB | lastN => exact readCtx_last_reset _ (by decide)
    | _ => rfl
  · rw [State.lastRgb, State.resetOf_ctx]
    exact ⟨rfl, rfl, rfl, rfl⟩
  · rw [resetBlock_eng, resetEngine_without_draws]

/-- Settles O57: a machine after power-on is one the reset input leaves as it is, and what that leaves is sound. -/
theorem invariantAfterReset : Obligations.InvariantAfterReset := fun b =>
  resetBlock_resetOf b ▸ resetBlock_inv (State.resetOf b)

end Sys2Proof.Machine
